-- ==== Sys2Proof/Word.lean ====
section
/-! DEFINITION. The word types of the machine (00_scope.md R6, R8). -/

namespace Sys2Proof

/-- A byte of memory or of an instruction (20_memory.md R40). -/
abbrev Byte := BitVec 8

/-- A 64-bit register, a linear address while it is computed, or one element of a vector (R24, R40, R130). -/
abbrev Word := BitVec 64

/-- The storage of one vector register, of which the low MAXVL bits exist (10_state.md R20, R21). -/
abbrev Vec := BitVec 512

end Sys2Proof
end

