-- ==== Sys2Proof/Syntax.lean ====
section
/-! DEFINITION. The instructions: one constructor per row of opcode_table.json (00_scope.md R2, 30_encoding.md R70). A term
holds every field of its encoding that is not fixed by the row, in un-inverted form where the spec names a true value (R84),
so that its bytes, its length and its legality can be read off it. -/

namespace Sys2Proof

/-- The six segment-override prefixes (30_encoding.md R73). -/
inductive Segment where
  | cs
  | ss
  | ds
  | es
  | fs
  | gs
deriving DecidableEq, Repr

/-- The legacy prefixes, by the bytes of 30_encoding.md R73. -/
inductive LegacyPrefix where
  | lock
  | repne
  | rep
  | seg (g : Segment)
  | opsize
  | addrsize
deriving DecidableEq, Repr

/-- The four groups of legacy prefixes (30_encoding.md R73). -/
inductive PrefixGroup where
  | g1
  | g2
  | g3
  | g4
deriving DecidableEq, Repr

def LegacyPrefix.group : LegacyPrefix → PrefixGroup
  | .lock => .g1
  | .repne => .g1
  | .rep => .g1
  | .seg _ => .g2
  | .opsize => .g3
  | .addrsize => .g4

/-- The REX prefix 0100WRXB, true bits (30_encoding.md R74). -/
structure Rex where
  w : Bool
  r : Bool
  x : Bool
  b : Bool
deriving DecidableEq, Repr

/-- The 2-byte VEX prefix (30_encoding.md R75): the true R bit, and the stored vvvv field, which must be 1111. -/
structure Vex2 where
  r : Bool
  vvvv : BitVec 4
deriving DecidableEq, Repr

/-- The 3-byte VEX prefix (30_encoding.md R76): the true R, X, B bits, W, and the stored vvvv field. -/
structure Vex3 where
  r : Bool
  x : Bool
  b : Bool
  w : Bool
  vvvv : BitVec 4
deriving DecidableEq, Repr

/-- The EVEX prefix less the fields that select the row (30_encoding.md R79): the true R, X, B, R' bits; the reserved bit
P0[3] and the fixed bit P1[2] as stored; vvvv and V' as stored; z, b and aaa. -/
structure Evex where
  r : Bool
  x : Bool
  b : Bool
  rHi : Bool
  p0bit3 : Bool
  vvvv : BitVec 4
  p1bit2 : Bool
  z : Bool
  bcast : Bool
  vHi : Bool
  aaa : BitVec 3
deriving DecidableEq, Repr

/-- The displacement bytes that follow ModRM or SIB (30_encoding.md R85, R87). -/
inductive Disp where
  | none
  | d8 (v : BitVec 8)
  | d32 (v : BitVec 32)
deriving DecidableEq, Repr

/-- The memory rows of the table of 30_encoding.md R85, with the raw fields of ModRM and SIB (R83, R86). -/
inductive AddrForm where
  /-- mod 00, rm 101: RIP-relative. -/
  | ripRel (d : BitVec 32)
  /-- rm other than 100: a base register and no SIB byte. -/
  | base (rm : BitVec 3) (d : Disp)
  /-- rm 100: a SIB byte with a base register. -/
  | sib (ss : BitVec 2) (index : BitVec 3) (base : BitVec 3) (d : Disp)
  /-- mod 00, rm 100, SIB.base 101: a SIB byte with no base register and a disp32. -/
  | sibNoBase (ss : BitVec 2) (index : BitVec 3) (d : BitVec 32)
deriving DecidableEq, Repr

/-- The operand encoded in ModRM:r/m: a vector register (mod 11) or a memory location (30_encoding.md R83). -/
inductive RmOperand where
  | reg (rm : BitVec 3)
  | mem (a : AddrForm)
deriving DecidableEq, Repr

/-- The instructions. `RegRm` is opcode `10`, destination ModRM:reg; `RmReg` is opcode `11`, destination ModRM:r/m
(30_encoding.md R82). `p` is the legacy prefixes in the order they stand, the mandatory `66` of the legacy forms among them;
`rex` before a VEX or EVEX prefix is a REX byte that stands there (R78, R81: #UD). -/
inductive Instr where
  /-- Row 1, `66 0F 10 /r` without REX: MOVUPD xmm1, xmm2/m128. -/
  | movupdRegRm (p : List LegacyPrefix) (reg : BitVec 3) (rm : RmOperand)
  /-- Row 1 with REX. -/
  | movupdRegRmRex (p : List LegacyPrefix) (x : Rex) (reg : BitVec 3) (rm : RmOperand)
  /-- Row 2, `66 0F 11 /r` without REX: MOVUPD xmm2/m128, xmm1. -/
  | movupdRmReg (p : List LegacyPrefix) (reg : BitVec 3) (rm : RmOperand)
  /-- Row 2 with REX. -/
  | movupdRmRegRex (p : List LegacyPrefix) (x : Rex) (reg : BitVec 3) (rm : RmOperand)
  /-- Row 3, `VEX.128.66.0F.WIG 10 /r`, 2-byte VEX: VMOVUPD xmm1, xmm2/m128. -/
  | vex2Mov128RegRm (p : List LegacyPrefix) (rex : Option Rex) (v : Vex2) (reg : BitVec 3) (rm : RmOperand)
  /-- Row 3, 3-byte VEX. -/
  | vex3Mov128RegRm (p : List LegacyPrefix) (rex : Option Rex) (v : Vex3) (reg : BitVec 3) (rm : RmOperand)
  /-- Row 4, `VEX.128.66.0F.WIG 11 /r`, 2-byte VEX: VMOVUPD xmm2/m128, xmm1. -/
  | vex2Mov128RmReg (p : List LegacyPrefix) (rex : Option Rex) (v : Vex2) (reg : BitVec 3) (rm : RmOperand)
  /-- Row 4, 3-byte VEX. -/
  | vex3Mov128RmReg (p : List LegacyPrefix) (rex : Option Rex) (v : Vex3) (reg : BitVec 3) (rm : RmOperand)
  /-- Row 5, `VEX.256.66.0F.WIG 10 /r`, 2-byte VEX: VMOVUPD ymm1, ymm2/m256. -/
  | vex2Mov256RegRm (p : List LegacyPrefix) (rex : Option Rex) (v : Vex2) (reg : BitVec 3) (rm : RmOperand)
  /-- Row 5, 3-byte VEX. -/
  | vex3Mov256RegRm (p : List LegacyPrefix) (rex : Option Rex) (v : Vex3) (reg : BitVec 3) (rm : RmOperand)
  /-- Row 6, `VEX.256.66.0F.WIG 11 /r`, 2-byte VEX: VMOVUPD ymm2/m256, ymm1. -/
  | vex2Mov256RmReg (p : List LegacyPrefix) (rex : Option Rex) (v : Vex2) (reg : BitVec 3) (rm : RmOperand)
  /-- Row 6, 3-byte VEX. -/
  | vex3Mov256RmReg (p : List LegacyPrefix) (rex : Option Rex) (v : Vex3) (reg : BitVec 3) (rm : RmOperand)
  /-- Row 7, `EVEX.128.66.0F.W1 10 /r`: VMOVUPD xmm1 with writemask, xmm2/m128. -/
  | evexMov128RegRm (p : List LegacyPrefix) (rex : Option Rex) (e : Evex) (reg : BitVec 3) (rm : RmOperand)
  /-- Row 8, `EVEX.128.66.0F.W1 11 /r`: VMOVUPD xmm2/m128 with writemask, xmm1. -/
  | evexMov128RmReg (p : List LegacyPrefix) (rex : Option Rex) (e : Evex) (reg : BitVec 3) (rm : RmOperand)
  /-- Row 9, `EVEX.256.66.0F.W1 10 /r`: VMOVUPD ymm1 with writemask, ymm2/m256. -/
  | evexMov256RegRm (p : List LegacyPrefix) (rex : Option Rex) (e : Evex) (reg : BitVec 3) (rm : RmOperand)
  /-- Row 10, `EVEX.256.66.0F.W1 11 /r`: VMOVUPD ymm2/m256 with writemask, ymm1. -/
  | evexMov256RmReg (p : List LegacyPrefix) (rex : Option Rex) (e : Evex) (reg : BitVec 3) (rm : RmOperand)
  /-- Row 11, `EVEX.512.66.0F.W1 10 /r`: VMOVUPD zmm1 with writemask, zmm2/m512. -/
  | evexMov512RegRm (p : List LegacyPrefix) (rex : Option Rex) (e : Evex) (reg : BitVec 3) (rm : RmOperand)
  /-- Row 12, `EVEX.512.66.0F.W1 11 /r`: VMOVUPD zmm2/m512 with writemask, zmm1. -/
  | evexMov512RmReg (p : List LegacyPrefix) (rex : Option Rex) (e : Evex) (reg : BitVec 3) (rm : RmOperand)
deriving DecidableEq, Repr

end Sys2Proof
end

