-- ==== Sys2Proof/Machine/Legality.lean ====
section
/-! DEFINITION. Which encodings are legal: the conditions of 30_encoding.md R91 that depend on the encoding alone. An
encoding that reaches a row and is not legal raises #UD (60_exceptions.md R151). -/

namespace Sys2Proof.Machine

/-- LOCK is not allowed on any form (30_encoding.md R73, 20_memory.md R61). -/
def noLock (p : List LegacyPrefix) : Bool := !p.contains .lock

/-- The legacy SSE forms have one illegal variant: LOCK (30_encoding.md R73, R91). -/
def sseLegal (p : List LegacyPrefix) : Bool := noLock p

/-- No `66`, `F2`, `F3`, `F0` or REX before a VEX or EVEX escape (30_encoding.md R78, R81 item 7). -/
def vexPrefixesLegal (p : List LegacyPrefix) (rex : Option Rex) : Bool :=
  noLock p && !p.contains .opsize && !p.contains .repne && !p.contains .rep && rex.isNone

/-- The VEX forms: the preceding bytes and vvvv = 1111 (30_encoding.md R78, 41_vmovupd_vex.md R120). -/
def vexLegal (p : List LegacyPrefix) (rex : Option Rex) (vvvv : BitVec 4) : Bool :=
  vexPrefixesLegal p rex && vvvv == 0b1111#4

/-- What every EVEX form needs (30_encoding.md R81 items 1, 2, 4, 5, 7 and vvvv): item 3, L'L = 11, reaches no row and is
the decoder's `reservedLength`. -/
def evexLegal (p : List LegacyPrefix) (rex : Option Rex) (e : Evex) : Bool :=
  vexPrefixesLegal p rex && !e.p0bit3 && e.p1bit2 && e.vvvv == 0b1111#4 && e.vHi && !e.bcast
    && !(e.z && e.aaa == 0#3)

/-- The opcode `11` EVEX forms: zeroing-masking needs a register destination (30_encoding.md R81 item 6, decision D14). -/
def evexRmDestLegal (e : Evex) : RmOperand → Bool
  | .reg _ => true
  | .mem _ => !e.z

end Sys2Proof.Machine
end

