-- ==== Sys2Proof/Config.lean ====
section
/-! DEFINITION. What an implementation fixes (the parameters of 00_scope.md R5) and the free choice the spec leaves open. -/

namespace Sys2Proof

/-- MAXVL, the width of one vector register (00_scope.md R5, 10_state.md R21). -/
inductive MaxVl where
  | v128
  | v256
  | v512
deriving DecidableEq, Repr

def MaxVl.bits : MaxVl → Nat
  | .v128 => 128
  | .v256 => 256
  | .v512 => 512

/-- KW, the width of one opmask register (00_scope.md R5, 10_state.md R23). -/
inductive MaskWidth where
  | k16
  | k64
deriving DecidableEq, Repr

def MaskWidth.bits : MaskWidth → Nat
  | .k16 => 16
  | .k64 => 64

/-- LA, the number of implemented linear-address bits (00_scope.md R5, 20_memory.md R55). -/
inductive LinearBits where
  | la48
  | la57
deriving DecidableEq, Repr

def LinearBits.bits : LinearBits → Nat
  | .la48 => 48
  | .la57 => 57

/-- FAULT_SUPPRESSION: whether a masked-off element can fault (20_memory.md R48, decision D13). -/
inductive FaultSuppression where
  | either
  | suppressed
deriving DecidableEq, Repr

/-- The two kinds of access the oracle is asked about (20_memory.md R58). -/
inductive AccessKind where
  | read
  | write
deriving DecidableEq, Repr

/-- What the oracle `Access` answers for a canonical address (20_memory.md R58): the access is permitted; the translation
does not permit it, with the code the paging hardware would push; or `Access` refuses the location because it is not
ordinary memory (R49, D17) or is a second name of another byte (R58). -/
inductive AccessResult where
  | ok
  | pageFault (code : Nat)
  | notOrdinary
  | aliased
deriving DecidableEq, Repr

/-- One stretch of linear addresses with the oracle's two answers. -/
structure AccessRegion where
  base : Nat
  size : Nat
  read : AccessResult
  write : AccessResult
deriving DecidableEq, Repr

/-- The parameters of 00_scope.md R5 that are not registers. They do not change while a program runs (10_state.md R29, R33).
`access` holds the oracle as data: the first region that contains an address decides, and an address in no region is
permitted; the list can describe every function on the finite address space (log 6). -/
structure Config where
  maxvl : MaxVl
  hasSse2 : Bool
  hasAvx : Bool
  hasAvx512f : Bool
  hasAvx512vl : Bool
  kw : MaskWidth
  la : LinearBits
  suppression : FaultSuppression
  access : List AccessRegion
deriving DecidableEq, Repr

/-- The constraints between the parameters (10_state.md R21, R29). -/
def Config.consistent (c : Config) : Bool :=
  (!c.hasAvx512vl || c.hasAvx512f) && (!c.hasAvx512f || c.hasAvx) && (!c.hasAvx || c.hasSse2)
    && (!c.hasAvx || c.maxvl != .v128) && (!c.hasAvx512f || c.maxvl == .v512)

/-- NVEC, the number of vector registers (10_state.md R22, decision D4). -/
def Config.nvec (c : Config) : Nat := if c.hasAvx512f then 32 else 16

/-- The free value of the model: which of the outcomes the spec admits is the one that happens, read at the state's counter
(20_memory.md R45, R48; 60_exceptions.md R157, R161). It has no body, so nothing can be proved of it (log 7). -/
opaque Config.freeChoice : Nat → Nat

end Sys2Proof
end

