-- ==== Sys2Proof/Decode.lean ====
section
/-! DEFINITION. The decoder, total on any bytes (30_encoding.md R70 to R89, R92, R98), and after it the encoder. -/

namespace Sys2Proof

/-- Why the decoder gives a byte string no meaning. -/
inductive DecodeRefusal where
  /-- Not one of the twelve rows nor an illegal variant of one (30_encoding.md R92, decision D23). -/
  | notInScope
  /-- A repeated prefix or two prefixes of one group (30_encoding.md R73, decision D28). -/
  | repeatedPrefix
  /-- A REX byte followed by another prefix byte that is no VEX or EVEX escape (30_encoding.md R74, decision D28). -/
  | misplacedRex
  /-- The bytes end inside the instruction. -/
  | truncated
deriving DecidableEq, Repr

/-- What the decoder reads. `reservedLength` is an EVEX prefix with L'L = 11, an illegal variant that names no row
(30_encoding.md R81 item 3, R91): it keeps what its length is computed from. -/
inductive Decoded where
  | instr (i : Instr)
  | reservedLength (p : List LegacyPrefix) (rex : Option Rex) (rm : RmOperand)
  | refuse (r : DecodeRefusal)
deriving DecidableEq, Repr

/-- The longest byte string the decoder reads: five bytes before an EVEX prefix (all illegal there), the 4-byte prefix,
opcode, ModRM, SIB and disp32 (30_encoding.md R70, R73; log 15). -/
def longestEncoding : Nat := 16

/-! ## Prefix bytes -/

/-- The prefix bytes of 30_encoding.md R73. -/
def LegacyPrefix.byte : LegacyPrefix → Byte
  | .lock => 0xF0#8
  | .repne => 0xF2#8
  | .rep => 0xF3#8
  | .seg .cs => 0x2E#8
  | .seg .ss => 0x36#8
  | .seg .ds => 0x3E#8
  | .seg .es => 0x26#8
  | .seg .fs => 0x64#8
  | .seg .gs => 0x65#8
  | .opsize => 0x66#8
  | .addrsize => 0x67#8

def decodeLegacyPrefix (b : Byte) : Option LegacyPrefix :=
  if b = 0xF0#8 then some .lock
  else if b = 0xF2#8 then some .repne
  else if b = 0xF3#8 then some .rep
  else if b = 0x2E#8 then some (.seg .cs)
  else if b = 0x36#8 then some (.seg .ss)
  else if b = 0x3E#8 then some (.seg .ds)
  else if b = 0x26#8 then some (.seg .es)
  else if b = 0x64#8 then some (.seg .fs)
  else if b = 0x65#8 then some (.seg .gs)
  else if b = 0x66#8 then some .opsize
  else if b = 0x67#8 then some .addrsize
  else none

/-- The legacy prefixes at the front of a byte string, in order, and what follows them. -/
def takePrefixes : List Byte → List LegacyPrefix × List Byte
  | [] => ([], [])
  | b :: bs =>
    match decodeLegacyPrefix b with
    | none => ([], b :: bs)
    | some q => (q :: (takePrefixes bs).1, (takePrefixes bs).2)

/-- REX is a byte 0100WRXB (30_encoding.md R74). -/
def decodeRex (b : Byte) : Option Rex :=
  if b.extractLsb' 4 4 = 0b0100#4 then
    some { w := b.getLsbD 3, r := b.getLsbD 2, x := b.getLsbD 1, b := b.getLsbD 0 }
  else none

/-- A REX byte where one stands, and what follows it. -/
def takeRex : List Byte → Option Rex × List Byte
  | [] => (none, [])
  | b :: bs =>
    match decodeRex b with
    | some x => (some x, bs)
    | none => (none, b :: bs)

/-! ## ModRM, SIB and displacement -/

/-- Four bytes in little-endian order (30_encoding.md R87, 20_memory.md R41). -/
def disp32Of (b0 b1 b2 b3 : Byte) : BitVec 32 := b3 ++ b2 ++ b1 ++ b0

def takeDisp32 : List Byte → Option (BitVec 32 × List Byte)
  | b0 :: b1 :: b2 :: b3 :: bs => some (disp32Of b0 b1 b2 b3, bs)
  | _ => none

/-- The displacement mod calls for: none, disp8 or disp32 (30_encoding.md R85). -/
def takeDisp (md : BitVec 2) (bs : List Byte) : Option (Disp × List Byte) :=
  if md = 0b00#2 then some (.none, bs)
  else if md = 0b01#2 then
    match bs with
    | [] => none
    | b :: bs => some (.d8 b, bs)
  else (takeDisp32 bs).map fun d => (.d32 d.1, d.2)

/-- The SIB byte and its displacement (30_encoding.md R85, R86). -/
def takeSib (md : BitVec 2) : List Byte → Option (AddrForm × List Byte)
  | [] => none
  | s :: bs =>
    if md = 0b00#2 ∧ s.extractLsb' 0 3 = 0b101#3 then
      (takeDisp32 bs).map fun d => (.sibNoBase (s.extractLsb' 6 2) (s.extractLsb' 3 3) d.1, d.2)
    else
      (takeDisp md bs).map fun d => (.sib (s.extractLsb' 6 2) (s.extractLsb' 3 3) (s.extractLsb' 0 3) d.1, d.2)

/-- The r/m operand of a ModRM byte (30_encoding.md R83, R85). -/
def takeRm (m : Byte) (bs : List Byte) : Option (RmOperand × List Byte) :=
  if m.extractLsb' 6 2 = 0b11#2 then some (.reg (m.extractLsb' 0 3), bs)
  else if m.extractLsb' 0 3 = 0b100#3 then (takeSib (m.extractLsb' 6 2) bs).map fun a => (.mem a.1, a.2)
  else if m.extractLsb' 6 2 = 0b00#2 ∧ m.extractLsb' 0 3 = 0b101#3 then
    (takeDisp32 bs).map fun d => (.mem (.ripRel d.1), d.2)
  else (takeDisp (m.extractLsb' 6 2) bs).map fun d => (.mem (.base (m.extractLsb' 0 3) d.1), d.2)

/-- What follows the opcode byte; `k` makes the result from ModRM.reg and the r/m operand. -/
def decodeOperands (k : BitVec 3 → RmOperand → Decoded) : List Byte → Decoded
  | [] => .refuse .truncated
  | m :: bs =>
    match takeRm m bs with
    | none => .refuse .truncated
    | some (rm, _) => k (m.extractLsb' 3 3) rm

/-- The opcode byte: `10` or `11` (30_encoding.md R82); any other is another instruction (R92). -/
def decodeOpcode (regRm rmReg : BitVec 3 → RmOperand → Decoded) : List Byte → Decoded
  | [] => .refuse .truncated
  | op :: bs =>
    if op = 0x10#8 then decodeOperands regRm bs
    else if op = 0x11#8 then decodeOperands rmReg bs
    else .refuse .notInScope

/-! ## The three layouts -/

/-- After `0F`: `66` must be among the prefixes and `F2`, `F3` must not (30_encoding.md R72, R73). -/
def decodeSse (p : List LegacyPrefix) (rex : Option Rex) (bs : List Byte) : Decoded :=
  if p.contains .opsize && !p.contains .repne && !p.contains .rep then
    match rex with
    | none =>
      decodeOpcode (fun reg rm => .instr (.movupdRegRm p reg rm)) (fun reg rm => .instr (.movupdRmReg p reg rm)) bs
    | some x =>
      decodeOpcode (fun reg rm => .instr (.movupdRegRmRex p x reg rm))
        (fun reg rm => .instr (.movupdRmRegRex p x reg rm)) bs
  else .refuse .notInScope

/-- After `C5` (30_encoding.md R75, R77): R is stored inverted; pp other than 01 is another instruction (R78). -/
def decodeVex2 (p : List LegacyPrefix) (rex : Option Rex) : List Byte → Decoded
  | [] => .refuse .truncated
  | b :: bs =>
    let v : Vex2 := { r := !b.getLsbD 7, vvvv := b.extractLsb' 3 4 }
    if b.extractLsb' 0 2 = 0b01#2 then
      if b.getLsbD 2 then
        decodeOpcode (fun reg rm => .instr (.vex2Mov256RegRm p rex v reg rm))
          (fun reg rm => .instr (.vex2Mov256RmReg p rex v reg rm)) bs
      else
        decodeOpcode (fun reg rm => .instr (.vex2Mov128RegRm p rex v reg rm))
          (fun reg rm => .instr (.vex2Mov128RmReg p rex v reg rm)) bs
    else .refuse .notInScope

/-- After `C4` (30_encoding.md R76, R77): R, X, B are stored inverted; mmmmm other than 00001 or pp other than 01 is
another instruction (R78). -/
def decodeVex3 (p : List LegacyPrefix) (rex : Option Rex) : List Byte → Decoded
  | b1 :: b2 :: bs =>
    let v : Vex3 :=
      { r := !b1.getLsbD 7, x := !b1.getLsbD 6, b := !b1.getLsbD 5, w := b2.getLsbD 7, vvvv := b2.extractLsb' 3 4 }
    if b1.extractLsb' 0 5 = 0b00001#5 ∧ b2.extractLsb' 0 2 = 0b01#2 then
      if b2.getLsbD 2 then
        decodeOpcode (fun reg rm => .instr (.vex3Mov256RegRm p rex v reg rm))
          (fun reg rm => .instr (.vex3Mov256RmReg p rex v reg rm)) bs
      else
        decodeOpcode (fun reg rm => .instr (.vex3Mov128RegRm p rex v reg rm))
          (fun reg rm => .instr (.vex3Mov128RmReg p rex v reg rm)) bs
    else .refuse .notInScope
  | _ => .refuse .truncated

/-- The fields of P0, P1, P2 that a term keeps (30_encoding.md R79): R, X, B, R' are stored inverted. -/
def evexFields (p0 p1 p2 : Byte) : Evex :=
  { r := !p0.getLsbD 7, x := !p0.getLsbD 6, b := !p0.getLsbD 5, rHi := !p0.getLsbD 4, p0bit3 := p0.getLsbD 3
    vvvv := p1.extractLsb' 3 4, p1bit2 := p1.getLsbD 2
    z := p2.getLsbD 7, bcast := p2.getLsbD 4, vHi := p2.getLsbD 3, aaa := p2.extractLsb' 0 3 }

/-- After `62` (30_encoding.md R79, R80): mmm other than 001, W = 0 or pp other than 01 is another instruction or none
(R81, R92); L'L selects the row. -/
def decodeEvex (p : List LegacyPrefix) (rex : Option Rex) : List Byte → Decoded
  | p0 :: p1 :: p2 :: bs =>
    let e := evexFields p0 p1 p2
    if p0.extractLsb' 0 3 = 0b001#3 ∧ p1.getLsbD 7 = true ∧ p1.extractLsb' 0 2 = 0b01#2 then
      if p2.extractLsb' 5 2 = 0b00#2 then
        decodeOpcode (fun reg rm => .instr (.evexMov128RegRm p rex e reg rm))
          (fun reg rm => .instr (.evexMov128RmReg p rex e reg rm)) bs
      else if p2.extractLsb' 5 2 = 0b01#2 then
        decodeOpcode (fun reg rm => .instr (.evexMov256RegRm p rex e reg rm))
          (fun reg rm => .instr (.evexMov256RmReg p rex e reg rm)) bs
      else if p2.extractLsb' 5 2 = 0b10#2 then
        decodeOpcode (fun reg rm => .instr (.evexMov512RegRm p rex e reg rm))
          (fun reg rm => .instr (.evexMov512RmReg p rex e reg rm)) bs
      else decodeOpcode (fun _ rm => .reservedLength p rex rm) (fun _ rm => .reservedLength p rex rm) bs
    else .refuse .notInScope
  | _ => .refuse .truncated

/-- The byte after the prefixes tells the layouts apart (30_encoding.md R71). -/
def decodeEscape (p : List LegacyPrefix) (rex : Option Rex) : List Byte → Decoded
  | [] => .refuse .truncated
  | b :: bs =>
    if b = 0x0F#8 then decodeSse p rex bs
    else if b = 0xC5#8 then decodeVex2 p rex bs
    else if b = 0xC4#8 then decodeVex3 p rex bs
    else if b = 0x62#8 then decodeEvex p rex bs
    else if rex.isSome && ((decodeLegacyPrefix b).isSome || (decodeRex b).isSome) then .refuse .misplacedRex
    else .refuse .notInScope

/-- The instruction at the front of a byte string, in 64-bit mode. -/
def decode (bs : List Byte) : Decoded :=
  let pr := takePrefixes bs
  if (pr.1.map LegacyPrefix.group).Nodup then
    decodeEscape pr.1 (takeRex pr.2).1 (takeRex pr.2).2
  else .refuse .repeatedPrefix

/-! ## The encoder -/

def bit (b : Bool) : BitVec 1 := BitVec.ofBool b

/-- 0100WRXB (30_encoding.md R74). -/
def Rex.byte (x : Rex) : Byte := 0b0100#4 ++ bit x.w ++ bit x.r ++ bit x.x ++ bit x.b

/-- The bytes of a 2-byte VEX prefix with pp = 01 (30_encoding.md R77). -/
def Vex2.bytes (v : Vex2) (l : Bool) : List Byte :=
  [0xC5#8, bit (!v.r) ++ v.vvvv ++ bit l ++ 0b01#2]

/-- The bytes of a 3-byte VEX prefix with mmmmm = 00001 and pp = 01 (30_encoding.md R77). -/
def Vex3.bytes (v : Vex3) (l : Bool) : List Byte :=
  [0xC4#8, bit (!v.r) ++ bit (!v.x) ++ bit (!v.b) ++ 0b00001#5, bit v.w ++ v.vvvv ++ bit l ++ 0b01#2]

/-- The bytes of an EVEX prefix with mmm = 001, W = 1 and pp = 01 (30_encoding.md R79, R80). -/
def Evex.bytes (e : Evex) (ll : BitVec 2) : List Byte :=
  [0x62#8,
   bit (!e.r) ++ bit (!e.x) ++ bit (!e.b) ++ bit (!e.rHi) ++ bit e.p0bit3 ++ 0b001#3,
   1#1 ++ e.vvvv ++ bit e.p1bit2 ++ 0b01#2,
   bit e.z ++ ll ++ bit e.bcast ++ bit e.vHi ++ e.aaa]

/-- A 32-bit displacement in little-endian order (30_encoding.md R87). -/
def disp32Bytes (d : BitVec 32) : List Byte :=
  [d.extractLsb' 0 8, d.extractLsb' 8 8, d.extractLsb' 16 8, d.extractLsb' 24 8]

/-- The mod field a displacement calls for (30_encoding.md R85). -/
def Disp.md : Disp → BitVec 2
  | .none => 0b00#2
  | .d8 _ => 0b01#2
  | .d32 _ => 0b10#2

def Disp.bytes : Disp → List Byte
  | .none => []
  | .d8 v => [v]
  | .d32 v => disp32Bytes v

/-- ModRM, SIB and displacement (30_encoding.md R83, R85, R86). -/
def RmOperand.bytes (reg : BitVec 3) : RmOperand → List Byte
  | .reg rm => [0b11#2 ++ reg ++ rm]
  | .mem (.ripRel d) => (0b00#2 ++ reg ++ 0b101#3) :: disp32Bytes d
  | .mem (.base rm d) => (d.md ++ reg ++ rm) :: d.bytes
  | .mem (.sib ss i b d) => (d.md ++ reg ++ 0b100#3) :: (ss ++ i ++ b) :: d.bytes
  | .mem (.sibNoBase ss i d) => (0b00#2 ++ reg ++ 0b100#3) :: (ss ++ i ++ 0b101#3) :: disp32Bytes d

def prefixBytes (p : List LegacyPrefix) (rex : Option Rex) : List Byte :=
  p.map LegacyPrefix.byte ++ rex.toList.map Rex.byte

/-- The bytes of an instruction, in address order (30_encoding.md R70, R72, R77, R80). -/
def encode : Instr → List Byte
  | .movupdRegRm p reg rm => prefixBytes p none ++ [0x0F#8, 0x10#8] ++ rm.bytes reg
  | .movupdRegRmRex p x reg rm => prefixBytes p (some x) ++ [0x0F#8, 0x10#8] ++ rm.bytes reg
  | .movupdRmReg p reg rm => prefixBytes p none ++ [0x0F#8, 0x11#8] ++ rm.bytes reg
  | .movupdRmRegRex p x reg rm => prefixBytes p (some x) ++ [0x0F#8, 0x11#8] ++ rm.bytes reg
  | .vex2Mov128RegRm p r v reg rm => prefixBytes p r ++ v.bytes false ++ [0x10#8] ++ rm.bytes reg
  | .vex3Mov128RegRm p r v reg rm => prefixBytes p r ++ v.bytes false ++ [0x10#8] ++ rm.bytes reg
  | .vex2Mov128RmReg p r v reg rm => prefixBytes p r ++ v.bytes false ++ [0x11#8] ++ rm.bytes reg
  | .vex3Mov128RmReg p r v reg rm => prefixBytes p r ++ v.bytes false ++ [0x11#8] ++ rm.bytes reg
  | .vex2Mov256RegRm p r v reg rm => prefixBytes p r ++ v.bytes true ++ [0x10#8] ++ rm.bytes reg
  | .vex3Mov256RegRm p r v reg rm => prefixBytes p r ++ v.bytes true ++ [0x10#8] ++ rm.bytes reg
  | .vex2Mov256RmReg p r v reg rm => prefixBytes p r ++ v.bytes true ++ [0x11#8] ++ rm.bytes reg
  | .vex3Mov256RmReg p r v reg rm => prefixBytes p r ++ v.bytes true ++ [0x11#8] ++ rm.bytes reg
  | .evexMov128RegRm p r e reg rm => prefixBytes p r ++ e.bytes 0b00#2 ++ [0x10#8] ++ rm.bytes reg
  | .evexMov128RmReg p r e reg rm => prefixBytes p r ++ e.bytes 0b00#2 ++ [0x11#8] ++ rm.bytes reg
  | .evexMov256RegRm p r e reg rm => prefixBytes p r ++ e.bytes 0b01#2 ++ [0x10#8] ++ rm.bytes reg
  | .evexMov256RmReg p r e reg rm => prefixBytes p r ++ e.bytes 0b01#2 ++ [0x11#8] ++ rm.bytes reg
  | .evexMov512RegRm p r e reg rm => prefixBytes p r ++ e.bytes 0b10#2 ++ [0x10#8] ++ rm.bytes reg
  | .evexMov512RmReg p r e reg rm => prefixBytes p r ++ e.bytes 0b10#2 ++ [0x11#8] ++ rm.bytes reg

/-! ## The words of opcode_table.json -/

/-- The bytes of a table word, the first byte in the word's most significant position: the table's `match`, `fixed` and
`fields` number a row's head that way (byte 0 of `66 0F 10 /r` is bits 31 to 24, ModRM bits 7 to 0; log 12). -/
def bytesHighFirst (nbits w : Nat) : List Byte :=
  (List.range (nbits / 8)).map fun k => BitVec.ofNat 8 (w >>> (8 * (nbits / 8 - 1 - k)))

/-- The bytes of a word whose first byte is bits 7 to 0. -/
def bytesLowFirst (nbits w : Nat) : List Byte :=
  (List.range (nbits / 8)).map fun k => BitVec.ofNat 8 (w >>> (8 * k))

/-- Zeros after the bytes the word gives, up to the longest instruction. -/
def padded (bs : List Byte) : List Byte := bs ++ List.replicate (longestEncoding - bs.length) 0#8

/-- The instruction bytes a table word stands for: the table's own numbering; where the decoder refuses those bytes, the
numbering that starts with bits 7 to 0 (log 12). -/
def tableBytes (nbits w : Nat) : List Byte :=
  match decode (padded (bytesHighFirst nbits w)) with
  | .refuse _ => padded (bytesLowFirst nbits w)
  | _ => padded (bytesHighFirst nbits w)

/-- The instruction the decoder reads from a table word, operand bytes beyond the word being 0. -/
def decodeTableWord (nbits w : Nat) : Option Instr :=
  match decode (tableBytes nbits w) with
  | .instr i => some i
  | _ => none

end Sys2Proof
end

