-- ==== Sys2Proof/Machine/State.lean ====
section
/-! DEFINITION. The state of the machine (10_state.md), the outcomes' reasons (60_exceptions.md R163), and the launch state
that stands for reset (10_state.md R35, 70_reset_and_hazards.md R182). -/

namespace Sys2Proof.Machine

/-- The exceptions an instruction in scope can raise (60_exceptions.md R150). A fault is the terminal outcome of R163: it
records the exception, its error code (0 for #SS, #GP, #AC; none for #UD, #NM), the address of a #PF, and rip. The state is
as it was before the instruction (R162). SAFE: the machine stops where the hardware would enter a handler (log 10). -/
inductive Fault where
  /-- #UD, vector 6: raised by an illegal encoding or an unavailable form (R151). Safe. -/
  | invalidOpcode (rip : Word)
  /-- #NM, vector 7: raised by every form when CR0.TS = 1 (R152). Safe. -/
  | deviceNotAvailable (rip : Word)
  /-- #SS(0), vector 12: raised by a non-canonical address through the stack segment (R154). Safe. -/
  | stackSegment (rip : Word)
  /-- #GP(0), vector 13: raised by a non-canonical address, or an instruction longer than 15 bytes (R153). Safe. -/
  | generalProtection (rip : Word)
  /-- #PF(code), vector 14, with the linear address CR2 would hold: raised where `Access` says so (R157). Safe. -/
  | pageFault (code : Nat) (address : Word) (rip : Word)
  /-- #AC(0), vector 17: one of two admitted outcomes of an unaligned operand when the check is enabled (R158). Safe. -/
  | alignmentCheck (rip : Word)
deriving DecidableEq, Repr

/-- Why the model gives a step no meaning. All are SAFE: the run is outside the model and nothing is claimed of it. -/
inductive Refusal where
  /-- Raised by an arm of `exec` whose instruction has no meaning yet; no arm does. Safe. -/
  | notModelled (mnemonic : String)
  /-- Raised by `step` where the decoder refuses the bytes at rip (30_encoding.md R92, R73, R74; D23, D28). Safe. -/
  | decoder (r : DecodeRefusal)
  /-- Raised by `step` and by every meaning in a mode other than 64-bit mode (00_scope.md R3, R4; D1). Safe. -/
  | modeOutOfScope
  /-- Raised by `step` for an instruction whose bytes are not all canonical addresses of one half of the address space, or
  for which rip + len overflows (10_state.md R25, D7). Safe. -/
  | ripOutOfRange
  /-- Raised by `step` when rip is at the end of the program text: the run has ended (70_reset_and_hazards.md R184). Safe. -/
  | endOfText
  /-- Raised by `step` when rip is elsewhere outside the program text (60_exceptions.md R160, D19). Safe. -/
  | outsideText
  /-- Raised by a store whose bytes overlap the program text (20_memory.md R62, D19). Safe. -/
  | storeIntoText
  /-- Raised by an access to a location `Access` refuses as no ordinary memory (20_memory.md R49, D17). Safe. -/
  | notOrdinaryMemory
  /-- Raised by an access to a location `Access` refuses as an alias (20_memory.md R58, D18). Safe. -/
  | aliasedAddress
deriving DecidableEq, Repr

/-- The operating modes the spec names (00_scope.md R3, R4); the machine is in 64-bit mode for a whole run (D1). -/
inductive Mode where
  | bits64
  | compatibility
  | legacyProtected
  | realAddress
  | virtual8086
deriving DecidableEq, Repr

/-- Memory: the bytes that are not 0, by linear address (10_state.md R31, 20_memory.md R40). -/
structure Memory where
  cells : List Host.Cell
deriving DecidableEq, Repr

/-- The range the program text occupies: base address B and length T (70_reset_and_hazards.md R184). Its bytes stand in
memory (20_memory.md R40). -/
structure TextRange where
  base : Word
  size : Nat
deriving DecidableEq, Repr

/-- The state of the one agent. -/
structure State where
  /-- V[0..31] (10_state.md R20 to R22). -/
  vregs : Vector Vec 32
  /-- K[0..7] (10_state.md R23). -/
  kregs : Vector Word 8
  /-- x[0..15] (10_state.md R24). -/
  gprs : Vector Word 16
  /-- The address of the next instruction's first byte (10_state.md R25). -/
  rip : Word
  /-- RFLAGS (10_state.md R26). -/
  rflags : Word
  /-- MXCSR (10_state.md R27). -/
  mxcsr : BitVec 32
  /-- CR0 (10_state.md R28). -/
  cr0 : Word
  /-- CR2, where the hardware records the address of a #PF (60_exceptions.md R150). -/
  cr2 : Word
  /-- CR4 (10_state.md R28). -/
  cr4 : Word
  /-- XCR0 (10_state.md R28). -/
  xcr0 : Word
  /-- The current privilege level (60_exceptions.md R167). -/
  cpl : BitVec 2
  /-- The operating mode (00_scope.md R5). -/
  mode : Mode
  /-- The selector in CS (10_state.md R30, 40_movupd_sse.md R114; no rule reads a selector, log 20). -/
  cs : BitVec 16
  /-- The selector in DS. -/
  ds : BitVec 16
  /-- The selector in ES. -/
  es : BitVec 16
  /-- The selector in SS. -/
  ss : BitVec 16
  /-- The selector in FS; the base it is used with is `fsBase`. -/
  fs : BitVec 16
  /-- The selector in GS; the base it is used with is `gsBase`. -/
  gs : BitVec 16
  /-- FS_BASE (10_state.md R30). -/
  fsBase : Word
  /-- GS_BASE (10_state.md R30). -/
  gsBase : Word
  /-- Memory (10_state.md R31). -/
  mem : Memory
  /-- The program text (10_state.md R33). -/
  text : TextRange
  /-- The parameters of 00_scope.md R5. -/
  cfg : Config
  /-- The model's own counter: which free choice the next step reads (log 7). -/
  choices : Nat
deriving DecidableEq, Repr

/-- Which parameter values the launch state has. DESIGN CHOICE (log 4): the spec leaves all of them open (00_scope.md R5);
`either` is the default it names (20_memory.md R48). -/
def launchConfig : Config :=
  { maxvl := .v512, hasSse2 := true, hasAvx := true, hasAvx512f := true, hasAvx512vl := true, kw := .k64, la := .la48
    suppression := .either, access := [] }

/-- The launch state of 10_state.md R35 and 70_reset_and_hazards.md R182, which stands for reset: the spec does not start a
run from reset (D9). CR4 and XCR0 hold the enabling values, the mode is 64-bit mode, no program is loaded. DESIGN CHOICE
(log 1 to 4) for every value the spec calls arbitrary: R34's orientation values, and 0 where it has none. PRESUMED (log 20)
for the selectors: the family's reset values. -/
def State.reset : State :=
  { vregs := Vector.replicate 32 0#512
    kregs := Vector.replicate 8 0#64
    gprs := Vector.replicate 16 0#64
    rip := 0xFFFFFFF0#64
    rflags := 0x2#64
    mxcsr := 0x1F80#32
    cr0 := 0x60000010#64
    cr2 := 0#64
    cr4 := 0x40200#64
    xcr0 := 0xE7#64
    cpl := 0#2
    mode := .bits64
    cs := 0xF000#16
    ds := 0#16
    es := 0#16
    ss := 0#16
    fs := 0#16
    gs := 0#16
    fsBase := 0#64
    gsBase := 0#64
    mem := { cells := [] }
    text := { base := 0xFFFFFFF0#64, size := 0 }
    cfg := launchConfig
    choices := 0 }

end Sys2Proof.Machine
end

