-- ==== Sys2Proof/Machine/Flags.lean ====
section
/-! DEFINITION. The control and status fields the instructions test (10_state.md R28) and the #UD conditions made of them
(60_exceptions.md R151). No instruction in scope writes a flag (10_state.md R26), so nothing here computes one. -/

namespace Sys2Proof.Machine

/-! ## Fields, by the bit numbers of 10_state.md R26 and R28 -/

def State.cr0Em (s : State) : Bool := s.cr0.getLsbD 2
def State.cr0Ts (s : State) : Bool := s.cr0.getLsbD 3
def State.cr0Am (s : State) : Bool := s.cr0.getLsbD 18
def State.cr4Osfxsr (s : State) : Bool := s.cr4.getLsbD 9
def State.cr4Osxsave (s : State) : Bool := s.cr4.getLsbD 18
def State.rflagsAc (s : State) : Bool := s.rflags.getLsbD 18

/-- XCR0[2:1] = 11: SSE and AVX state both enabled (60_exceptions.md R151). -/
def State.xcr0Avx (s : State) : Bool := s.xcr0.getLsbD 1 && s.xcr0.getLsbD 2

/-- XCR0[7:5] = 111: opmask, ZMM_Hi256 and Hi16_ZMM state all enabled (60_exceptions.md R151). -/
def State.xcr0Avx512 (s : State) : Bool := s.xcr0.getLsbD 5 && s.xcr0.getLsbD 6 && s.xcr0.getLsbD 7

/-- Alignment checking is enabled: CR0.AM = 1, RFLAGS.AC = 1 and CPL = 3 (20_memory.md R45). -/
def State.acEnabled (s : State) : Bool := s.cr0Am && s.rflagsAc && s.cpl == 3#2

/-! ## Availability: the columns of the table of 60_exceptions.md R151 that depend on the state -/

/-- Legacy SSE: HAS_SSE2, CR0.EM = 0, CR4.OSFXSR = 1 (30_encoding.md R93, 60_exceptions.md R151). -/
def State.sseAvailable (s : State) : Bool := s.cfg.hasSse2 && !s.cr0Em && s.cr4Osfxsr

/-- VEX: HAS_AVX, CR4.OSXSAVE = 1, XCR0[2:1] = 11. -/
def State.vexAvailable (s : State) : Bool := s.cfg.hasAvx && s.cr4Osxsave && s.xcr0Avx

/-- EVEX with VL = 512: HAS_AVX512F, CR4.OSXSAVE = 1, XCR0[2:1] = 11, XCR0[7:5] = 111. -/
def State.evex512Available (s : State) : Bool :=
  s.cfg.hasAvx512f && s.cr4Osxsave && s.xcr0Avx && s.xcr0Avx512

/-- EVEX with VL = 128 or 256: HAS_AVX512VL as well (00_scope.md R2, 30_encoding.md R93). -/
def State.evexVlAvailable (s : State) : Bool := s.cfg.hasAvx512vl && s.evex512Available

end Sys2Proof.Machine
end

