-- ==== Sys2Proof/Machine/Ops.lean ====
section
/-! DEFINITION. The named operations over registers and memory, the choice among admitted outcomes, and taking an
exception. Every meaning is made of these. -/

namespace Sys2Proof.Machine

/-- What one instruction comes to. -/
abbrev Result := Host.Outcome State Fault Refusal

/-- Why an instruction ends without a next state. -/
inductive Stop where
  | fault (f : Fault)
  | refuse (r : Refusal)
deriving DecidableEq, Repr

def Stop.outcome : Stop → Result
  | .fault f => .fault f
  | .refuse r => .refused r

/-! ## Taking an exception -/

/-- The exceptions of 60_exceptions.md R150 with what each records besides rip. -/
inductive Exception where
  | ud
  | nm
  | ss
  | gp
  | pf (code : Nat) (address : Word)
  | ac
deriving DecidableEq, Repr

/-- `raise` of 60_exceptions.md R163: the step ends in the terminal fault that records the exception and rip. Nothing of the
state changes (R162). There is no return from it (R164). -/
def raise (s : State) : Exception → Stop
  | .ud => .fault (.invalidOpcode s.rip)
  | .nm => .fault (.deviceNotAvailable s.rip)
  | .ss => .fault (.stackSegment s.rip)
  | .gp => .fault (.generalProtection s.rip)
  | .pf code address => .fault (.pageFault code address s.rip)
  | .ac => .fault (.alignmentCheck s.rip)

/-- The vector numbers of 60_exceptions.md R150. -/
def Fault.vector : Fault → Nat
  | .invalidOpcode _ => 6
  | .deviceNotAvailable _ => 7
  | .stackSegment _ => 12
  | .generalProtection _ => 13
  | .pageFault _ _ _ => 14
  | .alignmentCheck _ => 17

/-- The error codes of 60_exceptions.md R150: none for #UD and #NM, 0 for #SS, #GP and #AC, the oracle's for #PF. -/
def Fault.errorCode : Fault → Option Nat
  | .invalidOpcode _ => none
  | .deviceNotAvailable _ => none
  | .stackSegment _ => some 0
  | .generalProtection _ => some 0
  | .pageFault code _ _ => some code
  | .alignmentCheck _ => some 0

/-- The instruction pointer a fault reports: the first byte of the faulting instruction (10_state.md R25). -/
def Fault.rip : Fault → Word
  | .invalidOpcode r => r
  | .deviceNotAvailable r => r
  | .stackSegment r => r
  | .generalProtection r => r
  | .pageFault _ _ r => r
  | .alignmentCheck r => r

/-! ## The choice among admitted outcomes -/

/-- The list without repeats. -/
def distinct : List Stop → List Stop
  | [] => []
  | x :: xs => if x ∈ distinct xs then distinct xs else x :: distinct xs

/-- One of `d :: xs`, the one the choice `c` names; where there is no alternative the choice is not consulted. -/
def pickFrom (c : Nat) (d : Option Stop) : List Stop → Option Stop
  | [] => d
  | x :: xs => (d :: (x :: xs).map some).getD (c % (xs.length + 2)) d

/-- The outcome of a level of checks (60_exceptions.md R161): where `must` holds a stop, any stop of `must` or `may` is
admitted; where it holds none, going on is admitted, and so is any stop of `may` (20_memory.md R45, R48). -/
def choose (c : Nat) (must may : List Stop) : Option Stop :=
  match must with
  | [] => pickFrom c none (distinct may)
  | m :: ms => pickFrom c (some m) (distinct ((ms ++ may).filter (· ≠ m)))

/-! ## Before the operation -/

/-- Steps 1 and 2 of 40_movupd_sse.md R110: level 1, #UD (any cause of R151, `ud`) or #GP(0) for a length above 15, either
where both apply; then #NM. The model is in 64-bit mode (D1): another mode is refused, but where R151 names the mode, real-address or
virtual-8086 for a VEX or EVEX form (`vexLike`), the form raises #UD. -/
def front (s : State) (vexLike ud : Bool) (len : Nat) : Option Stop :=
  match s.mode with
  | .bits64 =>
    match choose (Config.freeChoice s.choices)
      ((if ud then [raise s .ud] else []) ++ (if 15 < len then [raise s .gp] else [])) [] with
    | some st => some st
    | none => if s.cr0Ts then some (raise s .nm) else none
  | .realAddress => if vexLike then some (raise s .ud) else some (.refuse .modeOutOfScope)
  | .virtual8086 => if vexLike then some (raise s .ud) else some (.refuse .modeOutOfScope)
  | .compatibility => some (.refuse .modeOutOfScope)
  | .legacyProtected => some (.refuse .modeOutOfScope)

/-- Goes on with `k` where `front` finds nothing. -/
def guarded (s : State) (vexLike ud : Bool) (len : Nat) (k : Result) : Result :=
  match front s vexLike ud len with
  | some st => st.outcome
  | none => k

/-- Step 5 of 40_movupd_sse.md R110: rip advances past the instruction (10_state.md R25). The model's choice counter moves
on with it. -/
def State.advance (s : State) (len : Nat) : State :=
  { s with rip := s.rip + BitVec.ofNat 64 len, choices := s.choices + 1 }

/-! ## Registers -/

/-- Ones in bits n-1:0 of a vector. -/
def lowMask (n : Nat) : Vec := BitVec.allOnes 512 >>> (512 - n)

/-- V[n] (10_state.md R20). -/
def State.v (s : State) (n : BitVec 5) : Vec := s.vregs[n.toNat]'n.isLt

/-- V[n] <- x: the register has MAXVL bits (10_state.md R20, R21). -/
def State.setV (s : State) (n : BitVec 5) (x : Vec) : State :=
  { s with vregs := s.vregs.set n.toNat (x &&& lowMask s.cfg.maxvl.bits) n.isLt }

/-- K[n] (10_state.md R23). -/
def State.k (s : State) (n : BitVec 3) : Word := s.kregs[n.toNat]'n.isLt

/-- x[n] (10_state.md R24). -/
def State.x (s : State) (n : BitVec 4) : Word := s.gprs[n.toNat]'n.isLt

/-- enabled(j) of 42_vmovupd_evex.md R131: aaa = 000 is "no writemask". -/
def State.enabled (s : State) (aaa : BitVec 3) (j : Nat) : Bool := aaa == 0#3 || (s.k aaa).getLsbD j

/-- Every element: the forms without a writemask. -/
def everyElement (_ : Nat) : Bool := true

/-! ## What a destination register becomes -/

/-- DEST[vl-1:0] := SRC[vl-1:0], DEST[MAXVL-1:vl] (Unmodified) (40_movupd_sse.md R112). -/
def keepUpper (vl : Nat) (old src : Vec) : Vec := (old &&& ~~~ (lowMask vl)) ||| (src &&& lowMask vl)

/-- DEST[vl-1:0] := SRC[vl-1:0], DEST[MAXVL-1:vl] := 0 (41_vmovupd_vex.md R121, R123). -/
def zeroUpper (vl : Nat) (src : Vec) : Vec := src &&& lowMask vl

/-- Element j, bits 64j+63:64j (42_vmovupd_evex.md R130). -/
def element (x : Vec) (j : Nat) : Word := x.extractLsb' (64 * j) 64

/-- The new element j of 42_vmovupd_evex.md R133: enabled, the source's; else the old one under merging-masking and 0 under
zeroing-masking. -/
def maskedElement (old src : Vec) (en : Nat → Bool) (z : Bool) (j : Nat) : Word :=
  if en j then element src j else if z then 0#64 else element old j

/-- `EvexToReg` of 42_vmovupd_evex.md R133: elements 0 to kl-1, and 0 in every bit above them. -/
def evexMerge (old src : Vec) (en : Nat → Bool) (z : Bool) : Nat → Vec
  | 0 => 0#512
  | j + 1 => evexMerge old src en z j ||| ((maskedElement old src en z j).setWidth 512 <<< (64 * j))

/-! ## Memory -/

def readCell : List Host.Cell → Nat → Byte
  | [], _ => 0#8
  | (k, b) :: cs, a => if k = a then b else readCell cs a

def insertCell (a : Nat) (b : Byte) : List Host.Cell → List Host.Cell
  | [] => [(a, b)]
  | (k, c) :: cs => if a < k then (a, b) :: (k, c) :: cs else (k, c) :: insertCell a b cs

/-- Mem[a]; an address that is not listed reads 0 (log 1). -/
def Memory.read (m : Memory) (a : Nat) : Byte := readCell m.cells a

/-- Mem[a] <- b, in the canonical form: writing 0 removes the entry. -/
def Memory.write (m : Memory) (a : Nat) (b : Byte) : Memory :=
  if b = 0#8 then { cells := m.cells.filter fun c => c.1 ≠ a }
  else { cells := insertCell a b (m.cells.filter fun c => c.1 ≠ a) }

/-- The canonical form: addresses strictly rising, no entry equal to what an unlisted address reads as. -/
def Memory.wf (m : Memory) : Bool :=
  decide ((m.cells.map Prod.fst).Pairwise (· < ·)) && m.cells.all fun c => c.2 != 0#8

/-- `MemRead` of 20_memory.md R42 for the elements `en` enables: byte a + k stands at bits 8k+7:8k (little-endian, R41). The
bytes of other elements are not read (R48) and give 0. -/
def loadBytes (m : Memory) (a : Nat) (en : Nat → Bool) : Nat → Vec
  | 0 => 0#512
  | n + 1 =>
    loadBytes m a en n ||| if en (n / 8) then (m.read (a + n)).setWidth 512 <<< (8 * n) else 0#512

/-- `MemWrite` of 20_memory.md R42 for the elements `en` enables; the bytes of other elements are not written (R48). -/
def storeBytes (m : Memory) (a : Nat) (en : Nat → Bool) (x : Vec) : Nat → Memory
  | 0 => m
  | n + 1 =>
    if en (n / 8) then (storeBytes m a en x n).write (a + n) (x.extractLsb' (8 * n) 8) else storeBytes m a en x n

/-! ## Access checks -/

/-- A memory operand's access: its linear address EA, whether it uses the stack segment (20_memory.md R56), and its size in
bytes. -/
structure MemRef where
  ea : Word
  stack : Bool
  size : Nat
deriving DecidableEq, Repr

/-- Bits 63 to LA-1 of a linear address are all equal, and the address does not exceed 2^64 - 1 (20_memory.md R55). -/
def canonical (la : LinearBits) (a : Nat) : Bool :=
  decide (a < 2 ^ (la.bits - 1)) || (decide (2 ^ 64 - 2 ^ (la.bits - 1) ≤ a) && decide (a < 2 ^ 64))

/-- `Access(a, kind)` of 20_memory.md R58 for a canonical address. -/
def accessAt : List AccessRegion → AccessKind → Nat → AccessResult
  | [], _, _ => .ok
  | r :: rs, kind, a =>
    if r.base ≤ a ∧ a < r.base + r.size then
      match kind with
      | .read => r.read
      | .write => r.write
    else accessAt rs kind a

/-- The check of one byte of an access (20_memory.md R42, R55, R56, R58). -/
def accessStop (s : State) (kind : AccessKind) (stack : Bool) (a : Nat) : Option Stop :=
  if canonical s.cfg.la a then
    match accessAt s.cfg.access kind a with
    | .ok => none
    | .pageFault code => some (raise s (.pf code (BitVec.ofNat 64 a)))
    | .notOrdinary => some (.refuse .notOrdinaryMemory)
    | .aliased => some (.refuse .aliasedAddress)
  else some (raise s (if stack then .ss else .gp))

/-- The failed checks of the bytes of the elements that `sel` selects. -/
def failures (s : State) (kind : AccessKind) (r : MemRef) (sel : Nat → Bool) : List Stop :=
  ((List.range r.size).filter fun k => sel (k / 8)).filterMap fun k => accessStop s kind r.stack (r.ea.toNat + k)

/-- What an access may raise and need not: #AC of an unaligned operand where the check is enabled (20_memory.md R45), and the
failures of masked-off elements under FAULT_SUPPRESSION = `either` (R48). -/
def optionalFailures (s : State) (kind : AccessKind) (r : MemRef) (en : Nat → Bool) : List Stop :=
  (if s.acEnabled && r.ea.toNat % r.size != 0 then [raise s .ac] else [])
    ++ match s.cfg.suppression with
      | .suppressed => []
      | .either => failures s kind r fun j => !en j

/-- Level 3 of 60_exceptions.md R161, step 3 of 40_movupd_sse.md R110. -/
def memStop (s : State) (kind : AccessKind) (r : MemRef) (en : Nat → Bool) : Option Stop :=
  choose (Config.freeChoice s.choices) (failures s kind r en) (optionalFailures s kind r en)

/-- An address of the program text. -/
def TextRange.has (t : TextRange) (a : Nat) : Bool := decide (t.base.toNat ≤ a) && decide (a < t.base.toNat + t.size)

/-- A store to r writes a byte of the program text (20_memory.md R62). -/
def overlapsText (s : State) (r : MemRef) (en : Nat → Bool) : Bool :=
  (List.range r.size).any fun k => en (k / 8) && s.text.has (r.ea.toNat + k)

/-- A load: every check, then the read. -/
def load (s : State) (r : MemRef) (en : Nat → Bool) : Except Stop Vec :=
  match memStop s .read r en with
  | some st => .error st
  | none => .ok (loadBytes s.mem r.ea.toNat en r.size)

/-- A store: every check before the first byte is written (20_memory.md R42, R47), the refusal of a store into the text
(R62), then the write. -/
def store (s : State) (r : MemRef) (en : Nat → Bool) (x : Vec) : Except Stop State :=
  match memStop s .write r en with
  | some st => .error st
  | none =>
    if overlapsText s r en then .error (.refuse .storeIntoText)
    else .ok { s with mem := storeBytes s.mem r.ea.toNat en x r.size }

/-! ## Completing -/

/-- Writes V[d] from a source value and completes. -/
def toReg (s : State) (len : Nat) (d : BitVec 5) (upd : Vec → Vec) : Except Stop Vec → Result
  | .error st => st.outcome
  | .ok x => .next ((s.setV d (upd x)).advance len)

/-- Completes a store. -/
def toMem (len : Nat) : Except Stop State → Result
  | .error st => st.outcome
  | .ok t => .next (t.advance len)

end Sys2Proof.Machine
end

