-- ==== Sys2Proof/Machine/Operands.lean ====
section
/-! DEFINITION. The operand forms: register numbers (30_encoding.md R84), instruction length (R89), memory operands and the
effective address (20_memory.md R51 to R57). -/

namespace Sys2Proof.Machine

/-! ## Register numbers -/

/-- The true extension bits of 30_encoding.md R84: R' and R for ModRM.reg, X for SIB.index, B for ModRM.rm and for the base,
and bit 4 of an r/m vector register (X in an EVEX form, 0 elsewhere). -/
structure Ext where
  rHi : Bool
  r : Bool
  x : Bool
  b : Bool
  rmHi : Bool
deriving DecidableEq, Repr

def Ext.none : Ext := { rHi := false, r := false, x := false, b := false, rmHi := false }

def Ext.ofRex (x : Rex) : Ext := { rHi := false, r := x.r, x := x.x, b := x.b, rmHi := false }

def Ext.ofVex2 (v : Vex2) : Ext := { rHi := false, r := v.r, x := false, b := false, rmHi := false }

def Ext.ofVex3 (v : Vex3) : Ext := { rHi := false, r := v.r, x := v.x, b := v.b, rmHi := false }

def Ext.ofEvex (e : Evex) : Ext := { rHi := e.rHi, r := e.r, x := e.x, b := e.b, rmHi := e.x }

/-- The vector register ModRM.reg names: R':R:reg. -/
def Ext.regNum (e : Ext) (reg : BitVec 3) : BitVec 5 := BitVec.ofBool e.rHi ++ BitVec.ofBool e.r ++ reg

/-- The vector register ModRM.rm names when mod = 11: B:rm, or X:B:rm in an EVEX form. -/
def Ext.rmNum (e : Ext) (rm : BitVec 3) : BitVec 5 := BitVec.ofBool e.rmHi ++ BitVec.ofBool e.b ++ rm

/-- The general register of a base field: B:rm or B:base. -/
def Ext.baseNum (e : Ext) (base : BitVec 3) : BitVec 4 := BitVec.ofBool e.b ++ base

/-- The general register of SIB.index, X:index; number 4 is no index (30_encoding.md R86). -/
def Ext.indexNum (e : Ext) (index : BitVec 3) : Option (BitVec 4) :=
  if BitVec.ofBool e.x ++ index = 4#4 then .none else some (BitVec.ofBool e.x ++ index)

/-! ## Length -/

def Disp.size : Disp → Nat
  | .none => 0
  | .d8 _ => 1
  | .d32 _ => 4

/-- ModRM, SIB and displacement bytes (30_encoding.md R89). -/
def RmOperand.size : RmOperand → Nat
  | .reg _ => 1
  | .mem (.ripRel _) => 1 + 4
  | .mem (.base _ d) => 1 + Disp.size d
  | .mem (.sib _ _ _ d) => 1 + 1 + Disp.size d
  | .mem (.sibNoBase _ _ _) => 1 + 1 + 4

def rexSize : Option Rex → Nat
  | .none => 0
  | some _ => 1

/-! ## What a meaning needs of its encoding -/

/-- The prefixes, the extension bits, the length, and the factor N of an 8-bit displacement (1 but for EVEX forms). -/
structure Enc where
  p : List LegacyPrefix
  ext : Ext
  len : Nat
  n : Nat
deriving DecidableEq, Repr

/-- Legacy SSE: prefixes, REX, `0F`, opcode, ModRM and what follows (30_encoding.md R89). -/
def Enc.sse (p : List LegacyPrefix) (rm : RmOperand) : Enc :=
  { p := p, ext := Ext.none, len := p.length + 2 + RmOperand.size rm, n := 1 }

def Enc.sseRex (p : List LegacyPrefix) (x : Rex) (rm : RmOperand) : Enc :=
  { p := p, ext := Ext.ofRex x, len := p.length + 1 + 2 + RmOperand.size rm, n := 1 }

/-- 2-byte VEX: 2 + 1 bytes before ModRM (30_encoding.md R89). -/
def Enc.vex2 (p : List LegacyPrefix) (rex : Option Rex) (v : Vex2) (rm : RmOperand) : Enc :=
  { p := p, ext := Ext.ofVex2 v, len := p.length + rexSize rex + 3 + RmOperand.size rm, n := 1 }

/-- 3-byte VEX: 3 + 1 bytes before ModRM (30_encoding.md R89). -/
def Enc.vex3 (p : List LegacyPrefix) (rex : Option Rex) (v : Vex3) (rm : RmOperand) : Enc :=
  { p := p, ext := Ext.ofVex3 v, len := p.length + rexSize rex + 4 + RmOperand.size rm, n := 1 }

/-- The length of an EVEX form: 4 + 1 bytes before ModRM (30_encoding.md R89). -/
def evexLength (p : List LegacyPrefix) (rex : Option Rex) (rm : RmOperand) : Nat :=
  p.length + rexSize rex + 5 + RmOperand.size rm

/-- EVEX with vector length `vl`: N is the operand's size in bytes, tuple type Full Mem (30_encoding.md R88). -/
def Enc.evex (p : List LegacyPrefix) (rex : Option Rex) (e : Evex) (rm : RmOperand) (vl : Nat) : Enc :=
  { p := p, ext := Ext.ofEvex e, len := evexLength p rex rm, n := vl / 8 }

/-! ## The memory operand -/

/-- The two segments whose base an override adds (20_memory.md R53). -/
inductive FsGs where
  | fs
  | gs
deriving DecidableEq, Repr

/-- The FS or GS override of a prefix; the other overrides are ignored (20_memory.md R53). -/
def fsGsOf : LegacyPrefix → Option FsGs
  | .seg .fs => some .fs
  | .seg .gs => some .gs
  | _ => .none

/-- The override in force: the last prefix that is FS or GS (20_memory.md R53; the decoder admits one at most). -/
def segmentOf (p : List LegacyPrefix) : Option FsGs := p.reverse.findSome? fsGsOf

/-- A memory operand as 20_memory.md R51 lists its components; the scale is 2^ss. -/
structure MemOperand where
  base : Option (BitVec 4)
  index : Option (BitVec 4)
  ss : BitVec 2
  disp : Word
  riprel : Bool
  addr32 : Bool
  seg : Option FsGs
deriving DecidableEq, Repr

/-- The displacement, sign-extended to 64 bits; an 8-bit one times N (30_encoding.md R87, R88). -/
def Disp.value (n : Nat) : Disp → Word
  | .none => 0#64
  | .d8 v => v.signExtend 64 * BitVec.ofNat 64 n
  | .d32 v => v.signExtend 64

/-- The components an encoding names (30_encoding.md R84 to R88). -/
def Enc.operand (c : Enc) : AddrForm → MemOperand
  | .ripRel d =>
    { base := .none, index := .none, ss := 0#2, disp := d.signExtend 64, riprel := true
      addr32 := c.p.contains .addrsize, seg := segmentOf c.p }
  | .base rm d =>
    { base := some (c.ext.baseNum rm), index := .none, ss := 0#2, disp := Disp.value c.n d, riprel := false
      addr32 := c.p.contains .addrsize, seg := segmentOf c.p }
  | .sib ss i b d =>
    { base := some (c.ext.baseNum b), index := c.ext.indexNum i, ss := ss, disp := Disp.value c.n d, riprel := false
      addr32 := c.p.contains .addrsize, seg := segmentOf c.p }
  | .sibNoBase ss i d =>
    { base := .none, index := c.ext.indexNum i, ss := ss, disp := d.signExtend 64, riprel := false
      addr32 := c.p.contains .addrsize, seg := segmentOf c.p }

/-- x[n], or 0 where the component is absent. -/
def State.optionalX (s : State) : Option (BitVec 4) → Word
  | .none => 0#64
  | some n => s.x n

/-- The offset before the address size is applied (20_memory.md R52, R54, R57). -/
def State.fullOffset (s : State) (len : Nat) (m : MemOperand) : Word :=
  if m.riprel then s.rip + BitVec.ofNat 64 len + m.disp
  else s.optionalX m.base + (s.optionalX m.index <<< m.ss.toNat) + m.disp

/-- The base an override adds; 0 for CS, DS, ES and SS (20_memory.md R52, 10_state.md R30). -/
def State.segBase (s : State) : Option FsGs → Word
  | .none => 0#64
  | some .fs => s.fsBase
  | some .gs => s.gsBase

/-- EA (20_memory.md R52): the offset modulo 2^A, zero-extended, plus the segment base, modulo 2^64. -/
def State.effectiveAddress (s : State) (len : Nat) (m : MemOperand) : Word :=
  s.segBase m.seg + if m.addr32 then ((s.fullOffset len m).setWidth 32).setWidth 64 else s.fullOffset len m

/-- The operand uses the stack segment: no FS or GS override, base register 4 or 5 (20_memory.md R56). -/
def MemOperand.usesStack (m : MemOperand) : Bool :=
  m.seg.isNone && (m.base == some 4#4 || m.base == some 5#4)

/-- The access of a memory operand of `size` bytes. -/
def Enc.memRef (c : Enc) (s : State) (size : Nat) (a : AddrForm) : MemRef :=
  { ea := s.effectiveAddress c.len (c.operand a), stack := (c.operand a).usesStack, size := size }

/-- The source value of an r/m operand: a vector register, or `size` bytes of memory (30_encoding.md R82, R83). -/
def Enc.rmSource (c : Enc) (s : State) (size : Nat) (en : Nat → Bool) : RmOperand → Except Stop Vec
  | .reg rm => .ok (s.v (c.ext.rmNum rm))
  | .mem a => load s (c.memRef s size a) en

end Sys2Proof.Machine
end

