-- ==== Sys2Proof/Machine/Evex.lean ====
section
/-! DEFINITION. The EVEX-encoded forms (42_vmovupd_evex.md): VMOVUPD with writemask, rows 7 to 12. -/

namespace Sys2Proof.Machine

/-- The CPUID flags and enables of an EVEX form of vector length vl (42_vmovupd_evex.md R141). -/
def State.evexAvailable (s : State) (vl : Nat) : Bool := if vl = 512 then s.evex512Available else s.evexVlAvailable

/-- `EvexToReg` (42_vmovupd_evex.md R133) with KL = vl / 64: the enabled elements from the source, the others kept or zeroed,
and bits MAXVL-1:vl zero in every case. -/
def evexToReg (vl : Nat) (e : Evex) (s : State) (d : BitVec 5) (src : Vec) : Vec :=
  evexMerge (s.v d) src (s.enabled e.aaa) e.z (vl / 64)

/-- An EVEX form whose destination is ModRM:reg (42_vmovupd_evex.md R135, R137, R139). -/
def evexRegRm (vl : Nat) (p : List LegacyPrefix) (rex : Option Rex) (e : Evex) (reg : BitVec 3) (rm : RmOperand)
    (s : State) : Result :=
  let c := Enc.evex p rex e rm vl
  guarded s true (!evexLegal p rex e || !s.evexAvailable vl) c.len
    (toReg s c.len (c.ext.regNum reg) (evexToReg vl e s (c.ext.regNum reg))
      (c.rmSource s (vl / 8) (s.enabled e.aaa) rm))

/-- An EVEX form whose destination is ModRM:r/m (42_vmovupd_evex.md R136, R138, R140): a register destination as above; a
memory destination takes the enabled elements (`EvexToMem`, R134), and z = 1 with it raises #UD (decision D14). -/
def evexRmReg (vl : Nat) (p : List LegacyPrefix) (rex : Option Rex) (e : Evex) (reg : BitVec 3) (rm : RmOperand)
    (s : State) : Result :=
  let c := Enc.evex p rex e rm vl
  guarded s true (!evexLegal p rex e || !evexRmDestLegal e rm || !s.evexAvailable vl) c.len
    (match rm with
    | .reg d => toReg s c.len (c.ext.rmNum d) (evexToReg vl e s (c.ext.rmNum d)) (.ok (s.v (c.ext.regNum reg)))
    | .mem a => toMem c.len (store s (c.memRef s (vl / 8) a) (s.enabled e.aaa) (s.v (c.ext.regNum reg))))

/-- Row 7, VMOVUPD xmm1 {k1}{z}, xmm2/m128 (R135). -/
def execEvexMov128RegRm (p : List LegacyPrefix) (rex : Option Rex) (e : Evex) (reg : BitVec 3) (rm : RmOperand)
    (s : State) : Result :=
  evexRegRm 128 p rex e reg rm s

/-- Row 8, VMOVUPD xmm2/m128 {k1}{z}, xmm1 (R136). -/
def execEvexMov128RmReg (p : List LegacyPrefix) (rex : Option Rex) (e : Evex) (reg : BitVec 3) (rm : RmOperand)
    (s : State) : Result :=
  evexRmReg 128 p rex e reg rm s

/-- Row 9, VMOVUPD ymm1 {k1}{z}, ymm2/m256 (R137). -/
def execEvexMov256RegRm (p : List LegacyPrefix) (rex : Option Rex) (e : Evex) (reg : BitVec 3) (rm : RmOperand)
    (s : State) : Result :=
  evexRegRm 256 p rex e reg rm s

/-- Row 10, VMOVUPD ymm2/m256 {k1}{z}, ymm1 (R138). -/
def execEvexMov256RmReg (p : List LegacyPrefix) (rex : Option Rex) (e : Evex) (reg : BitVec 3) (rm : RmOperand)
    (s : State) : Result :=
  evexRmReg 256 p rex e reg rm s

/-- Row 11, VMOVUPD zmm1 {k1}{z}, zmm2/m512 (R139). -/
def execEvexMov512RegRm (p : List LegacyPrefix) (rex : Option Rex) (e : Evex) (reg : BitVec 3) (rm : RmOperand)
    (s : State) : Result :=
  evexRegRm 512 p rex e reg rm s

/-- Row 12, VMOVUPD zmm2/m512 {k1}{z}, zmm1 (R140). -/
def execEvexMov512RmReg (p : List LegacyPrefix) (rex : Option Rex) (e : Evex) (reg : BitVec 3) (rm : RmOperand)
    (s : State) : Result :=
  evexRmReg 512 p rex e reg rm s

end Sys2Proof.Machine
end

