-- ==== Sys2Proof/Machine/Sse.lean ====
section
/-! DEFINITION. The legacy SSE forms (40_movupd_sse.md): MOVUPD, rows 1 and 2. -/

namespace Sys2Proof.Machine

/-- 40_movupd_sse.md R112: V[n][127:0] <- src, V[n][MAXVL-1:128] keeps its value. -/
def sseRegRm (c : Enc) (reg : BitVec 3) (rm : RmOperand) (s : State) : Result :=
  guarded s false (!sseLegal c.p || !s.sseAvailable) c.len
    (toReg s c.len (c.ext.regNum reg) (keepUpper 128 (s.v (c.ext.regNum reg))) (c.rmSource s 16 everyElement rm))

/-- 40_movupd_sse.md R113: a register destination as R112; a memory destination takes 16 bytes. -/
def sseRmReg (c : Enc) (reg : BitVec 3) (rm : RmOperand) (s : State) : Result :=
  guarded s false (!sseLegal c.p || !s.sseAvailable) c.len
    (match rm with
    | .reg d =>
      toReg s c.len (c.ext.rmNum d) (keepUpper 128 (s.v (c.ext.rmNum d))) (.ok (s.v (c.ext.regNum reg)))
    | .mem a => toMem c.len (store s (c.memRef s 16 a) everyElement (s.v (c.ext.regNum reg))))

/-- Row 1, MOVUPD xmm1, xmm2/m128 (R112). -/
def execMovupdRegRm (p : List LegacyPrefix) (reg : BitVec 3) (rm : RmOperand) (s : State) : Result :=
  sseRegRm (Enc.sse p rm) reg rm s

/-- Row 1 with REX (R112, 30_encoding.md R74): W is ignored. -/
def execMovupdRegRmRex (p : List LegacyPrefix) (x : Rex) (reg : BitVec 3) (rm : RmOperand) (s : State) : Result :=
  sseRegRm (Enc.sseRex p x rm) reg rm s

/-- Row 2, MOVUPD xmm2/m128, xmm1 (R113). -/
def execMovupdRmReg (p : List LegacyPrefix) (reg : BitVec 3) (rm : RmOperand) (s : State) : Result :=
  sseRmReg (Enc.sse p rm) reg rm s

/-- Row 2 with REX (R113, 30_encoding.md R74): W is ignored. -/
def execMovupdRmRegRex (p : List LegacyPrefix) (x : Rex) (reg : BitVec 3) (rm : RmOperand) (s : State) : Result :=
  sseRmReg (Enc.sseRex p x rm) reg rm s

end Sys2Proof.Machine
end

