-- ==== Sys2Proof/Machine/Vex.lean ====
section
/-! DEFINITION. The VEX-encoded forms (41_vmovupd_vex.md): VMOVUPD, rows 3 to 6. -/

namespace Sys2Proof.Machine

/-- A VEX form whose destination is ModRM:reg (41_vmovupd_vex.md R121, R123): V[n] <- zext_MAXVL(src). `legal` is the
encoding's legality, vvvv = 1111 in it (R120). -/
def vexRegRm (vl : Nat) (c : Enc) (legal : Bool) (reg : BitVec 3) (rm : RmOperand) (s : State) : Result :=
  guarded s true (!legal || !s.vexAvailable) c.len
    (toReg s c.len (c.ext.regNum reg) (zeroUpper vl) (c.rmSource s (vl / 8) everyElement rm))

/-- A VEX form whose destination is ModRM:r/m (41_vmovupd_vex.md R122, R124): a register destination is zero-extended, a
memory destination takes vl / 8 bytes and nothing else (90_conflicts.md C4). -/
def vexRmReg (vl : Nat) (c : Enc) (legal : Bool) (reg : BitVec 3) (rm : RmOperand) (s : State) : Result :=
  guarded s true (!legal || !s.vexAvailable) c.len
    (match rm with
    | .reg d => toReg s c.len (c.ext.rmNum d) (zeroUpper vl) (.ok (s.v (c.ext.regNum reg)))
    | .mem a => toMem c.len (store s (c.memRef s (vl / 8) a) everyElement (s.v (c.ext.regNum reg))))

/-- Row 3, VMOVUPD xmm1, xmm2/m128, 2-byte VEX (R121). -/
def execVex2Mov128RegRm (p : List LegacyPrefix) (rex : Option Rex) (v : Vex2) (reg : BitVec 3) (rm : RmOperand)
    (s : State) : Result :=
  vexRegRm 128 (Enc.vex2 p rex v rm) (vexLegal p rex v.vvvv) reg rm s

/-- Row 3, VMOVUPD xmm1, xmm2/m128, 3-byte VEX (R121); W is ignored. -/
def execVex3Mov128RegRm (p : List LegacyPrefix) (rex : Option Rex) (v : Vex3) (reg : BitVec 3) (rm : RmOperand)
    (s : State) : Result :=
  vexRegRm 128 (Enc.vex3 p rex v rm) (vexLegal p rex v.vvvv) reg rm s

/-- Row 4, VMOVUPD xmm2/m128, xmm1, 2-byte VEX (R122). -/
def execVex2Mov128RmReg (p : List LegacyPrefix) (rex : Option Rex) (v : Vex2) (reg : BitVec 3) (rm : RmOperand)
    (s : State) : Result :=
  vexRmReg 128 (Enc.vex2 p rex v rm) (vexLegal p rex v.vvvv) reg rm s

/-- Row 4, VMOVUPD xmm2/m128, xmm1, 3-byte VEX (R122); W is ignored. -/
def execVex3Mov128RmReg (p : List LegacyPrefix) (rex : Option Rex) (v : Vex3) (reg : BitVec 3) (rm : RmOperand)
    (s : State) : Result :=
  vexRmReg 128 (Enc.vex3 p rex v rm) (vexLegal p rex v.vvvv) reg rm s

/-- Row 5, VMOVUPD ymm1, ymm2/m256, 2-byte VEX (R123). -/
def execVex2Mov256RegRm (p : List LegacyPrefix) (rex : Option Rex) (v : Vex2) (reg : BitVec 3) (rm : RmOperand)
    (s : State) : Result :=
  vexRegRm 256 (Enc.vex2 p rex v rm) (vexLegal p rex v.vvvv) reg rm s

/-- Row 5, VMOVUPD ymm1, ymm2/m256, 3-byte VEX (R123); W is ignored. -/
def execVex3Mov256RegRm (p : List LegacyPrefix) (rex : Option Rex) (v : Vex3) (reg : BitVec 3) (rm : RmOperand)
    (s : State) : Result :=
  vexRegRm 256 (Enc.vex3 p rex v rm) (vexLegal p rex v.vvvv) reg rm s

/-- Row 6, VMOVUPD ymm2/m256, ymm1, 2-byte VEX (R124). -/
def execVex2Mov256RmReg (p : List LegacyPrefix) (rex : Option Rex) (v : Vex2) (reg : BitVec 3) (rm : RmOperand)
    (s : State) : Result :=
  vexRmReg 256 (Enc.vex2 p rex v rm) (vexLegal p rex v.vvvv) reg rm s

/-- Row 6, VMOVUPD ymm2/m256, ymm1, 3-byte VEX (R124); W is ignored. -/
def execVex3Mov256RmReg (p : List LegacyPrefix) (rex : Option Rex) (v : Vex3) (reg : BitVec 3) (rm : RmOperand)
    (s : State) : Result :=
  vexRmReg 256 (Enc.vex3 p rex v rm) (vexLegal p rex v.vvvv) reg rm s

end Sys2Proof.Machine
end

