-- ==== Sys2Proof/Machine/Dispatch.lean ====
section
/-! DEFINITION. Which meaning each instruction has. -/

namespace Sys2Proof.Machine

def exec (i : Instr) (s : State) : Host.Outcome State Fault Refusal :=
  match i with
  | .movupdRegRm p reg rm => Sys2Proof.Machine.execMovupdRegRm p reg rm s
  | .movupdRegRmRex p x reg rm => Sys2Proof.Machine.execMovupdRegRmRex p x reg rm s
  | .movupdRmReg p reg rm => Sys2Proof.Machine.execMovupdRmReg p reg rm s
  | .movupdRmRegRex p x reg rm => Sys2Proof.Machine.execMovupdRmRegRex p x reg rm s
  | .vex2Mov128RegRm p rex v reg rm => Sys2Proof.Machine.execVex2Mov128RegRm p rex v reg rm s
  | .vex3Mov128RegRm p rex v reg rm => Sys2Proof.Machine.execVex3Mov128RegRm p rex v reg rm s
  | .vex2Mov128RmReg p rex v reg rm => Sys2Proof.Machine.execVex2Mov128RmReg p rex v reg rm s
  | .vex3Mov128RmReg p rex v reg rm => Sys2Proof.Machine.execVex3Mov128RmReg p rex v reg rm s
  | .vex2Mov256RegRm p rex v reg rm => Sys2Proof.Machine.execVex2Mov256RegRm p rex v reg rm s
  | .vex3Mov256RegRm p rex v reg rm => Sys2Proof.Machine.execVex3Mov256RegRm p rex v reg rm s
  | .vex2Mov256RmReg p rex v reg rm => Sys2Proof.Machine.execVex2Mov256RmReg p rex v reg rm s
  | .vex3Mov256RmReg p rex v reg rm => Sys2Proof.Machine.execVex3Mov256RmReg p rex v reg rm s
  | .evexMov128RegRm p rex e reg rm => Sys2Proof.Machine.execEvexMov128RegRm p rex e reg rm s
  | .evexMov128RmReg p rex e reg rm => Sys2Proof.Machine.execEvexMov128RmReg p rex e reg rm s
  | .evexMov256RegRm p rex e reg rm => Sys2Proof.Machine.execEvexMov256RegRm p rex e reg rm s
  | .evexMov256RmReg p rex e reg rm => Sys2Proof.Machine.execEvexMov256RmReg p rex e reg rm s
  | .evexMov512RegRm p rex e reg rm => Sys2Proof.Machine.execEvexMov512RegRm p rex e reg rm s
  | .evexMov512RmReg p rex e reg rm => Sys2Proof.Machine.execEvexMov512RmReg p rex e reg rm s

end Sys2Proof.Machine
end

