-- ==== Sys2Proof/Machine/Fetch.lean ====
section
/-! DEFINITION. Fetching an instruction's bytes from the program text, and running what the decoder made of them. -/

namespace Sys2Proof.Machine

/-- n bytes of memory from address a on, in address order. -/
def bytesAt (m : Memory) (a : Nat) : Nat → List Byte
  | 0 => []
  | n + 1 => m.read a :: bytesAt m (a + 1) n

/-- Places bytes in memory from address a on. -/
def placeBytes (m : Memory) (a : Nat) : List Byte → Memory
  | [] => m
  | b :: bs => placeBytes (m.write a b) (a + 1) bs

/-- The bytes of the text from rip on, at most as many as the longest instruction has. The text is always fetchable
(60_exceptions.md R160, decision D19); its bytes stand in memory (20_memory.md R40). -/
def fetch (s : State) : List Byte :=
  bytesAt s.mem s.rip.toNat (min longestEncoding (s.text.base.toNat + s.text.size - s.rip.toNat))

/-- Why no instruction is fetched: a mode out of scope (D1), the end of the run (70_reset_and_hazards.md R184), or an rip
elsewhere outside the text. -/
def fetchStop (s : State) : Option Stop :=
  if s.mode ≠ .bits64 then some (.refuse .modeOutOfScope)
  else if s.text.has s.rip.toNat then none
  else if s.rip.toNat = s.text.base.toNat + s.text.size then some (.refuse .endOfText)
  else some (.refuse .outsideText)

/-- The length of an instruction (30_encoding.md R89). -/
def instrLength : Instr → Nat
  | .movupdRegRm p _ rm => (Enc.sse p rm).len
  | .movupdRegRmRex p x _ rm => (Enc.sseRex p x rm).len
  | .movupdRmReg p _ rm => (Enc.sse p rm).len
  | .movupdRmRegRex p x _ rm => (Enc.sseRex p x rm).len
  | .vex2Mov128RegRm p r v _ rm => (Enc.vex2 p r v rm).len
  | .vex3Mov128RegRm p r v _ rm => (Enc.vex3 p r v rm).len
  | .vex2Mov128RmReg p r v _ rm => (Enc.vex2 p r v rm).len
  | .vex3Mov128RmReg p r v _ rm => (Enc.vex3 p r v rm).len
  | .vex2Mov256RegRm p r v _ rm => (Enc.vex2 p r v rm).len
  | .vex3Mov256RegRm p r v _ rm => (Enc.vex3 p r v rm).len
  | .vex2Mov256RmReg p r v _ rm => (Enc.vex2 p r v rm).len
  | .vex3Mov256RmReg p r v _ rm => (Enc.vex3 p r v rm).len
  | .evexMov128RegRm p r _ _ rm => evexLength p r rm
  | .evexMov128RmReg p r _ _ rm => evexLength p r rm
  | .evexMov256RegRm p r _ _ rm => evexLength p r rm
  | .evexMov256RmReg p r _ _ rm => evexLength p r rm
  | .evexMov512RegRm p r _ _ rm => evexLength p r rm
  | .evexMov512RmReg p r _ _ rm => evexLength p r rm

/-- The bytes rip to rip + len - 1 are all canonical addresses of one half of the address space and rip + len does not
overflow (10_state.md R25, decision D7). -/
def ripSpanOk (s : State) (len : Nat) : Bool :=
  decide (s.rip.toNat + len ≤ 2 ^ (s.cfg.la.bits - 1))
    || (decide (2 ^ 64 - 2 ^ (s.cfg.la.bits - 1) ≤ s.rip.toNat) && decide (s.rip.toNat + len < 2 ^ 64))

/-- An EVEX prefix with L'L = 11 raises #UD in every state (30_encoding.md R81 item 3, R91), or #GP(0) where its length is
above 15 as well (60_exceptions.md R161). -/
def execReservedLength (p : List LegacyPrefix) (rex : Option Rex) (rm : RmOperand) (s : State) : Result :=
  guarded s true true (evexLength p rex rm) (raise s .ud).outcome

/-- Runs `k` where the bytes of the instruction lie as R25 asks; else the instruction is refused. -/
def inSpan (s : State) (len : Nat) (k : Result) : Result :=
  if ripSpanOk s len then k else .refused .ripOutOfRange

/-- What the decoded bytes do. -/
def runDecoded (s : State) : Decoded → Result
  | .instr i => inSpan s (instrLength i) (exec i s)
  | .reservedLength p rex rm => inSpan s (evexLength p rex rm) (execReservedLength p rex rm s)
  | .refuse r => .refused (.decoder r)

/-- How many of the bytes at the front of a byte string are its first instruction's; all of them where there is none. -/
def firstLength (bs : List Byte) : Nat :=
  match decode bs with
  | .instr i => instrLength i
  | .reservedLength p rex rm => evexLength p rex rm
  | .refuse _ => bs.length

/-- `s` with the bytes placed at rip and the text set to the first instruction among them: a program of one instruction. -/
def State.withProgram (s : State) (bs : List Byte) : State :=
  { s with mem := placeBytes s.mem s.rip.toNat bs, text := { base := s.rip, size := firstLength bs } }

end Sys2Proof.Machine
end

