-- ==== Sys2Proof/Machine/Step.lean ====
section
/-! DEFINITION. One step of the machine (40_movupd_sse.md R110), and the placing of one instruction for the host. -/

namespace Sys2Proof.Machine

/-- One step: fetch inside the text, decode, and run the instruction. In another mode than 64-bit mode nothing is decoded (D1). -/
def step (s : State) : Host.Outcome State Fault Refusal :=
  match fetchStop s with
  | some st => st.outcome
  | none => runDecoded s (decode (fetch s))

/-- `s` with the instruction of a table word as its whole program (70_reset_and_hazards.md R182 `text`, R184; log 12). -/
def State.withFetchWord (s : State) (nbits w : Nat) : State := s.withProgram (tableBytes nbits w)

end Sys2Proof.Machine
end

