-- ==== Sys2Proof/WellFormed.lean ====
section
/-! DEFINITION. Which terms of `Instr` stand for bytes. `shaped` holds of exactly the terms the decoder can give (illegal
variants among them), `legal` of those that are no illegal variant of 30_encoding.md R91; a well-formed instruction is both. -/

namespace Sys2Proof

/-- At most one prefix of each group (30_encoding.md R73, decision D28). -/
def onePerGroup (p : List LegacyPrefix) : Bool := decide ((p.map LegacyPrefix.group).Nodup)

/-- The legacy form carries `66` and neither `F2` nor `F3` (30_encoding.md R73). -/
def ssePrefixesShaped (p : List LegacyPrefix) : Bool :=
  onePerGroup p && p.contains .opsize && !p.contains .repne && !p.contains .rep

/-- The constraints between ModRM, SIB and displacement that the rows of 30_encoding.md R85 make. -/
def AddrForm.shaped : AddrForm → Bool
  | .ripRel _ => true
  | .base rm d => rm != 0b100#3 && (d != .none || rm != 0b101#3)
  | .sib _ _ b d => d != .none || b != 0b101#3
  | .sibNoBase _ _ _ => true

def RmOperand.shaped : RmOperand → Bool
  | .reg _ => true
  | .mem a => a.shaped

def Instr.shaped : Instr → Bool
  | .movupdRegRm p _ rm => ssePrefixesShaped p && rm.shaped
  | .movupdRegRmRex p _ _ rm => ssePrefixesShaped p && rm.shaped
  | .movupdRmReg p _ rm => ssePrefixesShaped p && rm.shaped
  | .movupdRmRegRex p _ _ rm => ssePrefixesShaped p && rm.shaped
  | .vex2Mov128RegRm p _ _ _ rm => onePerGroup p && rm.shaped
  | .vex3Mov128RegRm p _ _ _ rm => onePerGroup p && rm.shaped
  | .vex2Mov128RmReg p _ _ _ rm => onePerGroup p && rm.shaped
  | .vex3Mov128RmReg p _ _ _ rm => onePerGroup p && rm.shaped
  | .vex2Mov256RegRm p _ _ _ rm => onePerGroup p && rm.shaped
  | .vex3Mov256RegRm p _ _ _ rm => onePerGroup p && rm.shaped
  | .vex2Mov256RmReg p _ _ _ rm => onePerGroup p && rm.shaped
  | .vex3Mov256RmReg p _ _ _ rm => onePerGroup p && rm.shaped
  | .evexMov128RegRm p _ _ _ rm => onePerGroup p && rm.shaped
  | .evexMov128RmReg p _ _ _ rm => onePerGroup p && rm.shaped
  | .evexMov256RegRm p _ _ _ rm => onePerGroup p && rm.shaped
  | .evexMov256RmReg p _ _ _ rm => onePerGroup p && rm.shaped
  | .evexMov512RegRm p _ _ _ rm => onePerGroup p && rm.shaped
  | .evexMov512RmReg p _ _ _ rm => onePerGroup p && rm.shaped

open Machine in
def Instr.legal : Instr → Bool
  | .movupdRegRm p _ _ => sseLegal p
  | .movupdRegRmRex p _ _ _ => sseLegal p
  | .movupdRmReg p _ _ => sseLegal p
  | .movupdRmRegRex p _ _ _ => sseLegal p
  | .vex2Mov128RegRm p r v _ _ => vexLegal p r v.vvvv
  | .vex3Mov128RegRm p r v _ _ => vexLegal p r v.vvvv
  | .vex2Mov128RmReg p r v _ _ => vexLegal p r v.vvvv
  | .vex3Mov128RmReg p r v _ _ => vexLegal p r v.vvvv
  | .vex2Mov256RegRm p r v _ _ => vexLegal p r v.vvvv
  | .vex3Mov256RegRm p r v _ _ => vexLegal p r v.vvvv
  | .vex2Mov256RmReg p r v _ _ => vexLegal p r v.vvvv
  | .vex3Mov256RmReg p r v _ _ => vexLegal p r v.vvvv
  | .evexMov128RegRm p r e _ _ => evexLegal p r e
  | .evexMov128RmReg p r e _ rm => evexLegal p r e && evexRmDestLegal e rm
  | .evexMov256RegRm p r e _ _ => evexLegal p r e
  | .evexMov256RmReg p r e _ rm => evexLegal p r e && evexRmDestLegal e rm
  | .evexMov512RegRm p r e _ _ => evexLegal p r e
  | .evexMov512RmReg p r e _ rm => evexLegal p r e && evexRmDestLegal e rm

/-- A legal encoding of one of the twelve instructions. -/
def Instr.wellFormed (i : Instr) : Bool := i.shaped && i.legal

end Sys2Proof
end

