-- ==== Sys2Proof/Safety.lean ====
section
/-! DEFINITION. The terms claims use: the premises of a run (70_reset_and_hazards.md R182), what an instruction changes and
what it leaves (40_movupd_sse.md R114), which accesses pass, and the invariant of the state. -/

namespace Sys2Proof.Machine

/-! ## Premises -/

/-- What the legacy SSE forms need (70_reset_and_hazards.md R182: `mode64`, `features`, `sse_enabled`, `ts_clear`). -/
structure SseReady (s : State) : Prop where
  mode : s.mode = .bits64
  sse2 : s.cfg.hasSse2 = true
  em : s.cr0.getLsbD 2 = false
  osfxsr : s.cr4.getLsbD 9 = true
  ts : s.cr0.getLsbD 3 = false

/-- What the VEX forms need (R182: `mode64`, `features`, `avx_enabled`, `ts_clear`). -/
structure VexReady (s : State) : Prop where
  mode : s.mode = .bits64
  avx : s.cfg.hasAvx = true
  osxsave : s.cr4.getLsbD 18 = true
  xcr0Sse : s.xcr0.getLsbD 1 = true
  xcr0Avx : s.xcr0.getLsbD 2 = true
  ts : s.cr0.getLsbD 3 = false

/-- What the EVEX forms of vector length `vl` need (R182: `mode64`, `features`, `avx_enabled`, `avx512_enabled`,
`ts_clear`): AVX512VL but for the 512-bit forms (30_encoding.md R93). -/
structure EvexReady (s : State) (vl : Nat) : Prop where
  mode : s.mode = .bits64
  avx512f : s.cfg.hasAvx512f = true
  avx512vl : vl ≠ 512 → s.cfg.hasAvx512vl = true
  osxsave : s.cr4.getLsbD 18 = true
  xcr0Sse : s.xcr0.getLsbD 1 = true
  xcr0Avx : s.xcr0.getLsbD 2 = true
  xcr0Opmask : s.xcr0.getLsbD 5 = true
  xcr0ZmmHi256 : s.xcr0.getLsbD 6 = true
  xcr0Hi16Zmm : s.xcr0.getLsbD 7 = true
  ts : s.cr0.getLsbD 3 = false

/-- The access of every byte it checks passes: the bytes of enabled elements, and those of masked-off elements unless they
cannot fault (20_memory.md R42, R48, R55, R58); and no alignment check applies (R45). -/
structure Accessible (s : State) (kind : AccessKind) (r : MemRef) (en : Nat → Bool) : Prop where
  passes : ∀ k, k < r.size → (en (k / 8) = true ∨ s.cfg.suppression = .either) →
    canonical s.cfg.la (r.ea.toNat + k) = true ∧ accessAt s.cfg.access kind (r.ea.toNat + k) = .ok
  aligned : s.acEnabled = false ∨ r.ea.toNat % r.size = 0

/-- A source operand that can be read: a register, or a memory operand whose access passes. -/
def ReadableRm (s : State) (c : Enc) (size : Nat) (en : Nat → Bool) : RmOperand → Prop
  | .reg _ => True
  | .mem a => Accessible s .read (c.memRef s size a) en

/-- A store that can be made: its access passes and it writes no byte of the program text (20_memory.md R62). -/
structure Storable (s : State) (r : MemRef) (en : Nat → Bool) : Prop where
  accessible : Accessible s .write r en
  offText : ∀ k, k < r.size → en (k / 8) = true → s.text.has (r.ea.toNat + k) = false

/-! ## Effects -/

/-- Bit i of a source operand: of a vector register, or of the byte at EA + i / 8 (20_memory.md R41). -/
def rmBit (s : State) (c : Enc) (size : Nat) (rm : RmOperand) (i : Nat) : Bool :=
  match rm with
  | .reg n => (s.v (c.ext.rmNum n)).getLsbD i
  | .mem a => (s.mem.read ((c.memRef s size a).ea.toNat + i / 8)).getLsbD (i % 8)

/-- What no instruction changes (40_movupd_sse.md R114): the opmask, general, flag, control, segment and segment-base
registers, MXCSR, the mode and privilege level, the text's range and the parameters. -/
structure SameControl (s t : State) : Prop where
  kregs : t.kregs = s.kregs
  gprs : t.gprs = s.gprs
  rflags : t.rflags = s.rflags
  mxcsr : t.mxcsr = s.mxcsr
  cr0 : t.cr0 = s.cr0
  cr2 : t.cr2 = s.cr2
  cr4 : t.cr4 = s.cr4
  xcr0 : t.xcr0 = s.xcr0
  cpl : t.cpl = s.cpl
  mode : t.mode = s.mode
  cs : t.cs = s.cs
  ds : t.ds = s.ds
  es : t.es = s.es
  ss : t.ss = s.ss
  fs : t.fs = s.fs
  gs : t.gs = s.gs
  fsBase : t.fsBase = s.fsBase
  gsBase : t.gsBase = s.gsBase
  text : t.text = s.text
  cfg : t.cfg = s.cfg

/-- The instruction has completed: rip is past its `len` bytes and nothing of R114 has changed. -/
structure Completed (s t : State) (len : Nat) : Prop where
  rip : t.rip = s.rip + BitVec.ofNat 64 len
  control : SameControl s t

/-- Completed with V[d] as the only register and no byte of memory written. -/
structure WroteOnly (s t : State) (len : Nat) (d : BitVec 5) : Prop where
  completed : Completed s t len
  others : ∀ n, n ≠ d → t.v n = s.v n
  memory : ∀ a, t.mem.read a = s.mem.read a

/-- Completed with the bytes of the enabled elements of `x` stored at `r`, every other byte and every register as before. -/
structure StoredOnly (s t : State) (len : Nat) (r : MemRef) (en : Nat → Bool) (x : Vec) : Prop where
  completed : Completed s t len
  registers : ∀ n, t.v n = s.v n
  stored : ∀ k, k < r.size → en (k / 8) = true → t.mem.read (r.ea.toNat + k) = x.extractLsb' (8 * k) 8
  others : ∀ a, (∀ k, k < r.size → en (k / 8) = true → a ≠ r.ea.toNat + k) → t.mem.read a = s.mem.read a

/-- V[d] holds `bit` in bits vl-1:0 and its old bits from vl up to MAXVL-1 (40_movupd_sse.md R112). -/
def LowBitsReplaced (s t : State) (d : BitVec 5) (vl : Nat) (bit : Nat → Bool) : Prop :=
  (∀ i, i < vl → (t.v d).getLsbD i = bit i) ∧
  ∀ i, vl ≤ i → i < s.cfg.maxvl.bits → (t.v d).getLsbD i = (s.v d).getLsbD i

/-- V[d] holds `bit` in bits vl-1:0 and 0 from vl up (41_vmovupd_vex.md R120). -/
def LowBitsThenZero (t : State) (d : BitVec 5) (vl : Nat) (bit : Nat → Bool) : Prop :=
  (∀ i, i < vl → (t.v d).getLsbD i = bit i) ∧ ∀ i, vl ≤ i → (t.v d).getLsbD i = false

/-- Bit i of the destination of an EVEX form (42_vmovupd_evex.md R133): element i / 64 enabled, the source's bit; else the
old bit under merging-masking, 0 under zeroing-masking. -/
def maskedBit (s : State) (d : BitVec 5) (e : Evex) (bit : Nat → Bool) (i : Nat) : Bool :=
  if s.enabled e.aaa (i / 64) then bit i else if e.z then false else (s.v d).getLsbD i

/-! ## What each instruction names -/

/-- The destination register, where the destination is one (30_encoding.md R82, R84). -/
def destination : Instr → Option (BitVec 5)
  | .movupdRegRm p reg rm => some ((Enc.sse p rm).ext.regNum reg)
  | .movupdRegRmRex p x reg rm => some ((Enc.sseRex p x rm).ext.regNum reg)
  | .movupdRmReg p _ (.reg d) => some ((Enc.sse p (.reg d)).ext.rmNum d)
  | .movupdRmRegRex p x _ (.reg d) => some ((Enc.sseRex p x (.reg d)).ext.rmNum d)
  | .vex2Mov128RegRm _ _ v reg _ => some ((Ext.ofVex2 v).regNum reg)
  | .vex3Mov128RegRm _ _ v reg _ => some ((Ext.ofVex3 v).regNum reg)
  | .vex2Mov128RmReg _ _ v _ (.reg d) => some ((Ext.ofVex2 v).rmNum d)
  | .vex3Mov128RmReg _ _ v _ (.reg d) => some ((Ext.ofVex3 v).rmNum d)
  | .vex2Mov256RegRm _ _ v reg _ => some ((Ext.ofVex2 v).regNum reg)
  | .vex3Mov256RegRm _ _ v reg _ => some ((Ext.ofVex3 v).regNum reg)
  | .vex2Mov256RmReg _ _ v _ (.reg d) => some ((Ext.ofVex2 v).rmNum d)
  | .vex3Mov256RmReg _ _ v _ (.reg d) => some ((Ext.ofVex3 v).rmNum d)
  | .evexMov128RegRm _ _ e reg _ => some ((Ext.ofEvex e).regNum reg)
  | .evexMov128RmReg _ _ e _ (.reg d) => some ((Ext.ofEvex e).rmNum d)
  | .evexMov256RegRm _ _ e reg _ => some ((Ext.ofEvex e).regNum reg)
  | .evexMov256RmReg _ _ e _ (.reg d) => some ((Ext.ofEvex e).rmNum d)
  | .evexMov512RegRm _ _ e reg _ => some ((Ext.ofEvex e).regNum reg)
  | .evexMov512RmReg _ _ e _ (.reg d) => some ((Ext.ofEvex e).rmNum d)
  | .movupdRmReg _ _ (.mem _) => none
  | .movupdRmRegRex _ _ _ (.mem _) => none
  | .vex2Mov128RmReg _ _ _ _ (.mem _) => none
  | .vex3Mov128RmReg _ _ _ _ (.mem _) => none
  | .vex2Mov256RmReg _ _ _ _ (.mem _) => none
  | .vex3Mov256RmReg _ _ _ _ (.mem _) => none
  | .evexMov128RmReg _ _ _ _ (.mem _) => none
  | .evexMov256RmReg _ _ _ _ (.mem _) => none
  | .evexMov512RmReg _ _ _ _ (.mem _) => none

/-- An access of an instruction: its kind, where it goes, and which elements it touches (20_memory.md R46). -/
structure MemAccess where
  kind : AccessKind
  ref : MemRef
  en : Nat → Bool

/-- The access of an operand, where it is memory. -/
def accessOf (kind : AccessKind) (s : State) (c : Enc) (size : Nat) (en : Nat → Bool) : RmOperand → Option MemAccess
  | .reg _ => none
  | .mem a => some { kind := kind, ref := c.memRef s size a, en := en }

/-- The access of an instruction (the table of 20_memory.md R46). -/
def memAccess (s : State) : Instr → Option MemAccess
  | .movupdRegRm p _ rm => accessOf .read s (Enc.sse p rm) 16 everyElement rm
  | .movupdRegRmRex p x _ rm => accessOf .read s (Enc.sseRex p x rm) 16 everyElement rm
  | .movupdRmReg p _ rm => accessOf .write s (Enc.sse p rm) 16 everyElement rm
  | .movupdRmRegRex p x _ rm => accessOf .write s (Enc.sseRex p x rm) 16 everyElement rm
  | .vex2Mov128RegRm p r v _ rm => accessOf .read s (Enc.vex2 p r v rm) 16 everyElement rm
  | .vex3Mov128RegRm p r v _ rm => accessOf .read s (Enc.vex3 p r v rm) 16 everyElement rm
  | .vex2Mov128RmReg p r v _ rm => accessOf .write s (Enc.vex2 p r v rm) 16 everyElement rm
  | .vex3Mov128RmReg p r v _ rm => accessOf .write s (Enc.vex3 p r v rm) 16 everyElement rm
  | .vex2Mov256RegRm p r v _ rm => accessOf .read s (Enc.vex2 p r v rm) 32 everyElement rm
  | .vex3Mov256RegRm p r v _ rm => accessOf .read s (Enc.vex3 p r v rm) 32 everyElement rm
  | .vex2Mov256RmReg p r v _ rm => accessOf .write s (Enc.vex2 p r v rm) 32 everyElement rm
  | .vex3Mov256RmReg p r v _ rm => accessOf .write s (Enc.vex3 p r v rm) 32 everyElement rm
  | .evexMov128RegRm p r e _ rm => accessOf .read s (Enc.evex p r e rm 128) 16 (s.enabled e.aaa) rm
  | .evexMov128RmReg p r e _ rm => accessOf .write s (Enc.evex p r e rm 128) 16 (s.enabled e.aaa) rm
  | .evexMov256RegRm p r e _ rm => accessOf .read s (Enc.evex p r e rm 256) 32 (s.enabled e.aaa) rm
  | .evexMov256RmReg p r e _ rm => accessOf .write s (Enc.evex p r e rm 256) 32 (s.enabled e.aaa) rm
  | .evexMov512RegRm p r e _ rm => accessOf .read s (Enc.evex p r e rm 512) 64 (s.enabled e.aaa) rm
  | .evexMov512RmReg p r e _ rm => accessOf .write s (Enc.evex p r e rm 512) 64 (s.enabled e.aaa) rm

/-- The columns of the table of 60_exceptions.md R151, the EVEX one split by the CPUID flags of 00_scope.md R2. -/
inductive Family where
  | sse
  | vex
  | evexVl
  | evex512
deriving DecidableEq, Repr

def familyOf : Instr → Family
  | .movupdRegRm _ _ _ => .sse
  | .movupdRegRmRex _ _ _ _ => .sse
  | .movupdRmReg _ _ _ => .sse
  | .movupdRmRegRex _ _ _ _ => .sse
  | .vex2Mov128RegRm _ _ _ _ _ => .vex
  | .vex3Mov128RegRm _ _ _ _ _ => .vex
  | .vex2Mov128RmReg _ _ _ _ _ => .vex
  | .vex3Mov128RmReg _ _ _ _ _ => .vex
  | .vex2Mov256RegRm _ _ _ _ _ => .vex
  | .vex3Mov256RegRm _ _ _ _ _ => .vex
  | .vex2Mov256RmReg _ _ _ _ _ => .vex
  | .vex3Mov256RmReg _ _ _ _ _ => .vex
  | .evexMov128RegRm _ _ _ _ _ => .evexVl
  | .evexMov128RmReg _ _ _ _ _ => .evexVl
  | .evexMov256RegRm _ _ _ _ _ => .evexVl
  | .evexMov256RmReg _ _ _ _ _ => .evexVl
  | .evexMov512RegRm _ _ _ _ _ => .evex512
  | .evexMov512RmReg _ _ _ _ _ => .evex512

/-- The feature flags and enables of an instruction's row (30_encoding.md R93, 60_exceptions.md R151). -/
def available (s : State) (i : Instr) : Bool :=
  match familyOf i with
  | .sse => s.sseAvailable
  | .vex => s.vexAvailable
  | .evexVl => s.evexVlAvailable
  | .evex512 => s.evex512Available

/-- A #UD cause of the table of 60_exceptions.md R151 that is a feature flag, CR0.EM, CR4 or XCR0. -/
def Unavailable (s : State) : Family → Prop
  | .sse => s.cfg.hasSse2 = false ∨ s.cr0.getLsbD 2 = true ∨ s.cr4.getLsbD 9 = false
  | .vex =>
    s.cfg.hasAvx = false ∨ s.cr4.getLsbD 18 = false ∨ s.xcr0.getLsbD 1 = false ∨ s.xcr0.getLsbD 2 = false
  | .evexVl =>
    s.cfg.hasAvx512vl = false ∨ s.cfg.hasAvx512f = false ∨ s.cr4.getLsbD 18 = false ∨ s.xcr0.getLsbD 1 = false ∨
      s.xcr0.getLsbD 2 = false ∨ s.xcr0.getLsbD 5 = false ∨ s.xcr0.getLsbD 6 = false ∨ s.xcr0.getLsbD 7 = false
  | .evex512 =>
    s.cfg.hasAvx512f = false ∨ s.cr4.getLsbD 18 = false ∨ s.xcr0.getLsbD 1 = false ∨
      s.xcr0.getLsbD 2 = false ∨ s.xcr0.getLsbD 5 = false ∨ s.xcr0.getLsbD 6 = false ∨ s.xcr0.getLsbD 7 = false

/-- Levels 1 and 2 of 60_exceptions.md R161 raise nothing. -/
structure ReachesOperation (s : State) (i : Instr) : Prop where
  mode : s.mode = .bits64
  legal : i.legal = true
  available : available s i = true
  length : instrLength i ≤ 15
  ts : s.cr0.getLsbD 3 = false

/-- The outcome with `f` applied to the next state, where there is one. -/
def mapNext (f : State → State) : Result → Result
  | .next t => .next (f t)
  | .fault r => .fault r
  | .refused r => .refused r

/-- `s` with another value in one opmask register. -/
def State.setK (s : State) (n : BitVec 3) (x : Word) : State := { s with kregs := s.kregs.set n.toNat x n.isLt }

/-! ## Completion, by effect -/

/-- `i` completes, replacing bits 127:0 of V[d] by `bit` and keeping its other bits (40_movupd_sse.md R112). -/
def CompletesKeepingUpper (i : Instr) (s : State) (len : Nat) (d : BitVec 5) (bit : Nat → Bool) : Prop :=
  ∃ t, exec i s = .next t ∧ WroteOnly s t len d ∧ LowBitsReplaced s t d 128 bit

/-- `i` completes, writing `bit` to bits vl-1:0 of V[d] and 0 above them (41_vmovupd_vex.md R120, 42_vmovupd_evex.md
R133). -/
def CompletesZeroingUpper (i : Instr) (s : State) (len : Nat) (d : BitVec 5) (vl : Nat) (bit : Nat → Bool) : Prop :=
  ∃ t, exec i s = .next t ∧ WroteOnly s t len d ∧ LowBitsThenZero t d vl bit

/-- `i` completes, storing the enabled elements of `x` at `r`. -/
def CompletesStoring (i : Instr) (s : State) (len : Nat) (r : MemRef) (en : Nat → Bool) (x : Vec) : Prop :=
  ∃ t, exec i s = .next t ∧ StoredOnly s t len r en x

/-! ## The invariant -/

/-- How many bits of V[n] exist: MAXVL for n below NVEC (10_state.md R21, R22). -/
def State.vectorBits (s : State) (n : BitVec 5) : Nat := if n.toNat < s.cfg.nvec then s.cfg.maxvl.bits else 0

/-- How many bits of an opmask register exist (10_state.md R23). -/
def State.maskBits (s : State) : Nat := if s.cfg.hasAvx512f then s.cfg.kw.bits else 0

/-- The storage is in its canonical form: memory lists no byte twice and no 0, and the bits of a register that do not exist
are 0. -/
structure State.WellStored (s : State) : Prop where
  memory : s.mem.wf = true
  vectors : ∀ n i, s.vectorBits n ≤ i → (s.v n).getLsbD i = false
  masks : ∀ n i, s.maskBits ≤ i → (s.k n).getLsbD i = false

/-! ## A run of a program -/

/-- The run has reached the end of its program (70_reset_and_hazards.md R184). -/
def State.finished (s : State) : Prop := s.rip.toNat = s.text.base.toNat + s.text.size

/-- The outcome of n steps; a fault or a refusal ends the run (60_exceptions.md R163). -/
def runSteps : Nat → State → Result
  | 0, s => .next s
  | n + 1, s =>
    match step s with
    | .next t => runSteps n t
    | .fault f => .fault f
    | .refused r => .refused r

/-- The bytes of a program: its instructions back to back (70_reset_and_hazards.md R184). -/
def programBytes (is : List Instr) : List Byte := is.flatMap encode

/-- The instruction would store into the program text (20_memory.md R62). -/
def storeTouchesText (s : State) (i : Instr) : Bool :=
  match memAccess s i with
  | some acc => acc.kind == .write && overlapsText s acc.ref acc.en
  | none => false

/-- The program stands at rip, as the whole text, in one canonical half of the address space (70_reset_and_hazards.md R182
`text`, R184). That the range is fetchable is no condition: the model fetches without asking `Access` (log 11). -/
structure ProgramText (s : State) (is : List Instr) : Prop where
  start : s.text.base = s.rip
  size : s.text.size = (programBytes is).length
  stands : ∀ k (h : k < (programBytes is).length), s.mem.read (s.rip.toNat + k) = (programBytes is)[k]
  canonical : ripSpanOk s (programBytes is).length = true

/-- The whole premise `text` of R182: no instruction of the run stores into the range. -/
structure TextPremise (s : State) (is : List Instr) : Prop extends ProgramText s is where
  disjoint : ∀ n t i, runSteps n s = .next t → is[n]? = some i → storeTouchesText t i = false

/-- The enables and feature flags of a row (70_reset_and_hazards.md R182: `mode64`, `features`, `sse_enabled`,
`avx_enabled`, `avx512_enabled`, `ts_clear`). -/
def Family.Ready (s : State) : Family → Prop
  | .sse => SseReady s
  | .vex => VexReady s
  | .evexVl => EvexReady s 128
  | .evex512 => EvexReady s 512

/-- The launch premises of 70_reset_and_hazards.md R182 for a run of the program `is`, each row's for the rows it uses.
`no_fault` is no condition: a run that has faulted has no State (60_exceptions.md R163, log 22). -/
structure LaunchPremises (s : State) (is : List Instr) : Prop where
  mode : s.mode = .bits64
  consistent : s.cfg.consistent = true
  ready : ∀ i ∈ is, (familyOf i).Ready s
  acOff : s.acEnabled = false
  text : TextPremise s is

end Sys2Proof.Machine
end

