-- ==== Sys2Proof/Certificates/Slice0/Obligations.lean ====
section
/-! DEFINITION. The statements for the provers. Each docstring names the rules of spec/ it formalises and, where a statement
rests on a choice of the model, the log entry. -/

open Sys2Proof Sys2Proof.Machine

/-! ## Launch state and invariant -/

/-- The launch state that stands for reset meets the premises of 70_reset_and_hazards.md R182, with the empty program as its
text, for every row. The values are the model's choice (log 2 to 4, 11). -/
def Obligations.ResetMeetsLaunchPremises : Prop :=
  LaunchPremises State.reset [] ∧ ∀ f : Family, f.Ready State.reset

/-- The launch state is stored in the canonical form (the model's own invariant; log 1, log 5). -/
def Obligations.ResetIsWellStored : Prop := State.reset.WellStored

/-- Every step keeps the storage in its canonical form: memory lists no address twice and no zero byte, and the bits above
MAXVL, of registers from NVEC up, and above KW stay 0 (10_state.md R20 to R23; the form is the model's, log 1, log 5). -/
def Obligations.StepKeepsWellStored : Prop :=
  ∀ s t : State, s.WellStored → step s = .next t → t.WellStored

/-! ## Decoding and encoding -/

/-- Decoding the encoding of an instruction gives it back, whatever bytes follow; for every term the decoder can give, the
illegal variants among them (30_encoding.md R70 to R89, R91). -/
def Obligations.DecodeOfEncodeIsTheInstruction : Prop :=
  ∀ (i : Instr) (tail : List Byte), i.shaped = true → decode (encode i ++ tail) = .instr i

/-- The bytes an instruction is decoded from begin with its encoding: no bit of them is dropped, and each byte string has at
most one meaning (30_encoding.md R70 to R89). -/
def Obligations.DecodedBytesAreTheEncoding : Prop :=
  ∀ (bs : List Byte) (i : Instr), decode bs = .instr i → i.shaped = true ∧ ∃ tail, bs = encode i ++ tail

/-- Seven byte strings of 95_test_vectors.md (T1, T4, T12 twice, T15, T20, T22) decode to the instructions the table names. -/
def Obligations.SpecWordsDecodeToTheirInstructions : Prop :=
  decode [0x66, 0x0F, 0x10, 0xCA] = .instr (.movupdRegRm [.opsize] 1 (.reg 2)) ∧
  decode [0x66, 0x45, 0x0F, 0x10, 0x41, 0x08] =
    .instr (.movupdRegRmRex [.opsize] ⟨false, true, false, true⟩ 0 (.mem (.base 1 (.d8 8)))) ∧
  decode [0xC5, 0x79, 0x11, 0xD1] = .instr (.vex2Mov128RmReg [] none ⟨true, 15⟩ 2 (.reg 1)) ∧
  decode [0xC4, 0xC1, 0x79, 0x10, 0xCA] =
    .instr (.vex3Mov128RegRm [] none ⟨false, false, true, false, 15⟩ 1 (.reg 2)) ∧
  decode [0x62, 0xF1, 0xFD, 0x48, 0x10, 0x40, 0x01] =
    .instr (.evexMov512RegRm [] none ⟨false, false, false, false, false, 15, true, false, false, true, 0⟩ 0
      (.mem (.base 0 (.d8 1)))) ∧
  decode [0x62, 0xF1, 0xFD, 0x29, 0x10, 0xCA] =
    .instr (.evexMov256RegRm [] none ⟨false, false, false, false, false, 15, true, false, false, true, 1⟩ 1 (.reg 2)) ∧
  decode [0x62, 0x81, 0xFD, 0x48, 0x10, 0xCE] =
    .instr (.evexMov512RegRm [] none ⟨false, true, true, true, false, 15, true, false, false, true, 0⟩ 1 (.reg 6))

/-- How long an encoding is: `instrLength`, the sum of 30_encoding.md R89; at least 4 bytes, at least 6 for an EVEX form, and
at most 13 for a legal one, so that a legal instruction is never too long (R70). The bound 16 is the model's (log 15,
DEDUCED): R89 prints 14 as the longest string the decoder accepts, without the illegal ones of R91 that have `66` and REX
before an EVEX prefix. -/
def Obligations.EncodingLengthBounds : Prop :=
  ∀ i : Instr, i.shaped = true →
    (encode i).length = instrLength i ∧ 4 ≤ (encode i).length ∧ (encode i).length ≤ 16 ∧ (i.legal = true → (encode i).length ≤ 13) ∧
    ((familyOf i = .evexVl ∨ familyOf i = .evex512) → 6 ≤ (encode i).length)

/-- Two prefixes of one group anywhere among the legacy prefixes: the decoder refuses the byte string (30_encoding.md R73,
decision D28). -/
def Obligations.RepeatedPrefixGroupIsRefused : Prop :=
  ∀ (a b c : List LegacyPrefix) (q r : LegacyPrefix) (bs : List Byte), q.group = r.group →
    decode ((a ++ [q] ++ b ++ [r] ++ c).map LegacyPrefix.byte ++ bs) = .refuse .repeatedPrefix

/-- The neighbours of 30_encoding.md R92 are refused as not in scope: no `66`, `F3` or `F2` beside it, VEX with pp other than
01 or a map other than 0F, EVEX with W = 0, pp other than 01 or a map other than 0F. -/
def Obligations.NeighbourEncodingsAreNotInScope : Prop :=
  ∀ (bs : List Byte) (b b1 b2 b3 : Byte),
    decode (0x0F#8 :: bs) = .refuse .notInScope ∧
    decode (0xF3#8 :: 0x0F#8 :: bs) = .refuse .notInScope ∧
    decode (0xF2#8 :: 0x0F#8 :: bs) = .refuse .notInScope ∧
    decode (0x66#8 :: 0xF3#8 :: 0x0F#8 :: bs) = .refuse .notInScope ∧
    decode (0x66#8 :: 0xF2#8 :: 0x0F#8 :: bs) = .refuse .notInScope ∧
    (b.extractLsb' 0 2 ≠ 0b01#2 → decode (0xC5#8 :: b :: bs) = .refuse .notInScope) ∧
    (b1.extractLsb' 0 5 ≠ 0b00001#5 ∨ b2.extractLsb' 0 2 ≠ 0b01#2 →
      decode (0xC4#8 :: b1 :: b2 :: bs) = .refuse .notInScope) ∧
    (b1.extractLsb' 0 3 ≠ 0b001#3 ∨ b2.getLsbD 7 = false ∨ b2.extractLsb' 0 2 ≠ 0b01#2 →
      decode (0x62#8 :: b1 :: b2 :: b3 :: bs) = .refuse .notInScope)

/-! ## The step -/

/-- In 64-bit mode, with rip in the text, where the fetched bytes decode to an instruction, the step is the instruction's
meaning at the same state, or the refusal of 10_state.md R25 where its bytes leave their half of the address space. -/
def Obligations.StepRunsTheDecodedInstruction : Prop :=
  ∀ (s : State) (i : Instr), s.mode = .bits64 → s.text.has s.rip.toNat = true → decode (fetch s) = .instr i →
    (ripSpanOk s (instrLength i) = true → step s = exec i s) ∧
    (ripSpanOk s (instrLength i) = false → step s = .refused .ripOutOfRange)

/-- Where the bytes of an instruction stand in memory at rip and lie in the text, the step is the instruction's meaning
(40_movupd_sse.md R110, 20_memory.md R40, R44). -/
def Obligations.InstructionStandingInTextRuns : Prop :=
  ∀ (s : State) (i : Instr), s.mode = .bits64 → i.shaped = true →
    (∀ k (h : k < (encode i).length), s.mem.read (s.rip.toNat + k) = (encode i)[k]) →
    s.text.base.toNat ≤ s.rip.toNat → s.rip.toNat + (encode i).length ≤ s.text.base.toNat + s.text.size →
    ripSpanOk s (encode i).length = true → step s = exec i s

/-- A step that completes ran one decoded instruction and moved rip past it, without wrapping: there is no other change of
rip (70_reset_and_hazards.md R188, 10_state.md R25). -/
def Obligations.StepAdvancesRipByTheLength : Prop :=
  ∀ s t : State, step s = .next t →
    ∃ i, decode (fetch s) = .instr i ∧ exec i s = .next t ∧ t.rip.toNat = s.rip.toNat + instrLength i

/-- A run ends at rip = B + T: there the model has no further step (70_reset_and_hazards.md R184). That the step is then a
refusal of its own name is the model's choice (log 11). -/
def Obligations.NoStepAtTheEndOfTheText : Prop :=
  ∀ s : State, s.mode = .bits64 → s.finished → step s = .refused .endOfText

/-- The model is in 64-bit mode for the whole run; a step in any other mode is refused (00_scope.md R3, decision D1). -/
def Obligations.OtherModesAreRefused : Prop :=
  ∀ s : State, s.mode ≠ .bits64 → step s = .refused .modeOutOfScope

/-! ## The legacy SSE forms -/

/-- MOVUPD to a register (rows 1 and 2, with and without REX; 40_movupd_sse.md R112, R113): it completes; bits 127:0 of the
destination become the source's, its bits MAXVL-1:128 stay, and nothing else changes but rip. -/
def Obligations.LegacyMoveToRegisterKeepsUpperBits : Prop :=
  ∀ (s : State) (p : List LegacyPrefix) (x : Rex) (reg d : BitVec 3) (rm : RmOperand),
    SseReady s → sseLegal p = true →
    ((Enc.sse p rm).len ≤ 15 → ReadableRm s (Enc.sse p rm) 16 everyElement rm →
      CompletesKeepingUpper (.movupdRegRm p reg rm) s (Enc.sse p rm).len (Ext.none.regNum reg)
        (rmBit s (Enc.sse p rm) 16 rm)) ∧
    ((Enc.sseRex p x rm).len ≤ 15 → ReadableRm s (Enc.sseRex p x rm) 16 everyElement rm →
      CompletesKeepingUpper (.movupdRegRmRex p x reg rm) s (Enc.sseRex p x rm).len ((Ext.ofRex x).regNum reg)
        (rmBit s (Enc.sseRex p x rm) 16 rm)) ∧
    (p.length + 3 ≤ 15 →
      CompletesKeepingUpper (.movupdRmReg p reg (.reg d)) s (p.length + 3) (Ext.none.rmNum d)
        (fun i => (s.v (Ext.none.regNum reg)).getLsbD i)) ∧
    (p.length + 4 ≤ 15 →
      CompletesKeepingUpper (.movupdRmRegRex p x reg (.reg d)) s (p.length + 4) ((Ext.ofRex x).rmNum d)
        (fun i => (s.v ((Ext.ofRex x).regNum reg)).getLsbD i))

/-- MOVUPD to memory (row 2; 40_movupd_sse.md R113): it completes; bytes EA to EA + 15 become bits 127:0 of the source, and
no other byte and no register changes but rip. -/
def Obligations.LegacyStoreWritesSixteenBytes : Prop :=
  ∀ (s : State) (p : List LegacyPrefix) (x : Rex) (reg : BitVec 3) (a : AddrForm),
    SseReady s → sseLegal p = true →
    ((Enc.sse p (.mem a)).len ≤ 15 → Storable s ((Enc.sse p (.mem a)).memRef s 16 a) everyElement →
      CompletesStoring (.movupdRmReg p reg (.mem a)) s (Enc.sse p (.mem a)).len ((Enc.sse p (.mem a)).memRef s 16 a)
        everyElement (s.v (Ext.none.regNum reg))) ∧
    ((Enc.sseRex p x (.mem a)).len ≤ 15 → Storable s ((Enc.sseRex p x (.mem a)).memRef s 16 a) everyElement →
      CompletesStoring (.movupdRmRegRex p x reg (.mem a)) s (Enc.sseRex p x (.mem a)).len
        ((Enc.sseRex p x (.mem a)).memRef s 16 a) everyElement (s.v ((Ext.ofRex x).regNum reg)))

/-! ## The VEX forms -/

/-- VMOVUPD with a VEX prefix, opcode `10` (rows 3 and 5; 41_vmovupd_vex.md R121, R123): it completes; bits VL-1:0 of the
destination become the source's, bits MAXVL-1:VL become 0, and nothing else changes but rip. -/
def Obligations.VexLoadOrCopyZeroesUpperBits : Prop :=
  ∀ (s : State) (p : List LegacyPrefix) (rex : Option Rex) (v : Vex2) (w : Vex3) (reg : BitVec 3) (rm : RmOperand),
    VexReady s → s.cfg.consistent = true →
    (vexLegal p rex v.vvvv = true → (Enc.vex2 p rex v rm).len ≤ 15 →
      (ReadableRm s (Enc.vex2 p rex v rm) 16 everyElement rm →
        CompletesZeroingUpper (.vex2Mov128RegRm p rex v reg rm) s (Enc.vex2 p rex v rm).len ((Ext.ofVex2 v).regNum reg)
          128 (rmBit s (Enc.vex2 p rex v rm) 16 rm)) ∧
      (ReadableRm s (Enc.vex2 p rex v rm) 32 everyElement rm →
        CompletesZeroingUpper (.vex2Mov256RegRm p rex v reg rm) s (Enc.vex2 p rex v rm).len ((Ext.ofVex2 v).regNum reg)
          256 (rmBit s (Enc.vex2 p rex v rm) 32 rm))) ∧
    (vexLegal p rex w.vvvv = true → (Enc.vex3 p rex w rm).len ≤ 15 →
      (ReadableRm s (Enc.vex3 p rex w rm) 16 everyElement rm →
        CompletesZeroingUpper (.vex3Mov128RegRm p rex w reg rm) s (Enc.vex3 p rex w rm).len ((Ext.ofVex3 w).regNum reg)
          128 (rmBit s (Enc.vex3 p rex w rm) 16 rm)) ∧
      (ReadableRm s (Enc.vex3 p rex w rm) 32 everyElement rm →
        CompletesZeroingUpper (.vex3Mov256RegRm p rex w reg rm) s (Enc.vex3 p rex w rm).len ((Ext.ofVex3 w).regNum reg)
          256 (rmBit s (Enc.vex3 p rex w rm) 32 rm)))

/-- VMOVUPD with a VEX prefix, opcode `11`, to a register (rows 4 and 6; 41_vmovupd_vex.md R122, R124): as opcode `10` with
the operand fields exchanged. -/
def Obligations.VexCopyToRmZeroesUpperBits : Prop :=
  ∀ (s : State) (p : List LegacyPrefix) (rex : Option Rex) (v : Vex2) (w : Vex3) (reg d : BitVec 3),
    VexReady s → s.cfg.consistent = true →
    (vexLegal p rex v.vvvv = true → (Enc.vex2 p rex v (.reg d)).len ≤ 15 →
      CompletesZeroingUpper (.vex2Mov128RmReg p rex v reg (.reg d)) s (Enc.vex2 p rex v (.reg d)).len
        ((Ext.ofVex2 v).rmNum d) 128 (fun i => (s.v ((Ext.ofVex2 v).regNum reg)).getLsbD i) ∧
      CompletesZeroingUpper (.vex2Mov256RmReg p rex v reg (.reg d)) s (Enc.vex2 p rex v (.reg d)).len
        ((Ext.ofVex2 v).rmNum d) 256 (fun i => (s.v ((Ext.ofVex2 v).regNum reg)).getLsbD i)) ∧
    (vexLegal p rex w.vvvv = true → (Enc.vex3 p rex w (.reg d)).len ≤ 15 →
      CompletesZeroingUpper (.vex3Mov128RmReg p rex w reg (.reg d)) s (Enc.vex3 p rex w (.reg d)).len
        ((Ext.ofVex3 w).rmNum d) 128 (fun i => (s.v ((Ext.ofVex3 w).regNum reg)).getLsbD i) ∧
      CompletesZeroingUpper (.vex3Mov256RmReg p rex w reg (.reg d)) s (Enc.vex3 p rex w (.reg d)).len
        ((Ext.ofVex3 w).rmNum d) 256 (fun i => (s.v ((Ext.ofVex3 w).regNum reg)).getLsbD i))

/-- VMOVUPD with a VEX prefix to memory (rows 4 and 6; 41_vmovupd_vex.md R122, R124): it completes; 16 or 32 bytes from EA on
become the source's low bits, and no other byte and no register changes but rip. -/
def Obligations.VexStoreWritesTheVectorLength : Prop :=
  ∀ (s : State) (p : List LegacyPrefix) (rex : Option Rex) (v : Vex2) (w : Vex3) (reg : BitVec 3) (a : AddrForm),
    VexReady s →
    (vexLegal p rex v.vvvv = true → (Enc.vex2 p rex v (.mem a)).len ≤ 15 →
      (Storable s ((Enc.vex2 p rex v (.mem a)).memRef s 16 a) everyElement →
        CompletesStoring (.vex2Mov128RmReg p rex v reg (.mem a)) s (Enc.vex2 p rex v (.mem a)).len
          ((Enc.vex2 p rex v (.mem a)).memRef s 16 a) everyElement (s.v ((Ext.ofVex2 v).regNum reg))) ∧
      (Storable s ((Enc.vex2 p rex v (.mem a)).memRef s 32 a) everyElement →
        CompletesStoring (.vex2Mov256RmReg p rex v reg (.mem a)) s (Enc.vex2 p rex v (.mem a)).len
          ((Enc.vex2 p rex v (.mem a)).memRef s 32 a) everyElement (s.v ((Ext.ofVex2 v).regNum reg)))) ∧
    (vexLegal p rex w.vvvv = true → (Enc.vex3 p rex w (.mem a)).len ≤ 15 →
      (Storable s ((Enc.vex3 p rex w (.mem a)).memRef s 16 a) everyElement →
        CompletesStoring (.vex3Mov128RmReg p rex w reg (.mem a)) s (Enc.vex3 p rex w (.mem a)).len
          ((Enc.vex3 p rex w (.mem a)).memRef s 16 a) everyElement (s.v ((Ext.ofVex3 w).regNum reg))) ∧
      (Storable s ((Enc.vex3 p rex w (.mem a)).memRef s 32 a) everyElement →
        CompletesStoring (.vex3Mov256RmReg p rex w reg (.mem a)) s (Enc.vex3 p rex w (.mem a)).len
          ((Enc.vex3 p rex w (.mem a)).memRef s 32 a) everyElement (s.v ((Ext.ofVex3 w).regNum reg))))

/-- A VEX register copy onto its own source keeps bits VL-1:0 and clears bits MAXVL-1:VL, by either opcode and either VEX
prefix, for every register it reaches; a legacy self-copy changes no register (41_vmovupd_vex.md R125). -/
def Obligations.VexSelfCopyClearsUpperBits : Prop :=
  ∀ (s : State) (p : List LegacyPrefix) (w : Vex3) (x : Rex) (n : BitVec 3), p.length ≤ 4 →
    (VexReady s → s.cfg.consistent = true → vexLegal p none w.vvvv = true → w.r = w.b →
      (∀ i ∈ [Instr.vex2Mov128RegRm p none ⟨false, 15⟩ n (.reg n), .vex2Mov128RmReg p none ⟨false, 15⟩ n (.reg n)],
        ∃ t, exec i s = .next t ∧ LowBitsThenZero t (0#2 ++ n) 128 (fun j => (s.v (0#2 ++ n)).getLsbD j)) ∧
      (∀ i ∈ [Instr.vex2Mov256RegRm p none ⟨false, 15⟩ n (.reg n), .vex2Mov256RmReg p none ⟨false, 15⟩ n (.reg n)],
        ∃ t, exec i s = .next t ∧ LowBitsThenZero t (0#2 ++ n) 256 (fun j => (s.v (0#2 ++ n)).getLsbD j)) ∧
      (∀ i ∈ [Instr.vex3Mov128RegRm p none w n (.reg n), .vex3Mov128RmReg p none w n (.reg n)],
        ∃ t, exec i s = .next t ∧ LowBitsThenZero t ((Ext.ofVex3 w).regNum n) 128
          (fun j => (s.v ((Ext.ofVex3 w).regNum n)).getLsbD j)) ∧
      (∀ i ∈ [Instr.vex3Mov256RegRm p none w n (.reg n), .vex3Mov256RmReg p none w n (.reg n)],
        ∃ t, exec i s = .next t ∧ LowBitsThenZero t ((Ext.ofVex3 w).regNum n) 256
          (fun j => (s.v ((Ext.ofVex3 w).regNum n)).getLsbD j))) ∧
    (SseReady s → sseLegal p = true → x.r = x.b →
      ∀ i ∈ [Instr.movupdRegRm p n (.reg n), .movupdRmReg p n (.reg n), .movupdRegRmRex p x n (.reg n),
          .movupdRmRegRex p x n (.reg n)],
        ∃ t, exec i s = .next t ∧ ∀ k j, j < s.cfg.maxvl.bits → (t.v k).getLsbD j = (s.v k).getLsbD j)

/-! ## The EVEX forms -/

/-- VMOVUPD with an EVEX prefix, opcode `10` (rows 7, 9, 11; 42_vmovupd_evex.md R133, R135, R137, R139): it completes; each
element of bits VL-1:0 of the destination is the source's where enabled, the old one under merging-masking, 0 under
zeroing-masking; bits MAXVL-1:VL become 0, and nothing else changes but rip. -/
def Obligations.EvexLoadOrCopyFollowsTheWritemask : Prop :=
  ∀ (s : State) (p : List LegacyPrefix) (rex : Option Rex) (e : Evex) (reg : BitVec 3) (rm : RmOperand),
    s.cfg.consistent = true → evexLegal p rex e = true → evexLength p rex rm ≤ 15 →
    (EvexReady s 128 → ReadableRm s (Enc.evex p rex e rm 128) 16 (s.enabled e.aaa) rm →
      CompletesZeroingUpper (.evexMov128RegRm p rex e reg rm) s (evexLength p rex rm) ((Ext.ofEvex e).regNum reg) 128
        (maskedBit s ((Ext.ofEvex e).regNum reg) e (rmBit s (Enc.evex p rex e rm 128) 16 rm))) ∧
    (EvexReady s 256 → ReadableRm s (Enc.evex p rex e rm 256) 32 (s.enabled e.aaa) rm →
      CompletesZeroingUpper (.evexMov256RegRm p rex e reg rm) s (evexLength p rex rm) ((Ext.ofEvex e).regNum reg) 256
        (maskedBit s ((Ext.ofEvex e).regNum reg) e (rmBit s (Enc.evex p rex e rm 256) 32 rm))) ∧
    (EvexReady s 512 → ReadableRm s (Enc.evex p rex e rm 512) 64 (s.enabled e.aaa) rm →
      CompletesZeroingUpper (.evexMov512RegRm p rex e reg rm) s (evexLength p rex rm) ((Ext.ofEvex e).regNum reg) 512
        (maskedBit s ((Ext.ofEvex e).regNum reg) e (rmBit s (Enc.evex p rex e rm 512) 64 rm)))

/-- VMOVUPD with an EVEX prefix, opcode `11`, to a register (rows 8, 10, 12; 42_vmovupd_evex.md R133, R136, R138, R140). -/
def Obligations.EvexCopyToRmFollowsTheWritemask : Prop :=
  ∀ (s : State) (p : List LegacyPrefix) (rex : Option Rex) (e : Evex) (reg d : BitVec 3),
    s.cfg.consistent = true → evexLegal p rex e = true → evexLength p rex (.reg d) ≤ 15 →
    (EvexReady s 128 →
      CompletesZeroingUpper (.evexMov128RmReg p rex e reg (.reg d)) s (evexLength p rex (.reg d))
        ((Ext.ofEvex e).rmNum d) 128
        (maskedBit s ((Ext.ofEvex e).rmNum d) e fun i => (s.v ((Ext.ofEvex e).regNum reg)).getLsbD i)) ∧
    (EvexReady s 256 →
      CompletesZeroingUpper (.evexMov256RmReg p rex e reg (.reg d)) s (evexLength p rex (.reg d))
        ((Ext.ofEvex e).rmNum d) 256
        (maskedBit s ((Ext.ofEvex e).rmNum d) e fun i => (s.v ((Ext.ofEvex e).regNum reg)).getLsbD i)) ∧
    (EvexReady s 512 →
      CompletesZeroingUpper (.evexMov512RmReg p rex e reg (.reg d)) s (evexLength p rex (.reg d))
        ((Ext.ofEvex e).rmNum d) 512
        (maskedBit s ((Ext.ofEvex e).rmNum d) e fun i => (s.v ((Ext.ofEvex e).regNum reg)).getLsbD i))

/-- VMOVUPD with an EVEX prefix to memory (rows 8, 10, 12; 42_vmovupd_evex.md R134, R136, R138, R140): it completes; the 8
bytes of each enabled element become the source's element, and no other byte and no register changes but rip. -/
def Obligations.EvexStoreWritesEnabledElements : Prop :=
  ∀ (s : State) (p : List LegacyPrefix) (rex : Option Rex) (e : Evex) (reg : BitVec 3) (a : AddrForm),
    evexLegal p rex e = true → e.z = false → evexLength p rex (.mem a) ≤ 15 →
    (EvexReady s 128 → Storable s ((Enc.evex p rex e (.mem a) 128).memRef s 16 a) (s.enabled e.aaa) →
      CompletesStoring (.evexMov128RmReg p rex e reg (.mem a)) s (evexLength p rex (.mem a))
        ((Enc.evex p rex e (.mem a) 128).memRef s 16 a) (s.enabled e.aaa) (s.v ((Ext.ofEvex e).regNum reg))) ∧
    (EvexReady s 256 → Storable s ((Enc.evex p rex e (.mem a) 256).memRef s 32 a) (s.enabled e.aaa) →
      CompletesStoring (.evexMov256RmReg p rex e reg (.mem a)) s (evexLength p rex (.mem a))
        ((Enc.evex p rex e (.mem a) 256).memRef s 32 a) (s.enabled e.aaa) (s.v ((Ext.ofEvex e).regNum reg))) ∧
    (EvexReady s 512 → Storable s ((Enc.evex p rex e (.mem a) 512).memRef s 64 a) (s.enabled e.aaa) →
      CompletesStoring (.evexMov512RmReg p rex e reg (.mem a)) s (evexLength p rex (.mem a))
        ((Enc.evex p rex e (.mem a) 512).memRef s 64 a) (s.enabled e.aaa) (s.v ((Ext.ofEvex e).regNum reg)))

/-- enabled(j): aaa = 000 enables every element and reads no opmask register; another aaa enables element j exactly where bit
j of K[aaa] is 1 (42_vmovupd_evex.md R131). -/
def Obligations.WritemaskEnablesElements : Prop :=
  ∀ (s : State) (aaa : BitVec 3) (j : Nat),
    s.enabled aaa j = true ↔ aaa = 0#3 ∨ (s.kregs[aaa.toNat]'aaa.isLt).getLsbD j = true

/-- Without a writemask an EVEX form of 128 or 256 bits has the result of the VEX form with the same operands, by either VEX
prefix (42_vmovupd_evex.md R142 item 5; for stores R134 and 20_memory.md R46): loads and register copies by opcode `10`,
register copies and stores by opcode `11`, whatever prefixes the two have, where the registers are the same and the memory
operands name the same access. -/
def Obligations.UnmaskedEvexAgreesWithVex : Prop :=
  ∀ (s t u : State) (p q : List LegacyPrefix) (rex rex' : Option Rex) (e : Evex) (w : Vex3) (v : Vex2) (reg : BitVec 3)
    (rm rm' : RmOperand), e.aaa = 0#3 → e.rHi = false →
    ∀ (vl : Nat) (x y : Instr) (r b : Bool) (c : Enc),
      (vl, x, y, r, b, c) ∈
        [(128, Instr.evexMov128RegRm p rex e reg rm, Instr.vex3Mov128RegRm q rex' w reg rm', w.r, w.b, Enc.vex3 q rex' w rm'),
         (128, .evexMov128RegRm p rex e reg rm, .vex2Mov128RegRm q rex' v reg rm', v.r, false, Enc.vex2 q rex' v rm'),
         (256, .evexMov256RegRm p rex e reg rm, .vex3Mov256RegRm q rex' w reg rm', w.r, w.b, Enc.vex3 q rex' w rm'),
         (256, .evexMov256RegRm p rex e reg rm, .vex2Mov256RegRm q rex' v reg rm', v.r, false, Enc.vex2 q rex' v rm'),
         (128, .evexMov128RmReg p rex e reg rm, .vex3Mov128RmReg q rex' w reg rm', w.r, w.b, Enc.vex3 q rex' w rm'),
         (128, .evexMov128RmReg p rex e reg rm, .vex2Mov128RmReg q rex' v reg rm', v.r, false, Enc.vex2 q rex' v rm'),
         (256, .evexMov256RmReg p rex e reg rm, .vex3Mov256RmReg q rex' w reg rm', w.r, w.b, Enc.vex3 q rex' w rm'),
         (256, .evexMov256RmReg p rex e reg rm, .vex2Mov256RmReg q rex' v reg rm', v.r, false, Enc.vex2 q rex' v rm')] →
      e.r = r →
      ((∃ n, rm = .reg n ∧ rm' = .reg n ∧ e.x = false ∧ e.b = b) ∨
        ∃ a a', rm = .mem a ∧ rm' = .mem a' ∧
          (Enc.evex p rex e rm vl).memRef s (vl / 8) a = c.memRef s (vl / 8) a') →
      exec x s = .next t → exec y s = .next u → (∀ n, t.v n = u.v n) ∧ t.mem = u.mem

/-- A load reads the bytes of enabled elements only: with any other memory that agrees on them it completes with the same
registers (20_memory.md R48; for the forms without writemask every element is enabled). Where R45 or R48 admits a fault as
well, this speaks of one choice: that both runs take the same one is the model's (log 7, DEDUCED, unsafe for two steps),
whose free choice reads the counter alone. -/
def Obligations.LoadDependsOnlyOnEnabledBytes : Prop :=
  ∀ (i : Instr) (s t : State) (m : Memory) (acc : MemAccess),
    memAccess s i = some acc → acc.kind = .read →
    (∀ k, k < acc.ref.size → acc.en (k / 8) = true → m.read (acc.ref.ea.toNat + k) = s.mem.read (acc.ref.ea.toNat + k)) →
    exec i s = .next t → exec i { s with mem := m } = .next { t with mem := m }

/-- The bits of the opmask register at positions KL and above have no effect, in any EVEX form (42_vmovupd_evex.md R131,
R142 item 4). Where several outcomes are admitted, this speaks of one choice: that both runs take the same one is the
model's (log 7, DEDUCED, unsafe for two steps). -/
def Obligations.OpmaskBitsAboveTheElementsHaveNoEffect : Prop :=
  ∀ (s : State) (p : List LegacyPrefix) (rex : Option Rex) (e : Evex) (reg : BitVec 3) (rm : RmOperand) (k : Word),
    ((∀ j, j < 2 → k.getLsbD j = (s.k e.aaa).getLsbD j) →
      ∀ i ∈ [Instr.evexMov128RegRm p rex e reg rm, .evexMov128RmReg p rex e reg rm],
        exec i (s.setK e.aaa k) = mapNext (fun t => t.setK e.aaa k) (exec i s)) ∧
    ((∀ j, j < 4 → k.getLsbD j = (s.k e.aaa).getLsbD j) →
      ∀ i ∈ [Instr.evexMov256RegRm p rex e reg rm, .evexMov256RmReg p rex e reg rm],
        exec i (s.setK e.aaa k) = mapNext (fun t => t.setK e.aaa k) (exec i s)) ∧
    ((∀ j, j < 8 → k.getLsbD j = (s.k e.aaa).getLsbD j) →
      ∀ i ∈ [Instr.evexMov512RegRm p rex e reg rm, .evexMov512RmReg p rex e reg rm],
        exec i (s.setK e.aaa k) = mapNext (fun t => t.setK e.aaa k) (exec i s))

/-- MXCSR is not read: with another value of it every step has the same outcome, but for that value (40_movupd_sse.md
R111). Where several outcomes are admitted, this speaks of one choice: that both runs take the same one is the model's
(log 7, DEDUCED, unsafe for two steps). -/
def Obligations.MxcsrHasNoEffect : Prop :=
  ∀ (s : State) (m : BitVec 32), step { s with mxcsr := m } = mapNext (fun t => { t with mxcsr := m }) (step s)

/-! ## Frames and the whole machine -/

/-- What no instruction changes (40_movupd_sse.md R114): the general, opmask, flag, control and segment-base registers and
MXCSR; every vector register but the destination; every byte of memory but those of the enabled elements of a store; rip
advances by the length. -/
def Obligations.OnlyTheDestinationAndRipChange : Prop :=
  ∀ (i : Instr) (s t : State), exec i s = .next t →
    Completed s t (instrLength i) ∧
    (∀ n, destination i ≠ some n → t.v n = s.v n) ∧
    (∀ a, (∀ acc, memAccess s i = some acc → acc.kind = .write → ∀ k, k < acc.ref.size → acc.en (k / 8) = true →
        a ≠ acc.ref.ea.toNat + k) → t.mem.read a = s.mem.read a)

/-- No step changes a byte of the program text (20_memory.md R62, 10_state.md R33). -/
def Obligations.StepKeepsTheProgramText : Prop :=
  ∀ s t : State, step s = .next t → ∀ a, s.text.has a = true → t.mem.read a = s.mem.read a

/-- A store whose bytes overlap the program text is refused where its access passes (20_memory.md R62, decision D19). -/
def Obligations.StoreIntoTheTextIsRefused : Prop :=
  ∀ (i : Instr) (s : State) (acc : MemAccess) (k : Nat), ReachesOperation s i → memAccess s i = some acc →
    acc.kind = .write → Accessible s .write acc.ref acc.en → k < acc.ref.size → acc.en (k / 8) = true →
    s.text.has (acc.ref.ea.toNat + k) = true → exec i s = .refused .storeIntoText

/-- The two encodings of a register copy have one effect, in every form: opcode `10` with (reg, rm) and opcode `11` with the
two fields and their extension bits exchanged; `66 0F 10 CA` and `66 0F 11 D1` are such a pair (30_encoding.md R90). -/
def Obligations.RegisterCopyHasTwoEncodings : Prop :=
  ∀ (s : State) (p : List LegacyPrefix) (rex : Option Rex) (x : Rex) (vvvv : BitVec 4) (w : Vex3) (e : Evex)
    (a b : BitVec 3),
    decode [0x66, 0x0F, 0x10, 0xCA] = .instr (.movupdRegRm [.opsize] 1 (.reg 2)) ∧
    decode [0x66, 0x0F, 0x11, 0xD1] = .instr (.movupdRmReg [.opsize] 2 (.reg 1)) ∧
    exec (.movupdRegRm p a (.reg b)) s = exec (.movupdRmReg p b (.reg a)) s ∧
    exec (.movupdRegRmRex p x a (.reg b)) s = exec (.movupdRmRegRex p { x with r := x.b, b := x.r } b (.reg a)) s ∧
    exec (.vex2Mov128RegRm p rex ⟨false, vvvv⟩ a (.reg b)) s =
      exec (.vex2Mov128RmReg p rex ⟨false, vvvv⟩ b (.reg a)) s ∧
    exec (.vex2Mov256RegRm p rex ⟨false, vvvv⟩ a (.reg b)) s =
      exec (.vex2Mov256RmReg p rex ⟨false, vvvv⟩ b (.reg a)) s ∧
    exec (.vex3Mov128RegRm p rex w a (.reg b)) s =
      exec (.vex3Mov128RmReg p rex { w with r := w.b, b := w.r } b (.reg a)) s ∧
    exec (.vex3Mov256RegRm p rex w a (.reg b)) s =
      exec (.vex3Mov256RmReg p rex { w with r := w.b, b := w.r } b (.reg a)) s ∧
    exec (.evexMov128RegRm p rex e a (.reg b)) s =
      exec (.evexMov128RmReg p rex { e with r := e.b, rHi := e.x, b := e.r, x := e.rHi } b (.reg a)) s ∧
    exec (.evexMov256RegRm p rex e a (.reg b)) s =
      exec (.evexMov256RmReg p rex { e with r := e.b, rHi := e.x, b := e.r, x := e.rHi } b (.reg a)) s ∧
    exec (.evexMov512RegRm p rex e a (.reg b)) s =
      exec (.evexMov512RmReg p rex { e with r := e.b, rHi := e.x, b := e.r, x := e.rHi } b (.reg a)) s

/-- REX.W and VEX.W are ignored: both values have one meaning (30_encoding.md R74, R91). -/
def Obligations.WidthBitIsIgnored : Prop :=
  ∀ (s : State) (p : List LegacyPrefix) (rex : Option Rex) (x : Rex) (v : Vex3) (b : Bool) (reg : BitVec 3)
    (rm : RmOperand),
    exec (.movupdRegRmRex p { x with w := b } reg rm) s = exec (.movupdRegRmRex p x reg rm) s ∧
    exec (.movupdRmRegRex p { x with w := b } reg rm) s = exec (.movupdRmRegRex p x reg rm) s ∧
    exec (.vex3Mov128RegRm p rex { v with w := b } reg rm) s = exec (.vex3Mov128RegRm p rex v reg rm) s ∧
    exec (.vex3Mov128RmReg p rex { v with w := b } reg rm) s = exec (.vex3Mov128RmReg p rex v reg rm) s ∧
    exec (.vex3Mov256RegRm p rex { v with w := b } reg rm) s = exec (.vex3Mov256RegRm p rex v reg rm) s ∧
    exec (.vex3Mov256RmReg p rex { v with w := b } reg rm) s = exec (.vex3Mov256RmReg p rex v reg rm) s

/-! ## Operands and memory -/

/-- The effective address in numbers (20_memory.md R52): base + index * scale + disp modulo 2^64, or rip + len + disp for a
RIP-relative operand; then modulo 2^A; then the segment base added modulo 2^64. It is the address of the access an encoding
makes, with the components of AddressComponentsFollowTheEncoding. -/
def Obligations.EffectiveAddressFormula : Prop :=
  (∀ (c : Enc) (s : State) (size : Nat) (a : AddrForm),
    c.memRef s size a =
      { ea := s.effectiveAddress c.len (c.operand a), stack := (c.operand a).usesStack, size := size }) ∧
  ∀ (s : State) (len : Nat) (m : MemOperand),
    (s.effectiveAddress len m).toNat =
      ((match m.seg with
          | none => 0
          | some .fs => s.fsBase.toNat
          | some .gs => s.gsBase.toNat) +
        ((if m.riprel then s.rip.toNat + len + m.disp.toNat
          else (s.optionalX m.base).toNat + (s.optionalX m.index).toNat * 2 ^ m.ss.toNat + m.disp.toNat) % 2 ^ 64) %
            (if m.addr32 then 2 ^ 32 else 2 ^ 64)) % 2 ^ 64

/-- The address components an encoding names, for each form with its true extension bits X and B (30_encoding.md R84 to
R86, 20_memory.md R51, R53): base B:rm or B:base, none for a RIP-relative operand and for SIB.base 101 with mod 00; index
X:index, none where that is 4; scale 2^ss; address size 32 exactly where `67` is among the prefixes; FS_BASE or GS_BASE by
the last FS or GS override, no base added where there is none. -/
def Obligations.AddressComponentsFollowTheEncoding : Prop :=
  ∀ (p : List LegacyPrefix) (rex : Option Rex) (z : Rex) (v : Vex2) (w : Vex3) (e : Evex) (rm : RmOperand) (vl : Nat)
    (c : Enc) (x b : Bool),
    (c, x, b) ∈
      [(Enc.sse p rm, false, false), (Enc.sseRex p z rm, z.x, z.b), (Enc.vex2 p rex v rm, false, false),
       (Enc.vex3 p rex w rm, w.x, w.b), (Enc.evex p rex e rm vl, e.x, e.b)] →
    let number (r : Option (BitVec 4)) : Option Nat := r.map BitVec.toNat
    let base (n : BitVec 3) : Option Nat := some (8 * b.toNat + n.toNat)
    let index (n : BitVec 3) : Option Nat :=
      if 8 * x.toNat + n.toNat = 4 then none else some (8 * x.toNat + n.toNat)
    (∀ d, (c.operand (.ripRel d)).riprel = true ∧ (c.operand (.ripRel d)).base = none ∧
      (c.operand (.ripRel d)).index = none) ∧
    (∀ n d, (c.operand (.base n d)).riprel = false ∧ number (c.operand (.base n d)).base = base n ∧
      (c.operand (.base n d)).index = none) ∧
    (∀ ss i n d, (c.operand (.sib ss i n d)).riprel = false ∧ number (c.operand (.sib ss i n d)).base = base n ∧
      number (c.operand (.sib ss i n d)).index = index i ∧ (c.operand (.sib ss i n d)).ss = ss) ∧
    (∀ ss i d, (c.operand (.sibNoBase ss i d)).riprel = false ∧ (c.operand (.sibNoBase ss i d)).base = none ∧
      number (c.operand (.sibNoBase ss i d)).index = index i ∧ (c.operand (.sibNoBase ss i d)).ss = ss) ∧
    ∀ a, ((c.operand a).addr32 = true ↔ .addrsize ∈ p) ∧
      ((c.operand a).seg = none ↔ .seg .fs ∉ p ∧ .seg .gs ∉ p) ∧
      ∀ l r, .seg .fs ∉ r → .seg .gs ∉ r →
        (p = l ++ .seg .fs :: r → (c.operand a).seg = some .fs) ∧
        (p = l ++ .seg .gs :: r → (c.operand a).seg = some .gs)

/-- The default segment of a memory operand (20_memory.md R56): the stack segment exactly where the encoding has no FS or GS
override and a base register numbered 4 or 5. -/
def Obligations.StackSegmentIsTheDefaultOfRspAndRbp : Prop :=
  ∀ (c : Enc) (a : AddrForm),
    (c.operand a).usesStack = true ↔
      .seg .fs ∉ c.p ∧ .seg .gs ∉ c.p ∧
        ((∃ rm d, a = .base rm d ∧ (c.ext.baseNum rm = 4#4 ∨ c.ext.baseNum rm = 5#4)) ∨
         (∃ ss i b d, a = .sib ss i b d ∧ (c.ext.baseNum b = 4#4 ∨ c.ext.baseNum b = 5#4)))

/-- The compressed displacement (30_encoding.md R88): in an EVEX form of vector length VL a disp8 counts in units of VL / 8
bytes, with a base register alone and with a SIB byte; a disp32 is unscaled. In a legacy or VEX form a disp8 is unscaled
(R87). Without displacement bytes disp is 0 (R85). -/
def Obligations.EightBitDisplacementIsScaledInEvexForms : Prop :=
  ∀ (p : List LegacyPrefix) (rex : Option Rex) (e : Evex) (v : Vex2) (w : Vex3) (x : Rex) (rm : RmOperand)
    (ss : BitVec 2) (i b : BitVec 3) (d : BitVec 8) (d32 : BitVec 32),
    (∀ vl ∈ [128, 256, 512],
      ((Enc.evex p rex e rm vl).operand (.base b (.d8 d))).disp.toInt = d.toInt * (vl / 8 : Nat) ∧
      ((Enc.evex p rex e rm vl).operand (.sib ss i b (.d8 d))).disp.toInt = d.toInt * (vl / 8 : Nat)) ∧
    (∀ c ∈ [Enc.sse p rm, Enc.sseRex p x rm, Enc.vex2 p rex v rm, Enc.vex3 p rex w rm],
      (c.operand (.base b (.d8 d))).disp.toInt = d.toInt ∧ (c.operand (.sib ss i b (.d8 d))).disp.toInt = d.toInt) ∧
    (∀ (c : Enc) (a : AddrForm), a ∈ [AddrForm.ripRel d32, .base b (.d32 d32), .sib ss i b (.d32 d32), .sibNoBase ss i d32] →
      (c.operand a).disp.toInt = d32.toInt) ∧
    (∀ c : Enc, (c.operand (.base b .none)).disp = 0#64 ∧ (c.operand (.sib ss i b .none)).disp = 0#64)

/-- The register numbers of 30_encoding.md R84, as numbers, its four columns. Vector registers: R':R:reg and X:B:rm (EVEX),
R:reg and B:rm (REX, 3-byte VEX), R:reg and rm (2-byte VEX), reg and rm (legacy without REX). General registers: base B:rm
or B:base and index X:index, B and X being 0 in the 2-byte VEX and the legacy form; the index number 4 is no index (R86). -/
def Obligations.RegisterNumbersAreConcatenated : Prop :=
  ∀ (e : Evex) (x : Rex) (v : Vex2) (w : Vex3) (n : BitVec 3),
    ((Ext.ofEvex e).regNum n).toNat = 16 * e.rHi.toNat + 8 * e.r.toNat + n.toNat ∧
    ((Ext.ofEvex e).rmNum n).toNat = 16 * e.x.toNat + 8 * e.b.toNat + n.toNat ∧
    ((Ext.ofRex x).regNum n).toNat = 8 * x.r.toNat + n.toNat ∧
    ((Ext.ofRex x).rmNum n).toNat = 8 * x.b.toNat + n.toNat ∧
    ((Ext.ofVex3 w).regNum n).toNat = 8 * w.r.toNat + n.toNat ∧
    ((Ext.ofVex3 w).rmNum n).toNat = 8 * w.b.toNat + n.toNat ∧
    ((Ext.ofVex2 v).regNum n).toNat = 8 * v.r.toNat + n.toNat ∧
    ((Ext.ofVex2 v).rmNum n).toNat = n.toNat ∧
    (Ext.none.regNum n).toNat = n.toNat ∧
    (Ext.none.rmNum n).toNat = n.toNat ∧
    ∀ t ∈ [(Ext.ofEvex e, e.x, e.b), (Ext.ofRex x, x.x, x.b), (Ext.ofVex3 w, w.x, w.b), (Ext.ofVex2 v, false, false),
        (Ext.none, false, false)],
      (t.1.baseNum n).toNat = 8 * t.2.2.toNat + n.toNat ∧
      (t.1.indexNum n).map BitVec.toNat =
        if 8 * t.2.1.toNat + n.toNat = 4 then none else some (8 * t.2.1.toNat + n.toNat)

/-- Byte order is little-endian and a narrower access sees the same bytes: after n bytes of x are stored at a, the byte at
a + k is bits 8k+7:8k of x, and a load of w bytes at a + j gives bits 8(j+w)-1:8j (20_memory.md R41). -/
def Obligations.StoredBytesLoadBackLittleEndian : Prop :=
  ∀ (m : Memory) (a n : Nat) (x : Vec), n ≤ 64 →
    (∀ k, k < n → (storeBytes m a everyElement x n).read (a + k) = x.extractLsb' (8 * k) 8) ∧
    ∀ j w, j + w ≤ n →
      loadBytes (storeBytes m a everyElement x n) (a + j) everyElement w = (x >>> (8 * j)) &&& lowMask (8 * w)

/-! ## Exceptions -/

/-- An encoding that reaches a row but is illegal (30_encoding.md R91: LOCK; VEX or EVEX after `66`, `F2`, `F3` or REX; vvvv
other than 1111; reserved EVEX bits; V'; b; z without a writemask; z with a memory destination) raises #UD, in every
state. -/
def Obligations.IllegalEncodingRaisesInvalidOpcode : Prop :=
  ∀ (i : Instr) (s : State), s.mode = .bits64 → instrLength i ≤ 15 → i.legal = false →
    exec i s = .fault (.invalidOpcode s.rip)

/-- vvvv other than 1111 raises #UD, in every VEX and EVEX form (30_encoding.md R78, R81; 90_conflicts.md C6). -/
def Obligations.ReservedVvvvRaisesInvalidOpcode : Prop :=
  ∀ (s : State) (p : List LegacyPrefix) (rex : Option Rex) (v : Vex2) (w : Vex3) (e : Evex) (reg : BitVec 3)
    (rm : RmOperand), s.mode = .bits64 →
    (v.vvvv ≠ 15#4 → (Enc.vex2 p rex v rm).len ≤ 15 →
      ∀ i ∈ [Instr.vex2Mov128RegRm p rex v reg rm, .vex2Mov128RmReg p rex v reg rm, .vex2Mov256RegRm p rex v reg rm,
        .vex2Mov256RmReg p rex v reg rm], exec i s = .fault (.invalidOpcode s.rip)) ∧
    (w.vvvv ≠ 15#4 → (Enc.vex3 p rex w rm).len ≤ 15 →
      ∀ i ∈ [Instr.vex3Mov128RegRm p rex w reg rm, .vex3Mov128RmReg p rex w reg rm, .vex3Mov256RegRm p rex w reg rm,
        .vex3Mov256RmReg p rex w reg rm], exec i s = .fault (.invalidOpcode s.rip)) ∧
    (e.vvvv ≠ 15#4 → evexLength p rex rm ≤ 15 →
      ∀ i ∈ [Instr.evexMov128RegRm p rex e reg rm, .evexMov128RmReg p rex e reg rm, .evexMov256RegRm p rex e reg rm,
        .evexMov256RmReg p rex e reg rm, .evexMov512RegRm p rex e reg rm, .evexMov512RmReg p rex e reg rm],
        exec i s = .fault (.invalidOpcode s.rip))

/-- An EVEX prefix with L'L = 11 decodes to no row and raises #UD, in every state (30_encoding.md R81 item 3, R91). -/
def Obligations.ReservedVectorLengthRaisesInvalidOpcode : Prop :=
  ∀ (p : List LegacyPrefix) (rex : Option Rex) (e : Evex) (op : Byte) (reg : BitVec 3) (rm : RmOperand)
    (tail : List Byte), onePerGroup p = true → rm.shaped = true → (op = 0x10#8 ∨ op = 0x11#8) →
    decode (prefixBytes p rex ++ e.bytes 0b11#2 ++ [op] ++ rm.bytes reg ++ tail) = .reservedLength p rex rm ∧
    ∀ s : State, s.mode = .bits64 → evexLength p rex rm ≤ 15 → ripSpanOk s (evexLength p rex rm) = true →
      runDecoded s (.reservedLength p rex rm) = .fault (.invalidOpcode s.rip)

/-- A form whose feature flag is 0 or whose state is not enabled raises #UD (30_encoding.md R93; the rows of the table of
60_exceptions.md R151 on CPUID flags, CR0.EM, CR4.OSFXSR, CR4.OSXSAVE and XCR0). -/
def Obligations.UnavailableFormRaisesInvalidOpcode : Prop :=
  ∀ (i : Instr) (s : State), s.mode = .bits64 → instrLength i ≤ 15 → Unavailable s (familyOf i) →
    exec i s = .fault (.invalidOpcode s.rip)

/-- Every form raises #NM, which has no error code, when CR0.TS = 1 and no #UD cause applies; with CR0.TS = 0 it never
occurs (60_exceptions.md R152). -/
def Obligations.TaskSwitchedRaisesDeviceNotAvailable : Prop :=
  ∀ (i : Instr) (s : State),
    (s.mode = .bits64 → instrLength i ≤ 15 → i.legal = true → available s i = true → s.cr0.getLsbD 3 = true →
      exec i s = .fault (.deviceNotAvailable s.rip) ∧ (Fault.deviceNotAvailable s.rip).errorCode = none) ∧
    (s.cr0.getLsbD 3 = false → ∀ r, exec i s ≠ .fault (.deviceNotAvailable r))

/-- Under the launch premises of its row a legal instruction can only fault on its memory operand, by #SS, #GP or #PF; one
without a memory operand completes (70_reset_and_hazards.md R182, its last paragraph). -/
def Obligations.LaunchPremisesLeaveOnlyMemoryFaults : Prop :=
  ∀ (i : Instr) (s : State), (familyOf i).Ready s → s.acEnabled = false → i.legal = true → instrLength i ≤ 15 →
    (∀ f, exec i s = .fault f →
      memAccess s i ≠ none ∧
        (f = .stackSegment s.rip ∨ f = .generalProtection s.rip ∨ ∃ code a, f = .pageFault code a s.rip)) ∧
    (memAccess s i = none → ∃ t, exec i s = .next t)

/-- A length above 15 raises #GP(0); where a #UD cause applies as well, either is admitted (30_encoding.md R70,
60_exceptions.md R161). -/
def Obligations.TooLongInstructionRaisesGeneralProtection : Prop :=
  ∀ (i : Instr) (s : State), s.mode = .bits64 → 15 < instrLength i →
    (i.legal = true → available s i = true → exec i s = .fault (.generalProtection s.rip)) ∧
    (i.legal = false ∨ available s i = false →
      exec i s = .fault (.invalidOpcode s.rip) ∨ exec i s = .fault (.generalProtection s.rip))

/-- The stops of the memory level are exactly the admitted ones: some choice gives outcome `o` if and only if `o` is one of
the listed stops or, where none must happen, to go on (60_exceptions.md R161, 20_memory.md R45, R48). -/
def Obligations.ChoiceAdmitsExactlyTheListedOutcomes : Prop :=
  ∀ (must may : List Stop) (o : Option Stop),
    (∃ c, choose c must may = o) ↔
      (must = [] ∧ o = none) ∨ ∃ st, (st ∈ must ∨ st ∈ may) ∧ o = some st

/-- Where the check of a byte of an enabled element fails, the instruction does not complete: it ends in one of the stops of
the failed checks or one that is optional (20_memory.md R42, R48; 60_exceptions.md R161). -/
def Obligations.FailedByteCheckStopsTheInstruction : Prop :=
  ∀ (i : Instr) (s : State) (acc : MemAccess) (k : Nat), ReachesOperation s i → memAccess s i = some acc →
    k < acc.ref.size → acc.en (k / 8) = true →
    accessStop s acc.kind acc.ref.stack (acc.ref.ea.toNat + k) ≠ none →
    ∃ st, exec i s = st.outcome ∧
      (st ∈ failures s acc.kind acc.ref acc.en ∨ st ∈ optionalFailures s acc.kind acc.ref acc.en)

/-- A non-canonical byte of an enabled element, where nothing else can stop the access (masked-off bytes are looked at under
FAULT_SUPPRESSION = `either` only, 20_memory.md R48): #SS(0) through the stack segment, #GP(0) otherwise (R55,
60_exceptions.md R153, R154). -/
def Obligations.NonCanonicalOperandRaisesStackOrGeneralProtection : Prop :=
  ∀ (i : Instr) (s : State) (acc : MemAccess) (k : Nat), ReachesOperation s i → memAccess s i = some acc →
    (s.acEnabled = false ∨ acc.ref.ea.toNat % acc.ref.size = 0) →
    (∀ j, j < acc.ref.size → (acc.en (j / 8) = true ∨ s.cfg.suppression = .either) →
      canonical s.cfg.la (acc.ref.ea.toNat + j) = true → accessAt s.cfg.access acc.kind (acc.ref.ea.toNat + j) = .ok) →
    k < acc.ref.size → acc.en (k / 8) = true → canonical s.cfg.la (acc.ref.ea.toNat + k) = false →
    exec i s = .fault (if acc.ref.stack then .stackSegment s.rip else .generalProtection s.rip)

/-- A byte of an enabled element that the translation does not permit, where nothing but such bytes can stop the access:
#PF with the code `Access` gives for one of them, of an enabled element unless FAULT_SUPPRESSION is `either` (20_memory.md
R48, R58, 60_exceptions.md R157). That the recorded address is that of such a byte is the model's choice (log 10, DESIGN
CHOICE): 60_exceptions.md R150 asks for an address of the access that failed. -/
def Obligations.ForbiddenTranslationRaisesPageFault : Prop :=
  ∀ (i : Instr) (s : State) (acc : MemAccess) (k code : Nat), ReachesOperation s i → memAccess s i = some acc →
    (s.acEnabled = false ∨ acc.ref.ea.toNat % acc.ref.size = 0) →
    (∀ j, j < acc.ref.size → (acc.en (j / 8) = true ∨ s.cfg.suppression = .either) →
      canonical s.cfg.la (acc.ref.ea.toNat + j) = true ∧
      (accessAt s.cfg.access acc.kind (acc.ref.ea.toNat + j) = .ok ∨
        ∃ c, accessAt s.cfg.access acc.kind (acc.ref.ea.toNat + j) = .pageFault c)) →
    k < acc.ref.size → acc.en (k / 8) = true → accessAt s.cfg.access acc.kind (acc.ref.ea.toNat + k) = .pageFault code →
    ∃ j c, j < acc.ref.size ∧ (acc.en (j / 8) = true ∨ s.cfg.suppression = .either) ∧
      accessAt s.cfg.access acc.kind (acc.ref.ea.toNat + j) = .pageFault c ∧
      exec i s = .fault (.pageFault c (BitVec.ofNat 64 (acc.ref.ea.toNat + j)) s.rip)

/-- An unaligned memory operand with alignment checking enabled, where nothing else can stop the access: #AC(0), or the
instruction completes (20_memory.md R45, 60_exceptions.md R158). That some choice gives each is
ChoiceAdmitsExactlyTheListedOutcomes. -/
def Obligations.UnalignedOperandUnderAlignmentCheck : Prop :=
  ∀ (i : Instr) (s : State) (acc : MemAccess), ReachesOperation s i → memAccess s i = some acc →
    s.acEnabled = true → acc.ref.ea.toNat % acc.ref.size ≠ 0 →
    (∀ k, k < acc.ref.size → (acc.en (k / 8) = true ∨ s.cfg.suppression = .either) →
      canonical s.cfg.la (acc.ref.ea.toNat + k) = true ∧
      accessAt s.cfg.access acc.kind (acc.ref.ea.toNat + k) = .ok) →
    (acc.kind = .write → ∀ k, k < acc.ref.size → acc.en (k / 8) = true → s.text.has (acc.ref.ea.toNat + k) = false) →
    exec i s = .fault (.alignmentCheck s.rip) ∨ ∃ t, exec i s = .next t

/-- Where every enabled byte passes and no alignment check applies, a masked-off byte decides (20_memory.md R48): the
instruction completes or, under FAULT_SUPPRESSION = `either` only, ends in the stop of a masked-off byte whose check fails.
Which of them is the free choice, and each of them is what some choice gives. -/
def Obligations.MaskedOffFailureMayStopTheInstruction : Prop :=
  ∀ (i : Instr) (s : State) (acc : MemAccess), ReachesOperation s i → memAccess s i = some acc →
    (s.acEnabled = false ∨ acc.ref.ea.toNat % acc.ref.size = 0) →
    (∀ k, k < acc.ref.size → acc.en (k / 8) = true →
      canonical s.cfg.la (acc.ref.ea.toNat + k) = true ∧
        accessAt s.cfg.access acc.kind (acc.ref.ea.toNat + k) = .ok) →
    (acc.kind = .write → ∀ k, k < acc.ref.size → acc.en (k / 8) = true → s.text.has (acc.ref.ea.toNat + k) = false) →
    let admitted (c : Nat) := choose c (failures s acc.kind acc.ref acc.en) (optionalFailures s acc.kind acc.ref acc.en)
    ((∃ t, exec i s = .next t) ∨
      s.cfg.suppression = .either ∧ ∃ k st, k < acc.ref.size ∧ acc.en (k / 8) = false ∧
        accessStop s acc.kind acc.ref.stack (acc.ref.ea.toNat + k) = some st ∧ exec i s = st.outcome) ∧
    ((∃ t, exec i s = .next t) ↔ admitted (Config.freeChoice s.choices) = none) ∧
    (∃ c, admitted c = none) ∧
    (s.cfg.suppression = .either → ∀ k st, k < acc.ref.size → acc.en (k / 8) = false →
      accessStop s acc.kind acc.ref.stack (acc.ref.ea.toNat + k) = some st → ∃ c, admitted c = some st)

/-- A fault reports the instruction pointer of the faulting instruction's first byte (10_state.md R25, 60_exceptions.md
R163), from a meaning and from a step. -/
def Obligations.FaultReportsTheInstructionPointer : Prop :=
  (∀ (i : Instr) (s : State) (f : Fault), exec i s = .fault f → f.rip = s.rip) ∧
  ∀ (s : State) (f : Fault), step s = .fault f → f.rip = s.rip

/-- The vector numbers and error codes of the table of 60_exceptions.md R150. -/
def Obligations.FaultVectorsAndErrorCodes : Prop :=
  ∀ (r a : Word) (c : Nat),
    ((Fault.invalidOpcode r).vector, (Fault.invalidOpcode r).errorCode) = (6, none) ∧
    ((Fault.deviceNotAvailable r).vector, (Fault.deviceNotAvailable r).errorCode) = (7, none) ∧
    ((Fault.stackSegment r).vector, (Fault.stackSegment r).errorCode) = (12, some 0) ∧
    ((Fault.generalProtection r).vector, (Fault.generalProtection r).errorCode) = (13, some 0) ∧
    ((Fault.pageFault c a r).vector, (Fault.pageFault c a r).errorCode) = (14, some c) ∧
    ((Fault.alignmentCheck r).vector, (Fault.alignmentCheck r).errorCode) = (17, some 0)

/-! ## A run of a program -/

/-- A run of a program of k instructions takes exactly k steps or ends earlier in a fault or a refusal
(70_reset_and_hazards.md R184): the step after n steps is the meaning of instruction n, and rip reaches the end of the text
after k steps and not before. -/
def Obligations.RunTakesOneStepForEachInstruction : Prop :=
  ∀ (s : State) (is : List Instr), s.mode = .bits64 → (∀ i ∈ is, i.shaped = true) → ProgramText s is →
    (∀ n t i, runSteps n s = .next t → is[n]? = some i → step t = exec i t) ∧
    ∀ n t, n ≤ is.length → runSteps n s = .next t → (t.finished ↔ n = is.length)

/-- Under the launch premises a run of well-formed instructions reaches the end of its program, or ends in a fault of a
memory operand, or at a location `Access` refuses (70_reset_and_hazards.md R182; 20_memory.md R49, R58; that the last is a
refusal of its own name is the model's, log 18). -/
def Obligations.LaunchedRunEndsOrStopsAtAnOperand : Prop :=
  ∀ (s : State) (is : List Instr), LaunchPremises s is → (∀ i ∈ is, i.wellFormed = true) →
    (∃ t, runSteps is.length s = .next t ∧ t.finished) ∨
    (∃ f, runSteps is.length s = .fault f ∧ f.vector ∈ [12, 13, 14]) ∨
    runSteps is.length s = .refused .notOrdinaryMemory ∨ runSteps is.length s = .refused .aliasedAddress
end

