-- ==== Sys2Proof/Laws/Decode.lean ====
section
/-! SUPPORT. The fields and bytes of an encoding: what the decoder reads of what the encoder writes, piece by piece. -/

namespace Sys2Proof

open Machine

/-! ## Lengths -/

@[simp] theorem length_prefixBytes (p : List LegacyPrefix) (rex : Option Rex) :
    (prefixBytes p rex).length = p.length + rexSize rex := by
  cases rex <;> simp [prefixBytes, rexSize]

@[simp] theorem length_rmBytes (reg : BitVec 3) (rm : RmOperand) :
    (RmOperand.bytes reg rm).length = RmOperand.size rm := by
  rcases rm with _ | (_ | ⟨_, d⟩ | ⟨_, _, _, d⟩ | _)
  · rfl
  · rfl
  · cases d <;> rfl
  · cases d <;> rfl
  · rfl

/-! ## Prefix bytes -/

@[simp] theorem decodeLegacyPrefix_byte (q : LegacyPrefix) : decodeLegacyPrefix q.byte = some q := by
  rcases q with _ | _ | _ | g | _ | _
  case seg => cases g <;> rfl
  all_goals rfl

/-- Every byte the decoder reads as a legacy prefix is the byte of what it reads. -/
theorem decodeLegacyPrefix_some_all :
    ((List.range 256).all fun n =>
      match decodeLegacyPrefix (BitVec.ofNat 8 n) with
      | some q => BitVec.ofNat 8 n == q.byte
      | none => true) = true := by
  decide +kernel

theorem decodeLegacyPrefix_some {b : Byte} {q : LegacyPrefix} (h : decodeLegacyPrefix b = some q) : b = q.byte := by
  have hb : BitVec.ofNat 8 b.toNat = b := by simp
  have := List.all_eq_true.1 decodeLegacyPrefix_some_all b.toNat (List.mem_range.2 b.isLt)
  simpa [hb, h] using this

@[simp] theorem decodeLegacyPrefix_rex (x : Rex) : decodeLegacyPrefix x.byte = none := by
  obtain ⟨w, r, x, b⟩ := x
  revert w r x b
  decide +kernel

@[simp] theorem decodeRex_byte (x : Rex) : decodeRex x.byte = some x := by
  obtain ⟨w, r, x, b⟩ := x
  revert w r x b
  decide +kernel

/-- Every byte the decoder reads as REX is the byte of what it reads. -/
theorem decodeRex_some_all :
    ((List.range 256).all fun n =>
      match decodeRex (BitVec.ofNat 8 n) with
      | some x => BitVec.ofNat 8 n == x.byte
      | none => true) = true := by
  decide +kernel

theorem decodeRex_some {b : Byte} {x : Rex} (h : decodeRex b = some x) : b = x.byte := by
  have hb : BitVec.ofNat 8 b.toNat = b := by simp
  have := List.all_eq_true.1 decodeRex_some_all b.toNat (List.mem_range.2 b.isLt)
  simpa [hb, h] using this

/-- The prefixes an encoding begins with are read back, whatever escape byte follows. -/
theorem takePrefixes_bytes (p : List LegacyPrefix) (b : Byte) (bs : List Byte) (h : decodeLegacyPrefix b = none) :
    takePrefixes (p.map LegacyPrefix.byte ++ b :: bs) = (p, b :: bs) := by
  induction p with
  | nil => simp [takePrefixes, h]
  | cons q p ih => simp [takePrefixes, ih]

/-- What the prefixes are read from. -/
theorem takePrefixes_append (bs : List Byte) :
    (takePrefixes bs).1.map LegacyPrefix.byte ++ (takePrefixes bs).2 = bs := by
  induction bs with
  | nil => rfl
  | cons b bs ih =>
    unfold takePrefixes
    split
    · rfl
    · rename_i hq
      simp [ih, decodeLegacyPrefix_some hq]

theorem takeRex_append (bs : List Byte) : (takeRex bs).1.toList.map Rex.byte ++ (takeRex bs).2 = bs := by
  cases bs with
  | nil => rfl
  | cons b bs =>
    cases hx : decodeRex b with
    | none => simp [takeRex, hx]
    | some x => simp [takeRex, decodeRex_some hx]

/-- REX, where there is one, is read back before an escape byte. -/
theorem takeRex_bytes (rex : Option Rex) (b : Byte) (bs : List Byte) (h : decodeRex b = none) :
    takeRex (rex.toList.map Rex.byte ++ b :: bs) = (rex, b :: bs) := by
  cases rex <;> simp [takeRex, h]

/-! ## Displacements -/

/-- Bit i of a displacement is bit i mod 8 of its byte i / 8. -/
theorem getLsbD_disp32Of (b0 b1 b2 b3 : Byte) (i : Nat) :
    (disp32Of b0 b1 b2 b3).getLsbD i =
      if i < 8 then b0.getLsbD i else if i < 16 then b1.getLsbD (i - 8)
      else if i < 24 then b2.getLsbD (i - 16) else b3.getLsbD (i - 24) := by
  have e : (disp32Of b0 b1 b2 b3).getLsbD i = (b3 ++ b2 ++ b1 ++ b0 : BitVec (8 + 8 + 8 + 8)).getLsbD i := rfl
  rw [e, BitVec.getLsbD_append, BitVec.getLsbD_append, BitVec.getLsbD_append]
  by_cases h1 : i < 8
  · rw [if_pos h1, if_pos h1]
  · rw [if_neg h1, if_neg h1]
    by_cases h2 : i < 16
    · rw [if_pos h2, if_pos (by omega)]
    · rw [if_neg h2, if_neg (by omega)]
      by_cases h3 : i < 24
      · rw [if_pos h3, if_pos (by omega)]
        congr 1
      · rw [if_neg h3, if_neg (by omega)]
        congr 1

theorem disp32Of_bytes (d : BitVec 32) :
    disp32Of (d.extractLsb' 0 8) (d.extractLsb' 8 8) (d.extractLsb' 16 8) (d.extractLsb' 24 8) = d := by
  refine BitVec.eq_of_getLsbD_eq fun i hi => ?_
  rw [getLsbD_disp32Of]
  simp only [BitVec.getLsbD_extractLsb']
  split
  · simp [*]
  · split
    · simp [show i - 8 < 8 by omega, show 8 + (i - 8) = i by omega]
    · split
      · simp [show i - 16 < 8 by omega, show 16 + (i - 16) = i by omega]
      · simp [show i - 24 < 8 by omega, show 24 + (i - 24) = i by omega]

theorem disp32Bytes_of (b0 b1 b2 b3 : Byte) : disp32Bytes (disp32Of b0 b1 b2 b3) = [b0, b1, b2, b3] := by
  have h : ∀ k b, (∀ i, i < 8 → (disp32Of b0 b1 b2 b3).getLsbD (k + i) = b.getLsbD i) →
      (disp32Of b0 b1 b2 b3).extractLsb' k 8 = b := fun k b hb =>
    BitVec.eq_of_getLsbD_eq fun i hi => by rw [BitVec.getLsbD_extractLsb', hb i hi]; simp [hi]
  have h0 := h 0 b0 fun i hi => by rw [getLsbD_disp32Of, if_pos (by omega)]; simp
  have h1 := h 8 b1 fun i hi => by
    rw [getLsbD_disp32Of, if_neg (by omega), if_pos (by omega)]; congr 1; omega
  have h2 := h 16 b2 fun i hi => by
    rw [getLsbD_disp32Of, if_neg (by omega), if_neg (by omega), if_pos (by omega)]; congr 1; omega
  have h3 := h 24 b3 fun i hi => by
    rw [getLsbD_disp32Of, if_neg (by omega), if_neg (by omega), if_neg (by omega)]; congr 1; omega
  rw [disp32Bytes, h0, h1, h2, h3]

theorem takeDisp32_bytes (d : BitVec 32) (bs : List Byte) : takeDisp32 (disp32Bytes d ++ bs) = some (d, bs) := by
  simp [disp32Bytes, takeDisp32, disp32Of_bytes]

/-! ## The fields of ModRM and SIB -/

theorem getLsbD_byte233 (a : BitVec 2) (b c : BitVec 3) (i : Nat) :
    (a ++ b ++ c : Byte).getLsbD i =
      if i < 3 then c.getLsbD i else if i < 6 then b.getLsbD (i - 3) else a.getLsbD (i - 6) := by
  have e : (a ++ b ++ c : Byte).getLsbD i = (a ++ b ++ c : BitVec (2 + 3 + 3)).getLsbD i := rfl
  rw [e, BitVec.getLsbD_append, BitVec.getLsbD_append]
  by_cases h1 : i < 3
  · rw [if_pos h1, if_pos h1]
  · rw [if_neg h1, if_neg h1]
    by_cases h2 : i < 6
    · rw [if_pos h2, if_pos (by omega)]
    · rw [if_neg h2, if_neg (by omega)]
      congr 1

/-- mod, reg and rm of a ModRM byte, and likewise ss, index and base of a SIB byte (30_encoding.md R83, R86). -/
theorem fields_byte233 (a : BitVec 2) (b c : BitVec 3) :
    ((a ++ b ++ c : Byte).extractLsb' 6 2 = a) ∧ ((a ++ b ++ c : Byte).extractLsb' 3 3 = b) ∧
      ((a ++ b ++ c : Byte).extractLsb' 0 3 = c) := by
  refine ⟨BitVec.eq_of_getLsbD_eq fun i hi => ?_, BitVec.eq_of_getLsbD_eq fun i hi => ?_,
    BitVec.eq_of_getLsbD_eq fun i hi => ?_⟩ <;>
    rw [BitVec.getLsbD_extractLsb', getLsbD_byte233, decide_eq_true hi, Bool.true_and]
  · rw [if_neg (by omega), if_neg (by omega), Nat.add_sub_cancel_left]
  · rw [if_neg (by omega), if_pos (by omega), Nat.add_sub_cancel_left]
  · rw [if_pos (by omega), Nat.zero_add]

/-- A byte is its three fields. -/
theorem byte233_fields (m : Byte) : (m.extractLsb' 6 2 ++ m.extractLsb' 3 3 ++ m.extractLsb' 0 3 : Byte) = m := by
  refine BitVec.eq_of_getLsbD_eq fun i hi => ?_
  rw [getLsbD_byte233]
  simp only [BitVec.getLsbD_extractLsb']
  by_cases h1 : i < 3
  · simp only [h1, if_true, decide_true, Bool.true_and, Nat.zero_add]
  · by_cases h2 : i < 6
    · have h3 : i - 3 < 3 := by omega
      have e : 3 + (i - 3) = i := by omega
      simp only [h1, h2, h3, e, if_true, if_false, decide_true, Bool.true_and]
    · have h3 : i - 6 < 2 := by omega
      have e : 6 + (i - 6) = i := by omega
      simp only [h1, h2, h3, e, if_false, decide_true, Bool.true_and]

/-! ## The r/m operand, both ways -/

theorem md_ne (d : Disp) : d.md ≠ 0b11#2 := by cases d <;> simp [Disp.md]

theorem md_zero {d : Disp} : d.md = 0b00#2 ↔ d = .none := by cases d <;> simp [Disp.md]

theorem takeDisp_bytes (d : Disp) (bs : List Byte) : takeDisp d.md (d.bytes ++ bs) = some (d, bs) := by
  cases d with
  | none => rfl
  | d8 v => rfl
  | d32 v => simp [takeDisp, Disp.md, Disp.bytes, takeDisp32_bytes]

theorem takeDisp32_inv {bs tail : List Byte} {d : BitVec 32} (h : takeDisp32 bs = some (d, tail)) :
    bs = disp32Bytes d ++ tail := by
  unfold takeDisp32 at h
  split at h <;> cases h
  rw [disp32Bytes_of]
  rfl

theorem takeDisp_inv {md : BitVec 2} (hmd : md ≠ 0b11#2) {bs tail : List Byte} {d : Disp}
    (h : takeDisp md bs = some (d, tail)) : bs = d.bytes ++ tail ∧ d.md = md := by
  unfold takeDisp at h
  split at h
  · rename_i e
    cases h
    exact ⟨rfl, e.symm⟩
  · split at h
    · rename_i e
      split at h <;> cases h
      exact ⟨rfl, e.symm⟩
    · simp only [Option.map_eq_some_iff] at h
      obtain ⟨⟨d', t'⟩, h1, h2⟩ := h
      cases h2
      refine ⟨takeDisp32_inv h1, ?_⟩
      simp only [Disp.md]
      revert md
      decide

theorem takeSib_bytes {ss : BitVec 2} {i b : BitVec 3} {d : Disp} (h : d ≠ .none ∨ b ≠ 0b101#3) (tail : List Byte)
    {sib : Byte} (hs : sib = (ss ++ i ++ b : Byte)) :
    takeSib d.md (sib :: (d.bytes ++ tail)) = some (.sib ss i b d, tail) := by
  obtain ⟨f1, f2, f3⟩ := fields_byte233 ss i b
  rw [← hs] at f1 f2 f3
  simp only [takeSib, f1, f2, f3, md_zero]
  rw [if_neg (show ¬(d = .none ∧ b = 0b101#3) from fun e => h.elim (· e.1) (· e.2)), takeDisp_bytes]
  rfl

theorem takeSib_bytes_noBase {ss : BitVec 2} {i : BitVec 3} (d : BitVec 32) (tail : List Byte) {sib : Byte}
    (hs : sib = (ss ++ i ++ 0b101#3 : Byte)) :
    takeSib 0b00#2 (sib :: (disp32Bytes d ++ tail)) = some (.sibNoBase ss i d, tail) := by
  obtain ⟨f1, f2, f3⟩ := fields_byte233 ss i 0b101#3
  rw [← hs] at f1 f2 f3
  simp only [takeSib, f1, f2, f3]
  rw [takeDisp32_bytes]
  rfl

/-- The bytes of an r/m operand are read back. -/
theorem takeRm_bytes (reg : BitVec 3) (rm : RmOperand) (h : rm.shaped = true) (tail : List Byte) :
    ∃ m bs, rm.bytes reg ++ tail = m :: bs ∧ takeRm m bs = some (rm, tail) ∧ m.extractLsb' 3 3 = reg := by
  rcases rm with r | (d | ⟨r, d⟩ | ⟨ss, i, b, d⟩ | ⟨ss, i, d⟩)
  · exact ⟨_, _, rfl, by simp [takeRm, fields_byte233], by simp [fields_byte233]⟩
  · exact ⟨_, _, rfl, by simp [takeRm, fields_byte233, takeDisp32_bytes], by simp [fields_byte233]⟩
  · simp only [RmOperand.shaped, AddrForm.shaped, Bool.and_eq_true, bne_iff_ne, Bool.or_eq_true] at h
    refine ⟨_, _, rfl, ?_, by simp [fields_byte233]⟩
    unfold takeRm
    simp only [fields_byte233, md_ne, if_false, h.1, md_zero]
    rw [if_neg (fun e => h.2.elim (· e.1) (· e.2))]
    simp [takeDisp_bytes]
  · simp only [RmOperand.shaped, AddrForm.shaped, Bool.or_eq_true, bne_iff_ne] at h
    refine ⟨_, _, rfl, ?_, by simp [fields_byte233]⟩
    unfold takeRm
    simp only [fields_byte233, md_ne, if_false]
    rw [if_pos trivial]
    exact congrArg (Option.map _) (takeSib_bytes h tail rfl)
  · refine ⟨_, _, rfl, ?_, by simp [fields_byte233]⟩
    unfold takeRm
    simp only [fields_byte233]
    rw [if_neg (by decide), if_pos trivial]
    exact congrArg (Option.map _) (takeSib_bytes_noBase d tail rfl)

theorem takeSib_inv {md : BitVec 2} (hmd : md ≠ 0b11#2) {bs tail : List Byte} {a : AddrForm}
    (h : takeSib md bs = some (a, tail)) {reg : BitVec 3} {m : Byte} (hm : m = md ++ reg ++ 0b100#3) :
    (RmOperand.mem a).shaped = true ∧ m :: bs = RmOperand.bytes reg (.mem a) ++ tail := by
  unfold takeSib at h
  split at h
  · cases h
  · rename_i sib bs
    split at h
    · rename_i e
      simp only [Option.map_eq_some_iff] at h
      obtain ⟨⟨d', t'⟩, h1, h2⟩ := h
      cases h2
      refine ⟨rfl, ?_⟩
      have hb := byte233_fields sib
      simp only [e.2] at hb
      rw [takeDisp32_inv h1, hm, e.1]
      simp only [RmOperand.bytes, List.cons_append]
      congr 2
      exact hb.symm
    · rename_i e
      simp only [Option.map_eq_some_iff] at h
      obtain ⟨⟨d', t'⟩, h1, h2⟩ := h
      cases h2
      obtain ⟨h3, h4⟩ := takeDisp_inv hmd h1
      refine ⟨?_, ?_⟩
      · simp only [RmOperand.shaped, AddrForm.shaped, Bool.or_eq_true, bne_iff_ne]
        by_contra hc
        simp only [not_or, not_not] at hc
        exact e ⟨by rw [← h4, hc.1]; rfl, hc.2⟩
      · rw [h3, hm, ← h4]
        simp only [RmOperand.bytes, List.cons_append]
        congr 2
        exact (byte233_fields sib).symm

/-- An r/m operand that is read is shaped, and its bytes are what it was read from. -/
theorem takeRm_inv {m : Byte} {bs tail : List Byte} {rm : RmOperand} (h : takeRm m bs = some (rm, tail)) :
    rm.shaped = true ∧ m :: bs = rm.bytes (m.extractLsb' 3 3) ++ tail := by
  have hb := byte233_fields m
  unfold takeRm at h
  split at h
  · rename_i e
    cases h
    rw [e] at hb
    exact ⟨rfl, congrArg (· :: bs) hb.symm⟩
  · rename_i e0
    split at h
    · rename_i e1
      simp only [Option.map_eq_some_iff] at h
      obtain ⟨⟨a, t'⟩, h1, h2⟩ := h
      cases h2
      rw [e1] at hb
      exact takeSib_inv e0 h1 hb.symm
    · rename_i e1
      split at h
      · rename_i e2
        simp only [Option.map_eq_some_iff] at h
        obtain ⟨⟨d, t'⟩, h1, h2⟩ := h
        cases h2
        rw [takeDisp32_inv h1]
        rw [e2.1, e2.2] at hb
        exact ⟨rfl, congrArg (· :: _) hb.symm⟩
      · rename_i e2
        simp only [Option.map_eq_some_iff] at h
        obtain ⟨⟨d, t'⟩, h1, h2⟩ := h
        cases h2
        obtain ⟨h3, h4⟩ := takeDisp_inv e0 h1
        refine ⟨?_, ?_⟩
        · simp only [RmOperand.shaped, AddrForm.shaped, Bool.and_eq_true, Bool.or_eq_true, bne_iff_ne]
          refine ⟨e1, ?_⟩
          by_contra hc
          simp only [not_or, not_not] at hc
          exact e2 ⟨by rw [← h4, hc.1]; rfl, hc.2⟩
        · rw [h3]
          rw [← h4] at hb
          exact congrArg (· :: _) hb.symm

/-! ## The prefixes and the escape -/

/-- Legacy prefixes and REX before an escape byte are read back. -/
theorem decode_prefixBytes {p : List LegacyPrefix} (rex : Option Rex) {b : Byte} (bs : List Byte)
    (hp : onePerGroup p = true) (h1 : decodeLegacyPrefix b = none) (h2 : decodeRex b = none) :
    decode (prefixBytes p rex ++ b :: bs) = decodeEscape p rex (b :: bs) := by
  have hp : (p.map LegacyPrefix.group).Nodup := of_decide_eq_true hp
  have hh : takePrefixes (prefixBytes p rex ++ b :: bs) = (p, rex.toList.map Rex.byte ++ b :: bs) := by
    unfold prefixBytes
    cases rex with
    | none => simpa using takePrefixes_bytes p b bs h1
    | some x => simpa using takePrefixes_bytes p x.byte (b :: bs) (by simp)
  unfold decode
  rw [hh]
  simp only [hp, if_true, takeRex_bytes rex b bs h2]

/-- Of the prefixes of four groups there are at most four. -/
theorem length_le_of_onePerGroup {p : List LegacyPrefix} (h : onePerGroup p = true) : p.length ≤ 4 := by
  have h : (p.map LegacyPrefix.group).Nodup := of_decide_eq_true h
  have hs : p.map LegacyPrefix.group ⊆ [.g1, .g2, .g3, .g4] := by
    intro g _
    cases g <;> simp
  simpa using (List.subperm_of_subset h hs).length_le

end Sys2Proof
end

