-- ==== Sys2Proof/Laws/Memory.lean ====
section
/-! SUPPORT. The laws of memory: read after write, the canonical form, and what loads and stores of many bytes see. -/

namespace Sys2Proof.Machine

/-! ## Cells -/

theorem readCell_insertCell_same (a : Nat) (b : Byte) (cs : List Host.Cell) (h : ∀ c ∈ cs, c.1 ≠ a) :
    readCell (insertCell a b cs) a = b := by
  induction cs with
  | nil => simp [insertCell, readCell]
  | cons c cs ih =>
    have hc : c.1 ≠ a := h c (by simp)
    have ih := ih fun d hd => h d (by simp [hd])
    unfold insertCell
    split
    · simp [readCell]
    · simp [readCell, hc, ih]

theorem readCell_insertCell_other {a x : Nat} (b : Byte) (cs : List Host.Cell) (h : x ≠ a) :
    readCell (insertCell a b cs) x = readCell cs x := by
  induction cs with
  | nil => simp [insertCell, readCell, Ne.symm h]
  | cons c cs ih =>
    unfold insertCell
    split
    · simp [readCell, Ne.symm h]
    · simp [readCell, ih]

theorem readCell_filter_other {a x : Nat} (cs : List Host.Cell) (h : x ≠ a) :
    readCell (cs.filter fun c => c.1 ≠ a) x = readCell cs x := by
  induction cs with
  | nil => rfl
  | cons c cs ih =>
    by_cases hc : c.1 = a
    · have : c.1 ≠ x := fun e => h (e.symm.trans hc)
      simpa [readCell, hc, this, Ne.symm h] using ih
    · simpa [readCell, hc] using by split <;> simp_all

theorem readCell_absent {a : Nat} (cs : List Host.Cell) (h : ∀ c ∈ cs, c.1 ≠ a) : readCell cs a = 0#8 := by
  induction cs with
  | nil => rfl
  | cons c cs ih => simpa [readCell, h c (by simp)] using ih fun d hd => h d (by simp [hd])

/-! ## One byte -/

theorem read_write_same (m : Memory) (a : Nat) (b : Byte) : (m.write a b).read a = b := by
  unfold Memory.write Memory.read
  split
  · rename_i hb
    subst hb
    exact readCell_absent _ (by simp)
  · exact readCell_insertCell_same _ _ _ (by simp)

theorem read_write_other {m : Memory} {a x : Nat} {b : Byte} (h : x ≠ a) : (m.write a b).read x = m.read x := by
  unfold Memory.write Memory.read
  split
  · exact readCell_filter_other _ h
  · exact (readCell_insertCell_other _ _ h).trans (readCell_filter_other _ h)

theorem read_write (m : Memory) (a x : Nat) (b : Byte) : (m.write a b).read x = if x = a then b else m.read x := by
  split
  · subst_vars
    exact read_write_same ..
  · exact read_write_other ‹_›

/-! ## The canonical form -/

theorem wf_iff (m : Memory) :
    m.wf = true ↔ (m.cells.map Prod.fst).Pairwise (· < ·) ∧ ∀ c ∈ m.cells, c.2 ≠ 0#8 := by
  simp [Memory.wf]

theorem mem_insertCell {a : Nat} {b : Byte} {cs : List Host.Cell} {c : Host.Cell} (h : c ∈ insertCell a b cs) :
    c = (a, b) ∨ c ∈ cs := by
  induction cs with
  | nil => simpa [insertCell] using h
  | cons d cs ih =>
    unfold insertCell at h
    split at h
    · simpa using h
    · rcases List.mem_cons.1 h with h | h
      · exact .inr (h ▸ List.mem_cons_self)
      · exact (ih h).imp id (List.mem_cons_of_mem _)

theorem pairwise_insertCell {a : Nat} {b : Byte} {cs : List Host.Cell}
    (h : (cs.map Prod.fst).Pairwise (· < ·)) (hn : ∀ c ∈ cs, c.1 ≠ a) :
    ((insertCell a b cs).map Prod.fst).Pairwise (· < ·) := by
  induction cs with
  | nil => simp [insertCell]
  | cons d cs ih =>
    obtain ⟨hd, ht⟩ := List.pairwise_cons.1 (show (d.1 :: cs.map Prod.fst).Pairwise (· < ·) from h)
    have hda : d.1 ≠ a := hn d (by simp)
    unfold insertCell
    split
    · rename_i hlt
      simp only [List.map_cons, List.pairwise_cons]
      refine ⟨fun x hx => ?_, fun x hx => hd x hx, ht⟩
      rcases List.mem_cons.1 hx with rfl | hx
      · exact hlt
      · exact Nat.lt_trans hlt (hd x hx)
    · rename_i hge
      simp only [List.map_cons, List.pairwise_cons]
      refine ⟨fun x hx => ?_, ih ht fun c hc => hn c (by simp [hc])⟩
      obtain ⟨c, hc, rfl⟩ := List.mem_map.1 hx
      rcases mem_insertCell hc with rfl | hc
      · exact Nat.lt_of_le_of_ne (Nat.le_of_not_lt hge) hda
      · exact hd _ (List.mem_map_of_mem hc)

theorem pairwise_filter {a : Nat} {cs : List Host.Cell} (h : (cs.map Prod.fst).Pairwise (· < ·)) :
    ((cs.filter fun c => c.1 ≠ a).map Prod.fst).Pairwise (· < ·) :=
  h.sublist (List.filter_sublist.map _)

/-- Writing a byte keeps the canonical form. -/
theorem write_wf {m : Memory} (a : Nat) (b : Byte) (h : m.wf = true) : (m.write a b).wf = true := by
  rw [wf_iff] at h ⊢
  obtain ⟨hp, hz⟩ := h
  unfold Memory.write
  split
  · exact ⟨pairwise_filter hp, fun c hc => hz c (List.mem_filter.1 hc).1⟩
  · rename_i hb
    refine ⟨pairwise_insertCell (pairwise_filter hp) (by simp), fun c hc => ?_⟩
    rcases mem_insertCell hc with rfl | hc
    · exact hb
    · exact hz c (List.mem_filter.1 hc).1

/-- A store keeps the canonical form. -/
theorem storeBytes_wf {m : Memory} (a : Nat) (en : Nat → Bool) (x : Vec) (n : Nat) (h : m.wf = true) :
    (storeBytes m a en x n).wf = true := by
  induction n with
  | zero => exact h
  | succ n ih =>
    unfold storeBytes
    split
    · exact write_wf _ _ ih
    · exact ih

theorem placeBytes_wf {m : Memory} (a : Nat) (bs : List Byte) (h : m.wf = true) : (placeBytes m a bs).wf = true := by
  induction bs generalizing m a with
  | nil => exact h
  | cons b bs ih => exact ih _ (write_wf _ _ h)

/-! ## Many bytes -/

/-- What a store of n bytes leaves at every address. -/
theorem read_storeBytes (m : Memory) (a : Nat) (en : Nat → Bool) (x : Vec) (n y : Nat) :
    (storeBytes m a en x n).read y =
      if a ≤ y ∧ y < a + n ∧ en ((y - a) / 8) = true then x.extractLsb' (8 * (y - a)) 8 else m.read y := by
  induction n with
  | zero =>
    have : ¬(a ≤ y ∧ y < a + 0 ∧ en ((y - a) / 8) = true) := by omega
    rw [if_neg this]
    rfl
  | succ n ih =>
    unfold storeBytes
    by_cases hy : y = a + n
    · subst hy
      have e : a + n - a = n := by omega
      split
      · rename_i hen
        rw [read_write_same, if_pos (by rw [e]; exact ⟨by omega, by omega, hen⟩), e]
      · rename_i hen
        rw [ih, if_neg (by omega), if_neg (by rw [e]; exact fun h => hen h.2.2)]
    · have key : (a ≤ y ∧ y < a + (n + 1) ∧ en ((y - a) / 8) = true) ↔
          (a ≤ y ∧ y < a + n ∧ en ((y - a) / 8) = true) :=
        ⟨fun h => ⟨h.1, by omega, h.2.2⟩, fun h => ⟨h.1, by omega, h.2.2⟩⟩
      simp only [key]
      split
      · rw [read_write_other hy, ih]
      · exact ih

/-- A byte of an enabled element is the stored one. -/
theorem read_storeBytes_in {m : Memory} {a : Nat} {en : Nat → Bool} {x : Vec} {n k : Nat} (hk : k < n)
    (he : en (k / 8) = true) : (storeBytes m a en x n).read (a + k) = x.extractLsb' (8 * k) 8 := by
  have e : a + k - a = k := by omega
  rw [read_storeBytes, if_pos (by rw [e]; exact ⟨by omega, by omega, he⟩), e]

/-- Every other byte is as before. -/
theorem read_storeBytes_out {m : Memory} {a y : Nat} {en : Nat → Bool} {x : Vec} {n : Nat}
    (h : ∀ k, k < n → en (k / 8) = true → y ≠ a + k) : (storeBytes m a en x n).read y = m.read y := by
  rw [read_storeBytes, if_neg]
  rintro ⟨h1, h2, h3⟩
  exact h (y - a) (by omega) h3 (by omega)

/-- Bit i of a load is bit i mod 8 of byte a + i / 8, where its element is enabled. -/
theorem getLsbD_loadBytes (m : Memory) (a : Nat) (en : Nat → Bool) (n i : Nat) (hn : n ≤ 64) :
    (loadBytes m a en n).getLsbD i =
      (decide (i < 8 * n) && (en (i / 64) && (m.read (a + i / 8)).getLsbD (i % 8))) := by
  induction n with
  | zero => simp [loadBytes]
  | succ n ih =>
    rw [loadBytes, BitVec.getLsbD_or, ih (by omega)]
    by_cases h1 : i < 8 * n
    · have : ¬ 8 * n ≤ i := by omega
      split <;> simp [h1, BitVec.getLsbD_shiftLeft, show i < 8 * (n + 1) by omega]
    · by_cases h2 : i < 8 * (n + 1)
      · have e1 : i / 8 = n := by omega
        have e2 : i / 64 = n / 8 := by omega
        have e3 : i % 8 = i - 8 * n := by omega
        split <;> rename_i hen
        · simp [h1, h2, hen, e1, e2, e3, show i < 512 by omega]
        · simp [h1, hen, e2]
      · split <;> simp [BitVec.getLsbD_shiftLeft, BitVec.getLsbD_setWidth, h1, h2]
        intro _ _
        exact BitVec.getLsbD_of_ge _ _ (by omega)

end Sys2Proof.Machine
end

