-- ==== Sys2Proof/Laws/State.lean ====
section
/-! SUPPORT. One lemma per field and update of the state. -/

namespace Sys2Proof.Machine

variable (s : State) (n : BitVec 5) (x : Vec) (len : Nat) (m : Memory) (t : TextRange)

/-! ## advance -/

@[simp] theorem advance_vregs : (s.advance len).vregs = s.vregs := rfl
@[simp] theorem advance_kregs : (s.advance len).kregs = s.kregs := rfl
@[simp] theorem advance_gprs : (s.advance len).gprs = s.gprs := rfl
@[simp] theorem advance_rip : (s.advance len).rip = s.rip + BitVec.ofNat 64 len := rfl
@[simp] theorem advance_rflags : (s.advance len).rflags = s.rflags := rfl
@[simp] theorem advance_mxcsr : (s.advance len).mxcsr = s.mxcsr := rfl
@[simp] theorem advance_cr0 : (s.advance len).cr0 = s.cr0 := rfl
@[simp] theorem advance_cr2 : (s.advance len).cr2 = s.cr2 := rfl
@[simp] theorem advance_cr4 : (s.advance len).cr4 = s.cr4 := rfl
@[simp] theorem advance_xcr0 : (s.advance len).xcr0 = s.xcr0 := rfl
@[simp] theorem advance_cpl : (s.advance len).cpl = s.cpl := rfl
@[simp] theorem advance_mode : (s.advance len).mode = s.mode := rfl
@[simp] theorem advance_cs : (s.advance len).cs = s.cs := rfl
@[simp] theorem advance_ds : (s.advance len).ds = s.ds := rfl
@[simp] theorem advance_es : (s.advance len).es = s.es := rfl
@[simp] theorem advance_ss : (s.advance len).ss = s.ss := rfl
@[simp] theorem advance_fs : (s.advance len).fs = s.fs := rfl
@[simp] theorem advance_gs : (s.advance len).gs = s.gs := rfl
@[simp] theorem advance_fsBase : (s.advance len).fsBase = s.fsBase := rfl
@[simp] theorem advance_gsBase : (s.advance len).gsBase = s.gsBase := rfl
@[simp] theorem advance_mem : (s.advance len).mem = s.mem := rfl
@[simp] theorem advance_text : (s.advance len).text = s.text := rfl
@[simp] theorem advance_cfg : (s.advance len).cfg = s.cfg := rfl
@[simp] theorem advance_choices : (s.advance len).choices = s.choices + 1 := rfl

/-! ## setV -/

@[simp] theorem setV_kregs : (s.setV n x).kregs = s.kregs := rfl
@[simp] theorem setV_gprs : (s.setV n x).gprs = s.gprs := rfl
@[simp] theorem setV_rip : (s.setV n x).rip = s.rip := rfl
@[simp] theorem setV_rflags : (s.setV n x).rflags = s.rflags := rfl
@[simp] theorem setV_mxcsr : (s.setV n x).mxcsr = s.mxcsr := rfl
@[simp] theorem setV_cr0 : (s.setV n x).cr0 = s.cr0 := rfl
@[simp] theorem setV_cr2 : (s.setV n x).cr2 = s.cr2 := rfl
@[simp] theorem setV_cr4 : (s.setV n x).cr4 = s.cr4 := rfl
@[simp] theorem setV_xcr0 : (s.setV n x).xcr0 = s.xcr0 := rfl
@[simp] theorem setV_cpl : (s.setV n x).cpl = s.cpl := rfl
@[simp] theorem setV_mode : (s.setV n x).mode = s.mode := rfl
@[simp] theorem setV_cs : (s.setV n x).cs = s.cs := rfl
@[simp] theorem setV_ds : (s.setV n x).ds = s.ds := rfl
@[simp] theorem setV_es : (s.setV n x).es = s.es := rfl
@[simp] theorem setV_ss : (s.setV n x).ss = s.ss := rfl
@[simp] theorem setV_fs : (s.setV n x).fs = s.fs := rfl
@[simp] theorem setV_gs : (s.setV n x).gs = s.gs := rfl
@[simp] theorem setV_fsBase : (s.setV n x).fsBase = s.fsBase := rfl
@[simp] theorem setV_gsBase : (s.setV n x).gsBase = s.gsBase := rfl
@[simp] theorem setV_mem : (s.setV n x).mem = s.mem := rfl
@[simp] theorem setV_text : (s.setV n x).text = s.text := rfl
@[simp] theorem setV_cfg : (s.setV n x).cfg = s.cfg := rfl
@[simp] theorem setV_choices : (s.setV n x).choices = s.choices := rfl

@[simp] theorem setV_vregs :
    (s.setV n x).vregs = s.vregs.set n.toNat (x &&& lowMask s.cfg.maxvl.bits) n.isLt := rfl

/-! ## The register reads see only their own field -/

@[simp] theorem advance_v (k : BitVec 5) : (s.advance len).v k = s.v k := rfl
@[simp] theorem advance_k (k : BitVec 3) : (s.advance len).k k = s.k k := rfl
@[simp] theorem advance_x (k : BitVec 4) : (s.advance len).x k = s.x k := rfl
@[simp] theorem setV_k (k : BitVec 3) : (s.setV n x).k k = s.k k := rfl
@[simp] theorem setV_x (k : BitVec 4) : (s.setV n x).x k = s.x k := rfl

/-- A register that is written reads as the MAXVL bits written to it. -/
@[simp] theorem setV_v_same : (s.setV n x).v n = x &&& lowMask s.cfg.maxvl.bits := by
  simp [State.v]

/-- A register that is not written keeps its value. -/
theorem setV_v_other (k : BitVec 5) (h : k ≠ n) : (s.setV n x).v k = s.v k := by
  have hk : n.toNat ≠ k.toNat := fun e => h (BitVec.eq_of_toNat_eq e.symm)
  simp [State.v, hk]

/-! ## A new memory -/

@[simp] theorem withMem_vregs : ({ s with mem := m } : State).vregs = s.vregs := rfl
@[simp] theorem withMem_kregs : ({ s with mem := m } : State).kregs = s.kregs := rfl
@[simp] theorem withMem_gprs : ({ s with mem := m } : State).gprs = s.gprs := rfl
@[simp] theorem withMem_rip : ({ s with mem := m } : State).rip = s.rip := rfl
@[simp] theorem withMem_rflags : ({ s with mem := m } : State).rflags = s.rflags := rfl
@[simp] theorem withMem_mxcsr : ({ s with mem := m } : State).mxcsr = s.mxcsr := rfl
@[simp] theorem withMem_cr0 : ({ s with mem := m } : State).cr0 = s.cr0 := rfl
@[simp] theorem withMem_cr2 : ({ s with mem := m } : State).cr2 = s.cr2 := rfl
@[simp] theorem withMem_cr4 : ({ s with mem := m } : State).cr4 = s.cr4 := rfl
@[simp] theorem withMem_xcr0 : ({ s with mem := m } : State).xcr0 = s.xcr0 := rfl
@[simp] theorem withMem_cpl : ({ s with mem := m } : State).cpl = s.cpl := rfl
@[simp] theorem withMem_mode : ({ s with mem := m } : State).mode = s.mode := rfl
@[simp] theorem withMem_cs : ({ s with mem := m } : State).cs = s.cs := rfl
@[simp] theorem withMem_ds : ({ s with mem := m } : State).ds = s.ds := rfl
@[simp] theorem withMem_es : ({ s with mem := m } : State).es = s.es := rfl
@[simp] theorem withMem_ss : ({ s with mem := m } : State).ss = s.ss := rfl
@[simp] theorem withMem_fs : ({ s with mem := m } : State).fs = s.fs := rfl
@[simp] theorem withMem_gs : ({ s with mem := m } : State).gs = s.gs := rfl
@[simp] theorem withMem_fsBase : ({ s with mem := m } : State).fsBase = s.fsBase := rfl
@[simp] theorem withMem_gsBase : ({ s with mem := m } : State).gsBase = s.gsBase := rfl
@[simp] theorem withMem_mem : ({ s with mem := m } : State).mem = m := rfl
@[simp] theorem withMem_text : ({ s with mem := m } : State).text = s.text := rfl
@[simp] theorem withMem_cfg : ({ s with mem := m } : State).cfg = s.cfg := rfl
@[simp] theorem withMem_choices : ({ s with mem := m } : State).choices = s.choices := rfl
@[simp] theorem withMem_v (k : BitVec 5) : ({ s with mem := m } : State).v k = s.v k := rfl
@[simp] theorem withMem_k (k : BitVec 3) : ({ s with mem := m } : State).k k = s.k k := rfl

/-! ## Placing a program -/

@[simp] theorem withProgram_vregs (bs : List Byte) : (s.withProgram bs).vregs = s.vregs := rfl
@[simp] theorem withProgram_kregs (bs : List Byte) : (s.withProgram bs).kregs = s.kregs := rfl
@[simp] theorem withProgram_gprs (bs : List Byte) : (s.withProgram bs).gprs = s.gprs := rfl
@[simp] theorem withProgram_rip (bs : List Byte) : (s.withProgram bs).rip = s.rip := rfl
@[simp] theorem withProgram_rflags (bs : List Byte) : (s.withProgram bs).rflags = s.rflags := rfl
@[simp] theorem withProgram_mxcsr (bs : List Byte) : (s.withProgram bs).mxcsr = s.mxcsr := rfl
@[simp] theorem withProgram_cr0 (bs : List Byte) : (s.withProgram bs).cr0 = s.cr0 := rfl
@[simp] theorem withProgram_cr2 (bs : List Byte) : (s.withProgram bs).cr2 = s.cr2 := rfl
@[simp] theorem withProgram_cr4 (bs : List Byte) : (s.withProgram bs).cr4 = s.cr4 := rfl
@[simp] theorem withProgram_xcr0 (bs : List Byte) : (s.withProgram bs).xcr0 = s.xcr0 := rfl
@[simp] theorem withProgram_cpl (bs : List Byte) : (s.withProgram bs).cpl = s.cpl := rfl
@[simp] theorem withProgram_mode (bs : List Byte) : (s.withProgram bs).mode = s.mode := rfl
@[simp] theorem withProgram_cs (bs : List Byte) : (s.withProgram bs).cs = s.cs := rfl
@[simp] theorem withProgram_ds (bs : List Byte) : (s.withProgram bs).ds = s.ds := rfl
@[simp] theorem withProgram_es (bs : List Byte) : (s.withProgram bs).es = s.es := rfl
@[simp] theorem withProgram_ss (bs : List Byte) : (s.withProgram bs).ss = s.ss := rfl
@[simp] theorem withProgram_fs (bs : List Byte) : (s.withProgram bs).fs = s.fs := rfl
@[simp] theorem withProgram_gs (bs : List Byte) : (s.withProgram bs).gs = s.gs := rfl
@[simp] theorem withProgram_fsBase (bs : List Byte) : (s.withProgram bs).fsBase = s.fsBase := rfl
@[simp] theorem withProgram_gsBase (bs : List Byte) : (s.withProgram bs).gsBase = s.gsBase := rfl
@[simp] theorem withProgram_cfg (bs : List Byte) : (s.withProgram bs).cfg = s.cfg := rfl
@[simp] theorem withProgram_choices (bs : List Byte) : (s.withProgram bs).choices = s.choices := rfl
@[simp] theorem withProgram_mem (bs : List Byte) :
    (s.withProgram bs).mem = placeBytes s.mem s.rip.toNat bs := rfl
@[simp] theorem withProgram_text (bs : List Byte) :
    (s.withProgram bs).text = { base := s.rip, size := firstLength bs } := rfl

end Sys2Proof.Machine
end

