-- ==== Sys2Proof/Laws/Vector.lean ====
section
/-! SUPPORT. What the vector operations leave, bit by bit. -/

namespace Sys2Proof.Machine

theorem getLsbD_lowMask {n : Nat} (hn : n ≤ 512) (i : Nat) : (lowMask n).getLsbD i = decide (i < n) := by
  simp only [lowMask, BitVec.getLsbD_ushiftRight, BitVec.getLsbD_allOnes]
  exact decide_eq_decide.2 (by omega)

theorem maxvl_le (m : MaxVl) : m.bits ≤ 512 := by cases m <;> decide

theorem getLsbD_zeroUpper {vl : Nat} (h : vl ≤ 512) (src : Vec) (i : Nat) :
    (zeroUpper vl src).getLsbD i = (src.getLsbD i && decide (i < vl)) := by
  simp [zeroUpper, getLsbD_lowMask h]

theorem getLsbD_keepUpper {vl : Nat} (h : vl ≤ 512) (old src : Vec) (i : Nat) :
    (keepUpper vl old src).getLsbD i = if i < vl then src.getLsbD i else old.getLsbD i := by
  simp only [keepUpper, BitVec.getLsbD_or, BitVec.getLsbD_and, BitVec.getLsbD_not, getLsbD_lowMask h]
  by_cases hi : i < 512
  · by_cases hv : i < vl <;> simp only [hi, hv, decide_true, decide_false, if_true, if_false] <;> simp
  · have hv : ¬ i < vl := by omega
    simp [hv, BitVec.getLsbD_of_ge old i (by omega)]

theorem getLsbD_element (x : Vec) (j i : Nat) : (element x j).getLsbD i = (decide (i < 64) && x.getLsbD (64 * j + i)) := by
  simp [element]

/-- Bit i of the masked result of 42_vmovupd_evex.md R133. -/
theorem getLsbD_evexMerge (old src : Vec) (en : Nat → Bool) (z : Bool) (n i : Nat) (hn : n ≤ 8) :
    (evexMerge old src en z n).getLsbD i =
      (decide (i < 64 * n) &&
        if en (i / 64) then src.getLsbD i else if z then false else old.getLsbD i) := by
  induction n with
  | zero => simp [evexMerge]
  | succ n ih =>
    rw [evexMerge, BitVec.getLsbD_or, ih (by omega)]
    by_cases h1 : i < 64 * n
    · simp [h1, show i < 64 * (n + 1) by omega]
    · by_cases h2 : i < 64 * (n + 1)
      · have e1 : i / 64 = n := by omega
        have e2 : 64 * n + (i - 64 * n) = i := by omega
        simp only [BitVec.getLsbD_shiftLeft, BitVec.getLsbD_setWidth, h1, h2, e1, maskedElement]
        have a1 : i < 512 := by omega
        have a2 : i - 64 * n < 512 := by omega
        have a3 : i - 64 * n < 64 := by omega
        split
        · simp only [getLsbD_element, a1, a2, a3, e2]
          simp
        · split
          · simp
          · simp only [getLsbD_element, a1, a2, a3, e2]
            simp
      · simp [h1, h2]
        intro _ _
        exact BitVec.getLsbD_of_ge _ _ (by omega)

/-- Bit i of a register that has been written. -/
theorem getLsbD_setV_v (s : State) (n : BitVec 5) (x : Vec) (i : Nat) :
    ((s.setV n x).v n).getLsbD i = (x.getLsbD i && decide (i < s.cfg.maxvl.bits)) := by
  rw [setV_v_same, BitVec.getLsbD_and, getLsbD_lowMask (maxvl_le _)]

end Sys2Proof.Machine
end

