-- ==== Sys2Proof/Laws/Ops.lean ====
section
/-! SUPPORT. For each shared operation, once, what it can do. -/

namespace Sys2Proof.Machine

/-! ## choose -/

theorem mem_distinct {x : Stop} {l : List Stop} : x ∈ distinct l ↔ x ∈ l := by
  induction l with
  | nil => simp [distinct]
  | cons y l ih =>
    unfold distinct
    split
    · rename_i h
      rw [ih]
      constructor
      · exact List.mem_cons_of_mem _
      · rintro (_ | ⟨_, h'⟩)
        · exact ih.1 h
        · exact h'
    · simp [ih]

/-- A choice is the default or one of the listed stops. -/
theorem pickFrom_cases (c : Nat) (d : Option Stop) (l : List Stop) :
    pickFrom c d l = d ∨ ∃ x ∈ l, pickFrom c d l = some x := by
  cases l with
  | nil => exact .inl rfl
  | cons x xs =>
    have hlt : c % (xs.length + 2) < (d :: (x :: xs).map some).length := by
      simpa using Nat.le_of_lt_succ (Nat.mod_lt c (show 0 < xs.length + 2 by omega))
    have hm : pickFrom c d (x :: xs) ∈ d :: (x :: xs).map some := by
      rw [pickFrom, List.getD_eq_getElem _ _ hlt]
      exact List.getElem_mem hlt
    rcases List.mem_cons.1 hm with h | h
    · exact .inl h
    · obtain ⟨y, hy, he⟩ := List.mem_map.1 h
      exact .inr ⟨y, hy, he.symm⟩

/-- Every listed stop, and the default, is what some choice gives. -/
theorem pickFrom_reaches {d : Option Stop} {l : List Stop} {o : Option Stop} (h : o = d ∨ ∃ x ∈ l, o = some x) :
    ∃ c, pickFrom c d l = o := by
  cases l with
  | nil => simpa [pickFrom, eq_comm] using h
  | cons x xs =>
    have hm : o ∈ d :: (x :: xs).map some := by
      rcases h with rfl | ⟨y, hy, rfl⟩
      · exact List.mem_cons_self
      · exact List.mem_cons_of_mem _ (List.mem_map_of_mem hy)
    obtain ⟨c, hc, he⟩ := List.getElem_of_mem hm
    have hl : (d :: (x :: xs).map some).length = xs.length + 2 := by simp
    refine ⟨c, ?_⟩
    rw [pickFrom, Nat.mod_eq_of_lt (hl ▸ hc), List.getD_eq_getElem _ _ hc, he]

@[simp] theorem choose_nil (c : Nat) : choose c [] [] = none := rfl

/-- Where a stop must happen, one of the listed stops happens. -/
theorem choose_must {c : Nat} {must may : List Stop} (h : must ≠ []) :
    ∃ st, choose c must may = some st ∧ (st ∈ must ∨ st ∈ may) := by
  cases must with
  | nil => exact absurd rfl h
  | cons m ms =>
    rcases pickFrom_cases c (some m) (distinct ((ms ++ may).filter (· ≠ m))) with hd | ⟨x, hx, hp⟩
    · exact ⟨m, hd, .inl List.mem_cons_self⟩
    · refine ⟨x, hp, ?_⟩
      have := (List.mem_filter.1 (mem_distinct.1 hx)).1
      exact (List.mem_append.1 this).imp (List.mem_cons_of_mem _) id

/-- Where none must happen, the outcome is to go on or one of the optional stops. -/
theorem choose_may (c : Nat) (may : List Stop) :
    choose c [] may = none ∨ ∃ st ∈ may, choose c [] may = some st := by
  rcases pickFrom_cases c none (distinct may) with h | ⟨x, hx, h⟩
  · exact .inl h
  · exact .inr ⟨x, mem_distinct.1 hx, h⟩

theorem choose_some {c : Nat} {must may : List Stop} {st : Stop} (h : choose c must may = some st) :
    st ∈ must ∨ st ∈ may := by
  by_cases hm : must = []
  · subst hm
    rcases choose_may c may with h' | ⟨x, hx, h'⟩ <;> rw [h] at h'
    · cases h'
    · cases h'
      exact .inr hx
  · obtain ⟨x, hx, hmem⟩ := choose_must (c := c) (may := may) hm
    rw [h] at hx
    cases hx
    exact hmem

theorem choose_none {c : Nat} {must may : List Stop} (h : choose c must may = none) : must = [] := by
  by_contra hm
  obtain ⟨x, hx, _⟩ := choose_must (c := c) (may := may) hm
  rw [h] at hx
  cases hx

/-! ## front and guarded -/

/-- A form that is legal, available, short enough and not stopped by CR0.TS goes on in 64-bit mode. -/
theorem front_none {s : State} {vexLike : Bool} {len : Nat} (hm : s.mode = .bits64) (hl : len ≤ 15)
    (ht : s.cr0.getLsbD 3 = false) : front s vexLike false len = none := by
  have ht : s.cr0Ts = false := ht
  simp [front, hm, ht, show ¬ 15 < len by omega]

/-- A form goes on only in 64-bit mode, legal and available, at most 15 bytes long, with CR0.TS = 0. -/
theorem front_eq_none {s : State} {vexLike ud : Bool} {len : Nat} (h : front s vexLike ud len = none) :
    s.mode = .bits64 ∧ ud = false ∧ len ≤ 15 ∧ s.cr0.getLsbD 3 = false := by
  unfold front at h
  split at h
  · rename_i hm
    split at h
    · cases h
    · rename_i hc
      have hn := choose_none hc
      simp only [List.append_eq_nil_iff, ite_eq_right_iff] at hn
      refine ⟨hm, ?_, ?_, ?_⟩
      · simpa using hn.1
      · simpa using hn.2
      · simpa [State.cr0Ts] using h
  all_goals first | (split at h <;> cases h) | cases h

/-- An illegal or unavailable form of at most 15 bytes raises #UD in 64-bit mode. -/
theorem front_ud {s : State} {vexLike : Bool} {len : Nat} (hm : s.mode = .bits64) (hl : len ≤ 15) :
    front s vexLike true len = some (raise s .ud) := by
  simp [front, hm, show ¬ 15 < len by omega, choose, pickFrom, distinct]

/-- A legal and available form of at most 15 bytes raises #NM where CR0.TS = 1. -/
theorem front_nm {s : State} {vexLike : Bool} {len : Nat} (hm : s.mode = .bits64) (hl : len ≤ 15)
    (ht : s.cr0.getLsbD 3 = true) : front s vexLike false len = some (raise s .nm) := by
  have ht : s.cr0Ts = true := ht
  simp [front, hm, ht, show ¬ 15 < len by omega]

/-- A legal and available form above 15 bytes raises #GP(0). -/
theorem front_gp {s : State} {vexLike : Bool} {len : Nat} (hm : s.mode = .bits64) (hl : 15 < len) :
    front s vexLike false len = some (raise s .gp) := by
  simp [front, hm, hl, choose, pickFrom, distinct]

/-- An illegal or unavailable form above 15 bytes raises one of the two. -/
theorem front_ud_or_gp {s : State} {vexLike : Bool} {len : Nat} (hm : s.mode = .bits64) (hl : 15 < len) :
    front s vexLike true len = some (raise s .ud) ∨ front s vexLike true len = some (raise s .gp) := by
  obtain ⟨st, hs, hmem⟩ := choose_must (c := Config.freeChoice s.choices) (must := [raise s .ud, raise s .gp])
    (may := []) (by simp)
  have : front s vexLike true len = some st := by
    simp [front, hm, hl, hs]
  rcases hmem with h | h
  · rcases List.mem_cons.1 h with rfl | h
    · exact .inl this
    · exact .inr (by rw [this, List.mem_singleton.1 h])
  · cases h

@[simp] theorem guarded_none {s : State} {vexLike ud : Bool} {len : Nat} {k : Result}
    (h : front s vexLike ud len = none) : guarded s vexLike ud len k = k := by
  simp [guarded, h]

@[simp] theorem guarded_some {s : State} {vexLike ud : Bool} {len : Nat} {k : Result} {st : Stop}
    (h : front s vexLike ud len = some st) : guarded s vexLike ud len k = st.outcome := by
  simp [guarded, h]

@[simp] theorem outcome_ne_next (st : Stop) (t : State) : st.outcome ≠ .next t := by
  cases st <;> simp [Stop.outcome]

/-- What a guarded operation that completes has passed. -/
theorem guarded_next {s t : State} {vexLike ud : Bool} {len : Nat} {k : Result}
    (h : guarded s vexLike ud len k = .next t) : k = .next t ∧ front s vexLike ud len = none := by
  unfold guarded at h
  split at h
  · exact absurd h (outcome_ne_next _ _)
  · exact ⟨h, ‹_›⟩

/-! ## Faults report rip -/

/-- The stop, where it is a fault, reports the state's rip. -/
def Stop.at (st : Stop) (s : State) : Prop := ∀ f, st = .fault f → f.rip = s.rip

theorem raise_at (s : State) (e : Exception) : (raise s e).at s := by
  intro f hf
  cases e <;> cases hf <;> rfl

theorem refuse_at (s : State) (r : Refusal) : (Stop.refuse r).at s := fun _ h => nomatch h

theorem accessStop_at {s : State} {kind : AccessKind} {b : Bool} {a : Nat} {st : Stop}
    (h : accessStop s kind b a = some st) : st.at s := by
  unfold accessStop at h
  split at h
  · split at h <;> cases h
    · exact raise_at _ _
    · exact refuse_at _ _
    · exact refuse_at _ _
  · cases h
    exact raise_at _ _

theorem mem_failures {s : State} {kind : AccessKind} {r : MemRef} {sel : Nat → Bool} {st : Stop} :
    st ∈ failures s kind r sel ↔
      ∃ k, k < r.size ∧ sel (k / 8) = true ∧ accessStop s kind r.stack (r.ea.toNat + k) = some st := by
  simp [failures, List.mem_filterMap, and_assoc]

theorem mem_optionalFailures {s : State} {kind : AccessKind} {r : MemRef} {en : Nat → Bool} {st : Stop} :
    st ∈ optionalFailures s kind r en ↔
      (s.acEnabled = true ∧ r.ea.toNat % r.size ≠ 0 ∧ st = raise s .ac) ∨
      (s.cfg.suppression = .either ∧ st ∈ failures s kind r fun j => !en j) := by
  unfold optionalFailures
  rw [List.mem_append]
  refine or_congr ?_ ?_
  · by_cases h : (s.acEnabled && r.ea.toNat % r.size != 0) = true
    · rw [if_pos h]
      simp only [Bool.and_eq_true, bne_iff_ne] at h
      simp [h]
    · rw [if_neg h]
      simp only [Bool.and_eq_true, bne_iff_ne] at h
      simp only [List.not_mem_nil, false_iff]
      exact fun ⟨h1, h2, _⟩ => h ⟨h1, h2⟩
  · cases s.cfg.suppression <;> simp

theorem memStop_at {s : State} {kind : AccessKind} {r : MemRef} {en : Nat → Bool} {st : Stop}
    (h : memStop s kind r en = some st) : st.at s := by
  have hf : ∀ {sel}, st ∈ failures s kind r sel → st.at s := fun h =>
    let ⟨_, _, _, h⟩ := mem_failures.1 h
    accessStop_at h
  rcases choose_some h with h | h
  · exact hf h
  · rcases mem_optionalFailures.1 h with ⟨_, _, rfl⟩ | ⟨_, h⟩
    · exact raise_at _ _
    · exact hf h

theorem front_at {s : State} {vexLike ud : Bool} {len : Nat} {st : Stop}
    (h : front s vexLike ud len = some st) : st.at s := by
  unfold front at h
  split at h
  · split at h
    · rename_i hc
      cases h
      rcases choose_some hc with hm | hm
      · rcases List.mem_append.1 hm with hm | hm <;> split at hm <;>
          first | (cases List.mem_singleton.1 hm; exact raise_at _ _) | cases hm
      · cases hm
    · split at h <;> cases h
      exact raise_at _ _
  all_goals
    first
    | (cases h; exact refuse_at _ _)
    | (split at h <;> cases h <;> first | exact raise_at _ _ | exact refuse_at _ _)

theorem outcome_fault {st : Stop} {f : Fault} (h : st.outcome = .fault f) : st = .fault f := by
  cases st <;> cases h
  rfl

/-! ## Accesses -/

theorem accessStop_eq_none {s : State} {kind : AccessKind} {b : Bool} {a : Nat} :
    accessStop s kind b a = none ↔ canonical s.cfg.la a = true ∧ accessAt s.cfg.access kind a = .ok := by
  unfold accessStop
  cases hc : canonical s.cfg.la a
  · simp
  · cases ha : accessAt s.cfg.access kind a <;> simp

theorem failures_eq_nil {s : State} {kind : AccessKind} {r : MemRef} {sel : Nat → Bool} :
    failures s kind r sel = [] ↔
      ∀ k, k < r.size → sel (k / 8) = true → accessStop s kind r.stack (r.ea.toNat + k) = none := by
  rw [List.eq_nil_iff_forall_not_mem]
  constructor
  · intro h k hk hs
    cases ha : accessStop s kind r.stack (r.ea.toNat + k) with
    | none => rfl
    | some st => exact absurd (mem_failures.2 ⟨k, hk, hs, ha⟩) (h st)
  · intro h st hst
    obtain ⟨k, hk, hs, ha⟩ := mem_failures.1 hst
    rw [h k hk hs] at ha
    cases ha

/-- An access whose checks pass is made. -/
theorem memStop_none {s : State} {kind : AccessKind} {r : MemRef} {en : Nat → Bool} (h : Accessible s kind r en) :
    memStop s kind r en = none := by
  have h1 : failures s kind r en = [] :=
    failures_eq_nil.2 fun k hk he => accessStop_eq_none.2 (h.passes k hk (.inl he))
  have h2 : optionalFailures s kind r en = [] := by
    rw [List.eq_nil_iff_forall_not_mem]
    intro st hst
    rcases mem_optionalFailures.1 hst with ⟨ha, hm, _⟩ | ⟨he, hst⟩
    · rcases h.aligned with h' | h'
      · rw [h'] at ha
        cases ha
      · exact hm h'
    · obtain ⟨k, hk, _, hs⟩ := mem_failures.1 hst
      rw [accessStop_eq_none.2 (h.passes k hk (.inr he))] at hs
      cases hs
  rw [memStop, h1, h2]
  rfl

theorem load_ok {s : State} {r : MemRef} {en : Nat → Bool} (h : Accessible s .read r en) :
    load s r en = .ok (loadBytes s.mem r.ea.toNat en r.size) := by
  simp [load, memStop_none h]

theorem overlapsText_eq_false {s : State} {r : MemRef} {en : Nat → Bool} :
    overlapsText s r en = false ↔
      ∀ k, k < r.size → en (k / 8) = true → s.text.has (r.ea.toNat + k) = false := by
  simp [overlapsText]

theorem store_ok {s : State} {r : MemRef} {en : Nat → Bool} {x : Vec} (h : Storable s r en) :
    store s r en x = .ok { s with mem := storeBytes s.mem r.ea.toNat en x r.size } := by
  simp [store, memStop_none h.accessible, overlapsText_eq_false.2 h.offText]

/-- A store that is made: it wrote the enabled bytes, none of them in the text. -/
theorem store_inv {s t : State} {r : MemRef} {en : Nat → Bool} {x : Vec} (h : store s r en x = .ok t) :
    t = { s with mem := storeBytes s.mem r.ea.toNat en x r.size } ∧
      ∀ k, k < r.size → en (k / 8) = true → s.text.has (r.ea.toNat + k) = false := by
  unfold store at h
  split at h
  · cases h
  · split at h
    · cases h
    · rename_i ho
      cases h
      exact ⟨rfl, overlapsText_eq_false.1 (by simpa using ho)⟩

theorem load_error_at {s : State} {r : MemRef} {en : Nat → Bool} {st : Stop} (h : load s r en = .error st) : st.at s := by
  unfold load at h
  split at h
  · cases h
    exact memStop_at ‹_›
  · cases h

theorem store_error_at {s : State} {r : MemRef} {en : Nat → Bool} {x : Vec} {st : Stop}
    (h : store s r en x = .error st) : st.at s := by
  unfold store at h
  split at h
  · cases h
    exact memStop_at ‹_›
  · split at h <;> cases h
    exact refuse_at _ _

/-! ## Completing -/

theorem toReg_next {s t : State} {len : Nat} {d : BitVec 5} {upd : Vec → Vec} {src : Except Stop Vec}
    (h : toReg s len d upd src = .next t) : ∃ x, src = .ok x ∧ t = (s.setV d (upd x)).advance len := by
  cases src with
  | error st => exact absurd h (outcome_ne_next _ _)
  | ok x =>
    cases h
    exact ⟨x, rfl, rfl⟩

theorem toMem_next {t : State} {len : Nat} {u : Except Stop State}
    (h : toMem len u = .next t) : ∃ m, u = .ok m ∧ t = m.advance len := by
  cases u with
  | error st => exact absurd h (outcome_ne_next _ _)
  | ok m =>
    cases h
    exact ⟨m, rfl, rfl⟩

end Sys2Proof.Machine
end

