-- ==== Sys2Proof/Laws/Exec.lean ====
section
/-! SUPPORT. What an instruction that completes can have done: one inversion for each shared form, one for `exec`. -/

namespace Sys2Proof.Machine

/-- The two ways to complete: V[d] is written, or the enabled bytes of a value are stored. -/
inductive Effect (s : State) (len : Nat) (dest : Option (BitVec 5)) (acc : Option MemAccess) (t : State) : Prop where
  | register (d : BitVec 5) (x : Vec) (hd : dest = some d) (ht : t = (s.setV d x).advance len)
  | memory (r : MemRef) (en : Nat → Bool) (x : Vec) (m : State) (hd : dest = none)
      (ha : acc = some { kind := .write, ref := r, en := en }) (hs : store s r en x = .ok m) (ht : t = m.advance len)

/-- What held of a form that completed. -/
structure Passed (s : State) (legal avail : Bool) (len : Nat) : Prop where
  mode : s.mode = .bits64
  legal : legal = true
  available : avail = true
  length : len ≤ 15
  ts : s.cr0.getLsbD 3 = false

theorem passed_of_front {s : State} {vexLike legal avail : Bool} {len : Nat}
    (h : front s vexLike (!legal || !avail) len = none) : Passed s legal avail len := by
  obtain ⟨hm, hu, hl, ht⟩ := front_eq_none h
  simp only [Bool.or_eq_false_iff, Bool.not_eq_false'] at hu
  exact ⟨hm, hu.1, hu.2, hl, ht⟩

theorem sseRegRm_next {c : Enc} {reg : BitVec 3} {rm : RmOperand} {s t : State} (h : sseRegRm c reg rm s = .next t)
    (acc : Option MemAccess) :
    Effect s c.len (some (c.ext.regNum reg)) acc t ∧ Passed s (sseLegal c.p) s.sseAvailable c.len := by
  obtain ⟨h, hf⟩ := guarded_next h
  obtain ⟨x, _, rfl⟩ := toReg_next h
  exact ⟨.register _ _ rfl rfl, passed_of_front hf⟩

theorem sseRmReg_next {c : Enc} {reg : BitVec 3} {rm : RmOperand} {s t : State} (h : sseRmReg c reg rm s = .next t) :
    (match rm with
      | .reg d => Effect s c.len (some (c.ext.rmNum d)) none t
      | .mem a => Effect s c.len none (accessOf .write s c 16 everyElement (.mem a)) t) ∧
    Passed s (sseLegal c.p) s.sseAvailable c.len := by
  obtain ⟨h, hf⟩ := guarded_next h
  refine ⟨?_, passed_of_front hf⟩
  cases rm with
  | reg d =>
    obtain ⟨x, _, rfl⟩ := toReg_next h
    exact .register _ _ rfl rfl
  | mem a =>
    obtain ⟨m, hs, rfl⟩ := toMem_next h
    exact .memory _ _ _ m rfl rfl hs rfl

theorem vexRegRm_next {vl : Nat} {c : Enc} {legal : Bool} {reg : BitVec 3} {rm : RmOperand} {s t : State}
    (h : vexRegRm vl c legal reg rm s = .next t) (acc : Option MemAccess) :
    Effect s c.len (some (c.ext.regNum reg)) acc t ∧ Passed s legal s.vexAvailable c.len := by
  obtain ⟨h, hf⟩ := guarded_next h
  obtain ⟨x, _, rfl⟩ := toReg_next h
  exact ⟨.register _ _ rfl rfl, passed_of_front hf⟩

theorem vexRmReg_next {vl : Nat} {c : Enc} {legal : Bool} {reg : BitVec 3} {rm : RmOperand} {s t : State}
    (h : vexRmReg vl c legal reg rm s = .next t) :
    (match rm with
      | .reg d => Effect s c.len (some (c.ext.rmNum d)) none t
      | .mem a => Effect s c.len none (accessOf .write s c (vl / 8) everyElement (.mem a)) t) ∧
    Passed s legal s.vexAvailable c.len := by
  obtain ⟨h, hf⟩ := guarded_next h
  refine ⟨?_, passed_of_front hf⟩
  cases rm with
  | reg d =>
    obtain ⟨x, _, rfl⟩ := toReg_next h
    exact .register _ _ rfl rfl
  | mem a =>
    obtain ⟨m, hs, rfl⟩ := toMem_next h
    exact .memory _ _ _ m rfl rfl hs rfl

theorem evexRegRm_next {vl : Nat} {p : List LegacyPrefix} {rex : Option Rex} {e : Evex} {reg : BitVec 3}
    {rm : RmOperand} {s t : State} (h : evexRegRm vl p rex e reg rm s = .next t) (acc : Option MemAccess) :
    Effect s (evexLength p rex rm) (some ((Ext.ofEvex e).regNum reg)) acc t ∧
    Passed s (evexLegal p rex e) (s.evexAvailable vl) (evexLength p rex rm) := by
  obtain ⟨h, hf⟩ := guarded_next h
  obtain ⟨x, _, rfl⟩ := toReg_next h
  exact ⟨.register _ _ rfl rfl, passed_of_front hf⟩

theorem evexRmReg_next {vl : Nat} {p : List LegacyPrefix} {rex : Option Rex} {e : Evex} {reg : BitVec 3}
    {rm : RmOperand} {s t : State} (h : evexRmReg vl p rex e reg rm s = .next t) :
    (match rm with
      | .reg d => Effect s (evexLength p rex rm) (some ((Ext.ofEvex e).rmNum d)) none t
      | .mem a => Effect s (evexLength p rex rm) none
          (accessOf .write s (Enc.evex p rex e rm vl) (vl / 8) (s.enabled e.aaa) (.mem a)) t) ∧
    Passed s (evexLegal p rex e && evexRmDestLegal e rm) (s.evexAvailable vl) (evexLength p rex rm) := by
  obtain ⟨h, hf⟩ := guarded_next h
  refine ⟨?_, passed_of_front (by rw [Bool.not_and]; exact hf)⟩
  cases rm with
  | reg d =>
    obtain ⟨x, _, rfl⟩ := toReg_next h
    exact .register _ _ rfl rfl
  | mem a =>
    obtain ⟨m, hs, rfl⟩ := toMem_next h
    exact .memory _ _ _ m rfl rfl hs rfl

/-- An instruction that completes was legal, available, at most 15 bytes long and not stopped by CR0.TS, in 64-bit mode; it
wrote its destination register or stored to its destination in memory. -/
theorem exec_next {i : Instr} {s t : State} (h : exec i s = .next t) :
    Effect s (instrLength i) (destination i) (memAccess s i) t ∧
    Passed s i.legal (available s i) (instrLength i) := by
  cases i with
  | movupdRegRm p reg rm => exact sseRegRm_next h _
  | movupdRegRmRex p x reg rm => exact sseRegRm_next h _
  | movupdRmReg p reg rm =>
    have := sseRmReg_next (c := Enc.sse p rm) (reg := reg) (rm := rm) h
    cases rm <;> exact this
  | movupdRmRegRex p x reg rm =>
    have := sseRmReg_next (c := Enc.sseRex p x rm) (reg := reg) (rm := rm) h
    cases rm <;> exact this
  | vex2Mov128RegRm p rex v reg rm => exact vexRegRm_next h _
  | vex3Mov128RegRm p rex v reg rm => exact vexRegRm_next h _
  | vex2Mov128RmReg p rex v reg rm =>
    have := vexRmReg_next (vl := 128) (c := Enc.vex2 p rex v rm) (legal := vexLegal p rex v.vvvv) (reg := reg) (rm := rm) h
    cases rm <;> exact this
  | vex3Mov128RmReg p rex v reg rm =>
    have := vexRmReg_next (vl := 128) (c := Enc.vex3 p rex v rm) (legal := vexLegal p rex v.vvvv) (reg := reg) (rm := rm) h
    cases rm <;> exact this
  | vex2Mov256RegRm p rex v reg rm => exact vexRegRm_next h _
  | vex3Mov256RegRm p rex v reg rm => exact vexRegRm_next h _
  | vex2Mov256RmReg p rex v reg rm =>
    have := vexRmReg_next (vl := 256) (c := Enc.vex2 p rex v rm) (legal := vexLegal p rex v.vvvv) (reg := reg) (rm := rm) h
    cases rm <;> exact this
  | vex3Mov256RmReg p rex v reg rm =>
    have := vexRmReg_next (vl := 256) (c := Enc.vex3 p rex v rm) (legal := vexLegal p rex v.vvvv) (reg := reg) (rm := rm) h
    cases rm <;> exact this
  | evexMov128RegRm p rex e reg rm => exact evexRegRm_next h _
  | evexMov128RmReg p rex e reg rm =>
    have := evexRmReg_next (vl := 128) (p := p) (rex := rex) (e := e) (reg := reg) (rm := rm) h
    cases rm <;> exact this
  | evexMov256RegRm p rex e reg rm => exact evexRegRm_next h _
  | evexMov256RmReg p rex e reg rm =>
    have := evexRmReg_next (vl := 256) (p := p) (rex := rex) (e := e) (reg := reg) (rm := rm) h
    cases rm <;> exact this
  | evexMov512RegRm p rex e reg rm => exact evexRegRm_next h _
  | evexMov512RmReg p rex e reg rm =>
    have := evexRmReg_next (vl := 512) (p := p) (rex := rex) (e := e) (reg := reg) (rm := rm) h
    cases rm <;> exact this

/-! ## exec, before it completes -/

theorem outcome_inj {a b : Stop} (h : a.outcome = b.outcome) : a = b := by
  cases a <;> cases b <;> cases h <;> rfl

/-- What an instruction is once levels 1 and 2 of 60_exceptions.md R161 have passed: a register copy, which completes; a load;
or a store. -/
inductive Body (s : State) (i : Instr) : Result → Prop where
  | register (t : State) (h : memAccess s i = none) : Body s i (.next t)
  | load (acc : MemAccess) (d : BitVec 5) (upd : Vec → Vec) (h : memAccess s i = some acc) (hk : acc.kind = .read) :
    Body s i (toReg s (instrLength i) d upd (load s acc.ref acc.en))
  | store (acc : MemAccess) (x : Vec) (h : memAccess s i = some acc) (hk : acc.kind = .write) :
    Body s i (toMem (instrLength i) (store s acc.ref acc.en x))

theorem body_load {s : State} {i : Instr} {c : Enc} {size : Nat} {en : Nat → Bool} {rm : RmOperand} {d : BitVec 5}
    {upd : Vec → Vec} (h : memAccess s i = accessOf .read s c size en rm) :
    Body s i (toReg s (instrLength i) d upd (c.rmSource s size en rm)) := by
  cases rm with
  | reg n =>
    simp only [Enc.rmSource, toReg]
    exact .register _ h
  | mem a =>
    simp only [Enc.rmSource]
    exact .load { kind := .read, ref := c.memRef s size a, en := en } _ _ h rfl

theorem body_copy {s : State} {i : Instr} {len : Nat} {d : BitVec 5} {upd : Vec → Vec} {x : Vec}
    (h : memAccess s i = none) : Body s i (toReg s len d upd (.ok x)) := by
  simp only [toReg]
  exact .register _ h

theorem body_store {s : State} {i : Instr} {c : Enc} {size : Nat} {en : Nat → Bool} {a : AddrForm} {x : Vec}
    (h : memAccess s i = accessOf .write s c size en (.mem a)) :
    Body s i (toMem (instrLength i) (store s (c.memRef s size a) en x)) :=
  .store { kind := .write, ref := c.memRef s size a, en := en } x h rfl

/-- Every instruction is one guarded body. -/
theorem exec_body (i : Instr) (s : State) :
    ∃ vexLike k, exec i s = guarded s vexLike (!i.legal || !available s i) (instrLength i) k ∧ Body s i k := by
  cases i with
  | movupdRegRm p reg rm => exact ⟨_, _, rfl, body_load rfl⟩
  | movupdRegRmRex p x reg rm => exact ⟨_, _, rfl, body_load rfl⟩
  | vex2Mov128RegRm p rex v reg rm => exact ⟨_, _, rfl, body_load rfl⟩
  | vex3Mov128RegRm p rex v reg rm => exact ⟨_, _, rfl, body_load rfl⟩
  | vex2Mov256RegRm p rex v reg rm => exact ⟨_, _, rfl, body_load rfl⟩
  | vex3Mov256RegRm p rex v reg rm => exact ⟨_, _, rfl, body_load rfl⟩
  | evexMov128RegRm p rex e reg rm => exact ⟨_, _, rfl, body_load rfl⟩
  | evexMov256RegRm p rex e reg rm => exact ⟨_, _, rfl, body_load rfl⟩
  | evexMov512RegRm p rex e reg rm => exact ⟨_, _, rfl, body_load rfl⟩
  | movupdRmReg p reg rm =>
    cases rm with
    | reg _ => exact ⟨_, _, rfl, body_copy rfl⟩
    | mem _ => exact ⟨_, _, rfl, body_store rfl⟩
  | movupdRmRegRex p x reg rm =>
    cases rm with
    | reg _ => exact ⟨_, _, rfl, body_copy rfl⟩
    | mem _ => exact ⟨_, _, rfl, body_store rfl⟩
  | vex2Mov128RmReg p rex v reg rm =>
    cases rm with
    | reg _ => exact ⟨_, _, rfl, body_copy rfl⟩
    | mem _ => exact ⟨_, _, rfl, body_store rfl⟩
  | vex3Mov128RmReg p rex v reg rm =>
    cases rm with
    | reg _ => exact ⟨_, _, rfl, body_copy rfl⟩
    | mem _ => exact ⟨_, _, rfl, body_store rfl⟩
  | vex2Mov256RmReg p rex v reg rm =>
    cases rm with
    | reg _ => exact ⟨_, _, rfl, body_copy rfl⟩
    | mem _ => exact ⟨_, _, rfl, body_store rfl⟩
  | vex3Mov256RmReg p rex v reg rm =>
    cases rm with
    | reg _ => exact ⟨_, _, rfl, body_copy rfl⟩
    | mem _ => exact ⟨_, _, rfl, body_store rfl⟩
  | evexMov128RmReg p rex e reg rm =>
    simp only [Instr.legal, Bool.not_and]
    cases rm with
    | reg _ => exact ⟨_, _, rfl, body_copy rfl⟩
    | mem _ => exact ⟨_, _, rfl, body_store rfl⟩
  | evexMov256RmReg p rex e reg rm =>
    simp only [Instr.legal, Bool.not_and]
    cases rm with
    | reg _ => exact ⟨_, _, rfl, body_copy rfl⟩
    | mem _ => exact ⟨_, _, rfl, body_store rfl⟩
  | evexMov512RmReg p rex e reg rm =>
    simp only [Instr.legal, Bool.not_and]
    cases rm with
    | reg _ => exact ⟨_, _, rfl, body_copy rfl⟩
    | mem _ => exact ⟨_, _, rfl, body_store rfl⟩

theorem front_reaches {s : State} {i : Instr} (hr : ReachesOperation s i) (vexLike : Bool) :
    front s vexLike (!i.legal || !available s i) (instrLength i) = none := by
  rw [hr.legal, hr.available]
  exact front_none hr.mode hr.length hr.ts

/-- Where levels 1 and 2 pass, an instruction is its body. -/
theorem exec_reaches {s : State} {i : Instr} (hr : ReachesOperation s i) : Body s i (exec i s) := by
  obtain ⟨vexLike, k, he, hb⟩ := exec_body i s
  rw [he, guarded_none (front_reaches hr vexLike)]
  exact hb

/-- Once levels 1 and 2 pass, an instruction with a memory operand ends in the stop of the memory level; or, where there is
none, it completes, or is refused as a store into the text. -/
theorem exec_access {s : State} {i : Instr} {acc : MemAccess} (hr : ReachesOperation s i)
    (ha : memAccess s i = some acc) :
    (∃ st, memStop s acc.kind acc.ref acc.en = some st ∧ exec i s = st.outcome) ∨
    (memStop s acc.kind acc.ref acc.en = none ∧
      ((∃ t, exec i s = .next t) ∨
        (acc.kind = .write ∧ overlapsText s acc.ref acc.en = true ∧ exec i s = .refused .storeIntoText))) := by
  have hb := exec_reaches hr
  generalize exec i s = k at hb ⊢
  cases hb with
  | register t h => rw [h] at ha; cases ha
  | load acc' d upd h hk =>
    rw [h] at ha
    cases ha
    rw [hk]
    unfold load
    cases hm : memStop s .read acc.ref acc.en with
    | some st => exact .inl ⟨st, rfl, rfl⟩
    | none => exact .inr ⟨rfl, .inl ⟨_, rfl⟩⟩
  | store acc' x h hk =>
    rw [h] at ha
    cases ha
    rw [hk]
    unfold store
    cases hm : memStop s .write acc.ref acc.en with
    | some st => exact .inl ⟨st, rfl, rfl⟩
    | none =>
      refine .inr ⟨rfl, ?_⟩
      cases ho : overlapsText s acc.ref acc.en
      · exact .inl ⟨_, rfl⟩
      · exact .inr ⟨rfl, rfl, rfl⟩

/-- A fault of the body is one of the memory level. -/
theorem body_fault {s : State} {i : Instr} {f : Fault} (h : Body s i (.fault f)) :
    ∃ acc, memAccess s i = some acc ∧ memStop s acc.kind acc.ref acc.en = some (.fault f) := by
  generalize hk : (Host.Outcome.fault f : Result) = k at h
  cases h with
  | register t h => cases hk
  | load acc d upd h hkind =>
    refine ⟨acc, h, ?_⟩
    unfold load at hk
    split at hk
    · rw [hkind, ‹memStop s .read acc.ref acc.en = _›]
      exact congrArg some (outcome_inj (b := .fault f) hk.symm)
    · cases hk
  | store acc x h hkind =>
    refine ⟨acc, h, ?_⟩
    unfold store at hk
    split at hk
    · rw [hkind, ‹memStop s .write acc.ref acc.en = _›]
      exact congrArg some (outcome_inj (b := .fault f) hk.symm)
    · split at hk <;> cases hk

/-- A fault of an instruction comes from level 1 or 2, or from its memory operand. -/
theorem exec_fault {i : Instr} {s : State} {f : Fault} (h : exec i s = .fault f) :
    (∃ vexLike, front s vexLike (!i.legal || !available s i) (instrLength i) = some (.fault f)) ∨
    ∃ acc, memAccess s i = some acc ∧ memStop s acc.kind acc.ref acc.en = some (.fault f) := by
  obtain ⟨vexLike, k, he, hb⟩ := exec_body i s
  rw [he, guarded] at h
  split at h
  · rw [← outcome_fault h]
    exact .inl ⟨vexLike, ‹_›⟩
  · exact .inr (body_fault (h ▸ hb))

end Sys2Proof.Machine
end

