-- ==== Sys2Proof/Laws/Effects.lean ====
section
/-! SUPPORT. What the shared operations leave, in the terms claims use. -/

namespace Sys2Proof.Machine

/-! ## Availability -/

theorem SseReady.available {s : State} (h : SseReady s) : s.sseAvailable = true := by
  unfold State.sseAvailable State.cr0Em State.cr4Osfxsr
  rw [h.sse2, h.em, h.osfxsr]
  rfl

theorem VexReady.available {s : State} (h : VexReady s) : s.vexAvailable = true := by
  unfold State.vexAvailable State.cr4Osxsave State.xcr0Avx
  rw [h.avx, h.osxsave, h.xcr0Sse, h.xcr0Avx]
  rfl

theorem EvexReady.available {s : State} {vl : Nat} (h : EvexReady s vl) : s.evexAvailable vl = true := by
  have h512 : s.evex512Available = true := by
    unfold State.evex512Available State.cr4Osxsave State.xcr0Avx State.xcr0Avx512
    rw [h.avx512f, h.osxsave, h.xcr0Sse, h.xcr0Avx, h.xcr0Opmask, h.xcr0ZmmHi256, h.xcr0Hi16Zmm]
    rfl
  unfold State.evexAvailable
  split
  · exact h512
  · simp [State.evexVlAvailable, h.avx512vl ‹_›, h512]

/-- Where its row is ready, a legal instruction of at most 15 bytes gets past levels 1 and 2. -/
theorem Family.Ready.reaches {s : State} {i : Instr} (h : (familyOf i).Ready s) (hl : i.legal = true)
    (hlen : instrLength i ≤ 15) : ReachesOperation s i := by
  unfold Family.Ready at h
  have ha : available s i = (match familyOf i with
      | .sse => s.sseAvailable
      | .vex => s.vexAvailable
      | .evexVl => s.evexVlAvailable
      | .evex512 => s.evex512Available) := rfl
  split at h <;> rename_i hf <;> rw [hf] at ha
  · exact ⟨h.mode, hl, ha.trans h.available, hlen, h.ts⟩
  · exact ⟨h.mode, hl, ha.trans h.available, hlen, h.ts⟩
  · exact ⟨h.mode, hl, ha.trans (EvexReady.available h), hlen, h.ts⟩
  · exact ⟨h.mode, hl, ha.trans (EvexReady.available h), hlen, h.ts⟩

theorem maxvl_ge (m : MaxVl) : 128 ≤ m.bits := by cases m <;> decide

/-- With AVX the registers have at least 256 bits (10_state.md R21). -/
theorem maxvl_of_avx {c : Config} (hc : c.consistent = true) (h : c.hasAvx = true) : 256 ≤ c.maxvl.bits := by
  simp only [Config.consistent, h, Bool.and_eq_true] at hc
  cases hm : c.maxvl
  · rw [hm] at hc
    simp at hc
  · decide
  · decide

/-- With AVX512F the registers have 512 bits (10_state.md R21). -/
theorem maxvl_of_avx512f {c : Config} (hc : c.consistent = true) (h : c.hasAvx512f = true) : c.maxvl.bits = 512 := by
  simp only [Config.consistent, h, Bool.and_eq_true] at hc
  cases hm : c.maxvl
  · rw [hm] at hc
    simp at hc
  · rw [hm] at hc
    simp at hc
  · rfl

/-! ## Operands -/

/-- A readable source gives its bits, in every enabled element. -/
theorem rmSource_ok {s : State} {c : Enc} {size : Nat} {en : Nat → Bool} {rm : RmOperand} (hs : size ≤ 64)
    (h : ReadableRm s c size en rm) :
    ∃ x, c.rmSource s size en rm = .ok x ∧
      ∀ i, i < 8 * size → en (i / 64) = true → x.getLsbD i = rmBit s c size rm i := by
  cases rm with
  | reg n => exact ⟨_, rfl, fun i _ _ => rfl⟩
  | mem a =>
    refine ⟨_, load_ok h, fun i hi he => ?_⟩
    rw [getLsbD_loadBytes _ _ _ _ _ (by exact hs)]
    simp only [Enc.memRef, rmBit]
    simp [hi, he]

/-! ## Completing -/

theorem wroteOnly_setV (s : State) (d : BitVec 5) (x : Vec) (len : Nat) :
    WroteOnly s ((s.setV d x).advance len) len d :=
  ⟨⟨rfl, by constructor <;> rfl⟩, fun n hn => by simp [setV_v_other _ _ _ _ hn], fun _ => rfl⟩

theorem storedOnly_store (s : State) (r : MemRef) (en : Nat → Bool) (x : Vec) (len : Nat) :
    StoredOnly s ({ s with mem := storeBytes s.mem r.ea.toNat en x r.size }.advance len) len r en x :=
  ⟨⟨rfl, by constructor <;> rfl⟩, fun _ => rfl, fun _ hk he => read_storeBytes_in hk he,
    fun _ h => read_storeBytes_out h⟩

end Sys2Proof.Machine
end

