-- ==== Sys2Proof/Laws/PerInstr.lean ====
section
/-! SUPPORT. Statements made for each instruction: an instruction's encoding has the length of 30_encoding.md R89. -/

namespace Sys2Proof.Laws.EncodeLength

open Sys2Proof.Machine

/-- The encoder writes as many bytes as the instruction is long. -/
def Statement (i : Instr) : Prop := (encode i).length = instrLength i

theorem sse_length (p : List LegacyPrefix) (op reg) (rm : RmOperand) :
    (prefixBytes p none ++ [0x0F#8, op] ++ rm.bytes reg).length = (Enc.sse p rm).len := by
  simp [Enc.sse, rexSize]
  omega

theorem sseRex_length (p : List LegacyPrefix) (x : Rex) (op reg) (rm : RmOperand) :
    (prefixBytes p (some x) ++ [0x0F#8, op] ++ rm.bytes reg).length = (Enc.sseRex p x rm).len := by
  simp [Enc.sseRex, rexSize]
  omega

theorem vex2_length (p : List LegacyPrefix) (rex : Option Rex) (v : Vex2) (l op reg) (rm : RmOperand) :
    (prefixBytes p rex ++ v.bytes l ++ [op] ++ rm.bytes reg).length = (Enc.vex2 p rex v rm).len := by
  simp [Enc.vex2, Vex2.bytes]
  omega

theorem vex3_length (p : List LegacyPrefix) (rex : Option Rex) (v : Vex3) (l op reg) (rm : RmOperand) :
    (prefixBytes p rex ++ v.bytes l ++ [op] ++ rm.bytes reg).length = (Enc.vex3 p rex v rm).len := by
  simp [Enc.vex3, Vex3.bytes]
  omega

theorem evex_length (p : List LegacyPrefix) (rex : Option Rex) (e : Evex) (ll op reg) (rm : RmOperand) :
    (prefixBytes p rex ++ e.bytes ll ++ [op] ++ rm.bytes reg).length = evexLength p rex rm := by
  simp [evexLength, Evex.bytes]
  omega

theorem movupdRegRm (p : List LegacyPrefix) (reg : BitVec 3) (rm : RmOperand) :
    Statement (.movupdRegRm p reg rm) := sse_length ..

theorem movupdRegRmRex (p : List LegacyPrefix) (x : Rex) (reg : BitVec 3) (rm : RmOperand) :
    Statement (.movupdRegRmRex p x reg rm) := sseRex_length ..

theorem movupdRmReg (p : List LegacyPrefix) (reg : BitVec 3) (rm : RmOperand) :
    Statement (.movupdRmReg p reg rm) := sse_length ..

theorem movupdRmRegRex (p : List LegacyPrefix) (x : Rex) (reg : BitVec 3) (rm : RmOperand) :
    Statement (.movupdRmRegRex p x reg rm) := sseRex_length ..

theorem vex2Mov128RegRm (p : List LegacyPrefix) (rex : Option Rex) (v : Vex2) (reg : BitVec 3) (rm : RmOperand) :
    Statement (.vex2Mov128RegRm p rex v reg rm) := vex2_length ..

theorem vex3Mov128RegRm (p : List LegacyPrefix) (rex : Option Rex) (v : Vex3) (reg : BitVec 3) (rm : RmOperand) :
    Statement (.vex3Mov128RegRm p rex v reg rm) := vex3_length ..

theorem vex2Mov128RmReg (p : List LegacyPrefix) (rex : Option Rex) (v : Vex2) (reg : BitVec 3) (rm : RmOperand) :
    Statement (.vex2Mov128RmReg p rex v reg rm) := vex2_length ..

theorem vex3Mov128RmReg (p : List LegacyPrefix) (rex : Option Rex) (v : Vex3) (reg : BitVec 3) (rm : RmOperand) :
    Statement (.vex3Mov128RmReg p rex v reg rm) := vex3_length ..

theorem vex2Mov256RegRm (p : List LegacyPrefix) (rex : Option Rex) (v : Vex2) (reg : BitVec 3) (rm : RmOperand) :
    Statement (.vex2Mov256RegRm p rex v reg rm) := vex2_length ..

theorem vex3Mov256RegRm (p : List LegacyPrefix) (rex : Option Rex) (v : Vex3) (reg : BitVec 3) (rm : RmOperand) :
    Statement (.vex3Mov256RegRm p rex v reg rm) := vex3_length ..

theorem vex2Mov256RmReg (p : List LegacyPrefix) (rex : Option Rex) (v : Vex2) (reg : BitVec 3) (rm : RmOperand) :
    Statement (.vex2Mov256RmReg p rex v reg rm) := vex2_length ..

theorem vex3Mov256RmReg (p : List LegacyPrefix) (rex : Option Rex) (v : Vex3) (reg : BitVec 3) (rm : RmOperand) :
    Statement (.vex3Mov256RmReg p rex v reg rm) := vex3_length ..

theorem evexMov128RegRm (p : List LegacyPrefix) (rex : Option Rex) (e : Evex) (reg : BitVec 3) (rm : RmOperand) :
    Statement (.evexMov128RegRm p rex e reg rm) := evex_length ..

theorem evexMov128RmReg (p : List LegacyPrefix) (rex : Option Rex) (e : Evex) (reg : BitVec 3) (rm : RmOperand) :
    Statement (.evexMov128RmReg p rex e reg rm) := evex_length ..

theorem evexMov256RegRm (p : List LegacyPrefix) (rex : Option Rex) (e : Evex) (reg : BitVec 3) (rm : RmOperand) :
    Statement (.evexMov256RegRm p rex e reg rm) := evex_length ..

theorem evexMov256RmReg (p : List LegacyPrefix) (rex : Option Rex) (e : Evex) (reg : BitVec 3) (rm : RmOperand) :
    Statement (.evexMov256RmReg p rex e reg rm) := evex_length ..

theorem evexMov512RegRm (p : List LegacyPrefix) (rex : Option Rex) (e : Evex) (reg : BitVec 3) (rm : RmOperand) :
    Statement (.evexMov512RegRm p rex e reg rm) := evex_length ..

theorem evexMov512RmReg (p : List LegacyPrefix) (rex : Option Rex) (e : Evex) (reg : BitVec 3) (rm : RmOperand) :
    Statement (.evexMov512RmReg p rex e reg rm) := evex_length ..

end Sys2Proof.Laws.EncodeLength
end

