-- ==== Sys2Proof/Laws/Step.lean ====
section
/-! SUPPORT. What a step that completes has done, and what the fetch reads. -/

namespace Sys2Proof.Machine

/-- A step that completes ran one decoded instruction, in 64-bit mode, inside the text, within its half of the address
space. -/
theorem step_next {s t : State} (h : step s = .next t) :
    ∃ i, s.mode = .bits64 ∧ s.text.has s.rip.toNat = true ∧ decode (fetch s) = .instr i ∧
      ripSpanOk s (instrLength i) = true ∧ exec i s = .next t := by
  unfold step at h
  split at h
  · exact absurd h (outcome_ne_next _ _)
  · rename_i hf
    have hf : s.mode = .bits64 ∧ s.text.has s.rip.toNat = true := by
      unfold fetchStop at hf
      split at hf
      · cases hf
      · split at hf
        · exact ⟨not_not.1 ‹_›, ‹_›⟩
        · split at hf <;> cases hf
    unfold runDecoded at h
    split at h
    · rename_i i hd
      unfold inSpan at h
      split at h
      · exact ⟨i, hf.1, hf.2, hd, ‹_›, h⟩
      · cases h
    · unfold inSpan at h
      split at h
      · exact absurd (guarded_next h).1 (outcome_ne_next _ _)
      · cases h
    · cases h

/-- A fetch is byte k of memory from its address on, for every k. -/
theorem bytesAt_eq_map (m : Memory) (a n : Nat) : bytesAt m a n = (List.range n).map fun k => m.read (a + k) := by
  induction n generalizing a with
  | zero => rfl
  | succ n ih =>
    rw [bytesAt, ih, List.range_succ_eq_map]
    simp [Function.comp_def, Nat.add_assoc, Nat.add_comm 1]

/-! ## Runs -/

@[simp] theorem runSteps_zero (s : State) : runSteps 0 s = .next s := rfl

theorem runSteps_succ (n : Nat) (s : State) :
    runSteps (n + 1) s = match step s with
      | .next t => runSteps n t
      | .fault f => .fault f
      | .refused r => .refused r := rfl

/-- A run of n + 1 steps is a run of n steps and, where that goes on, one more. -/
theorem runSteps_last (n : Nat) (s : State) :
    runSteps (n + 1) s = match runSteps n s with
      | .next t => step t
      | .fault f => .fault f
      | .refused r => .refused r := by
  induction n generalizing s with
  | zero =>
    simp only [runSteps_succ, runSteps_zero]
    cases step s <;> rfl
  | succ n ih =>
    rw [runSteps_succ, runSteps_succ n]
    cases step s with
    | next t => exact ih t
    | fault _ => rfl
    | refused _ => rfl

/-- A run of n + 1 steps that goes on has gone on for n steps. -/
theorem runSteps_next {n : Nat} {s t : State} (h : runSteps (n + 1) s = .next t) :
    ∃ u, runSteps n s = .next u ∧ step u = .next t := by
  rw [runSteps_last] at h
  cases hu : runSteps n s with
  | next u => exact ⟨u, rfl, by rw [hu] at h; exact h⟩
  | fault f => rw [hu] at h; cases h
  | refused r => rw [hu] at h; cases h

end Sys2Proof.Machine
end

