-- ==== Sys2Proof/Tests/Slice0.lean ====
section
/-! SUPPORT. Tests: the checks of WellFormed on ill-formed terms, the decoder on words written out from the spec's encodings,
one step of each instruction, and for each obligation with hypotheses values that meet them. `T<n>` names a vector of
95_test_vectors.md; its bytes and its result stand there, derived from the rules by hand. -/

namespace Sys2Proof.Tests

set_option Elab.async false

open Sys2Proof.Machine

/-! ## Helpers -/

/-- The launch state with rip at 400000H. -/
def base : State := { State.reset with rip := 0x400000#64 }

def setX (s : State) (n : Fin 16) (x : Word) : State := { s with gprs := s.gprs.set n x }

def setK (s : State) (n : Fin 8) (x : Word) : State := { s with kregs := s.kregs.set n x }

/-- `s` with bytes in memory from address a on. -/
def setMem (s : State) (a : Nat) (bs : List Byte) : State := { s with mem := placeBytes s.mem a bs }

def setAccess (s : State) (a : List AccessRegion) : State := { s with cfg := { s.cfg with access := a } }

/-- `n` bytes: `b`, `b + 1`, and so on. -/
def counting (b : Byte) (n : Nat) : List Byte := (List.range n).map fun k => b + BitVec.ofNat 8 k

/-- One step of `s` with `bs` as its program. -/
def run (s : State) (bs : List Byte) : Result := step (s.withProgram bs)

def nextOf : Result → Option State
  | .next t => some t
  | .fault _ => none
  | .refused _ => none

def faultOf : Result → Option Fault
  | .next _ => none
  | .fault f => some f
  | .refused _ => none

def refusalOf : Result → Option Refusal
  | .next _ => none
  | .fault _ => none
  | .refused r => some r

def completes (o : Result) : Bool := (nextOf o).isSome

theorem next_of_completes {o : Result} (h : completes o = true) : ∃ t, o = .next t := by
  cases o with
  | next t => exact ⟨t, rfl⟩
  | fault _ => cases h
  | refused _ => cases h

/-- V[n] after the step. -/
def vAfter (o : Result) (n : BitVec 5) : Option Vec := (nextOf o).map fun t => t.v n

def ripAfter (o : Result) : Option Word := (nextOf o).map fun t => t.rip

/-- n bytes of memory from address a on, after the step. -/
def memAfter (o : Result) (a n : Nat) : Option (List Byte) := (nextOf o).map fun t => bytesAt t.mem a n

/-- Every bit 1. -/
def ones : Vec := BitVec.allOnes 512

/-- A vector of elements, e_0 first. -/
def elements : List Word → Vec
  | [] => 0#512
  | e :: es => (elements es <<< 64) ||| e.setWidth 512

/-- x[3:0]-style 128-bit values as the vectors write them: high element, low element. -/
def pair (hi lo : Word) : Vec := elements [lo, hi]

/-- An EVEX prefix with every reserved field as 30_encoding.md R81 asks, the extension bits 0. -/
def evex (z : Bool) (aaa : BitVec 3) : Evex :=
  { r := false, x := false, b := false, rHi := false, p0bit3 := false, vvvv := 15, p1bit2 := true, z := z
    bcast := false, vHi := true, aaa := aaa }

def vex2 : Vex2 := { r := false, vvvv := 15 }

def vex3 : Vex3 := { r := false, x := false, b := false, w := false, vvvv := 15 }

def noRex : Rex := { w := false, r := false, x := false, b := false }

/-- [base register 0], no displacement. -/
def atRax : AddrForm := .base 0 .none

/-! ## WellFormed: one ill-formed term for each check -/

theorem test_shaped_needs_66 : (Instr.movupdRegRm [] 1 (.reg 2)).shaped = false := by decide

theorem test_shaped_refuses_F3 : (Instr.movupdRegRm [.opsize, .rep] 1 (.reg 2)).shaped = false := by decide

theorem test_shaped_refuses_F2 : (Instr.movupdRmReg [.repne, .opsize] 1 (.reg 2)).shaped = false := by decide

theorem test_shaped_one_prefix_of_a_group :
    (Instr.movupdRegRm [.seg .cs, .seg .ds, .opsize] 0 (.mem atRax)).shaped = false := by decide

theorem test_shaped_no_repeated_prefix :
    (Instr.evexMov512RegRm [.addrsize, .addrsize] none (evex false 0) 0 (.mem atRax)).shaped = false := by decide

theorem test_shaped_base_100_is_sib : (Instr.movupdRegRm [.opsize] 0 (.mem (.base 4 .none))).shaped = false := by decide

theorem test_shaped_base_101_needs_disp : (Instr.movupdRegRm [.opsize] 0 (.mem (.base 5 .none))).shaped = false := by
  decide

theorem test_shaped_sib_base_101_needs_disp :
    (Instr.movupdRegRm [.opsize] 0 (.mem (.sib 0 0 5 .none))).shaped = false := by decide

theorem test_legal_no_lock : (Instr.movupdRmReg [.lock, .opsize] 0 (.mem atRax)).legal = false := by decide

theorem test_legal_no_66_before_vex : (Instr.vex2Mov128RegRm [.opsize] none vex2 1 (.reg 2)).legal = false := by decide

theorem test_legal_no_F2_before_vex : (Instr.vex3Mov128RegRm [.repne] none vex3 1 (.reg 2)).legal = false := by decide

theorem test_legal_no_F3_before_evex :
    (Instr.evexMov128RegRm [.rep] none (evex false 0) 1 (.reg 2)).legal = false := by decide

theorem test_legal_no_rex_before_vex : (Instr.vex2Mov256RegRm [] (some noRex) vex2 1 (.reg 2)).legal = false := by decide

theorem test_legal_vex_vvvv : (Instr.vex2Mov128RegRm [] none { vex2 with vvvv := 14 } 1 (.reg 2)).legal = false := by
  decide

theorem test_legal_evex_fields :
    (Instr.evexMov512RegRm [] none { evex false 0 with vvvv := 14 } 1 (.reg 2)).legal = false ∧
    (Instr.evexMov512RegRm [] none { evex false 0 with vHi := false } 1 (.reg 2)).legal = false ∧
    (Instr.evexMov512RegRm [] none { evex false 0 with bcast := true } 1 (.mem atRax)).legal = false ∧
    (Instr.evexMov512RegRm [] none { evex false 0 with p0bit3 := true } 1 (.reg 2)).legal = false ∧
    (Instr.evexMov512RegRm [] none { evex false 0 with p1bit2 := false } 1 (.reg 2)).legal = false := by decide

theorem test_legal_zeroing_needs_a_mask : (Instr.evexMov512RegRm [] none (evex true 0) 1 (.reg 2)).legal = false := by
  decide

theorem test_legal_zeroing_needs_a_register :
    (Instr.evexMov512RmReg [] none (evex true 1) 0 (.mem atRax)).legal = false ∧
    (Instr.evexMov512RmReg [] none (evex true 1) 0 (.reg 2)).legal = true := by decide

theorem test_wellFormed :
    (Instr.movupdRegRmRex [.addrsize, .seg .fs, .opsize] noRex 0 (.mem (.sib 3 1 6 (.d8 16)))).wellFormed = true := by
  decide

/-! ## Decode: words of 95_test_vectors.md, one for each constructor at least -/

theorem test_decode_T1 : decode [0x66, 0x0F, 0x10, 0xCA] = .instr (.movupdRegRm [.opsize] 1 (.reg 2)) := by decide

theorem test_decode_T3 : decode [0x66, 0x0F, 0x11, 0x00] = .instr (.movupdRmReg [.opsize] 0 (.mem atRax)) := by decide

theorem test_decode_T4 : decode [0x66, 0x45, 0x0F, 0x10, 0x41, 0x08] =
    .instr (.movupdRegRmRex [.opsize] ⟨false, true, false, true⟩ 0 (.mem (.base 1 (.d8 8)))) := by decide

/-- `66 44 0F 11 C1`: REX 0100 W0 R1 X0 B0, opcode 11, ModRM 11 000 001 (30_encoding.md R74, R83, R84). -/
theorem test_decode_rex_store : decode [0x66, 0x44, 0x0F, 0x11, 0xC1] =
    .instr (.movupdRmRegRex [.opsize] ⟨false, true, false, false⟩ 0 (.reg 1)) := by decide

theorem test_decode_T5 : decode [0x66, 0x0F, 0x10, 0x5C, 0x24, 0x10] =
    .instr (.movupdRegRm [.opsize] 3 (.mem (.sib 0 4 4 (.d8 16)))) := by decide

theorem test_decode_T6 : decode [0x66, 0x0F, 0x10, 0x05, 0x00, 0x01, 0x00, 0x00] =
    .instr (.movupdRegRm [.opsize] 0 (.mem (.ripRel 0x100))) := by decide

theorem test_decode_T23 : decode [0x66, 0x0F, 0x10, 0x04, 0x25, 0x00, 0x10, 0x00, 0x00] =
    .instr (.movupdRegRm [.opsize] 0 (.mem (.sibNoBase 0 4 0x1000))) := by decide

theorem test_decode_T24_T25 :
    decode [0x67, 0x66, 0x0F, 0x10, 0x00] = .instr (.movupdRegRm [.addrsize, .opsize] 0 (.mem atRax)) ∧
    decode [0x64, 0x66, 0x0F, 0x10, 0x00] = .instr (.movupdRegRm [.seg .fs, .opsize] 0 (.mem atRax)) := by decide

theorem test_decode_T89 : decode [0x66, 0x0F, 0x10, 0x44, 0xCE, 0x10] =
    .instr (.movupdRegRm [.opsize] 0 (.mem (.sib 3 1 6 (.d8 16)))) := by decide

theorem test_decode_T8 : decode [0xC5, 0xF9, 0x10, 0xCA] = .instr (.vex2Mov128RegRm [] none vex2 1 (.reg 2)) := by
  decide

theorem test_decode_T9 : decode [0xC5, 0xFD, 0x10, 0xCA] = .instr (.vex2Mov256RegRm [] none vex2 1 (.reg 2)) := by
  decide

theorem test_decode_T10 : decode [0xC5, 0xFD, 0x11, 0x00] = .instr (.vex2Mov256RmReg [] none vex2 0 (.mem atRax)) := by
  decide

theorem test_decode_T12_first : decode [0xC5, 0x79, 0x11, 0xD1] =
    .instr (.vex2Mov128RmReg [] none ⟨true, 15⟩ 2 (.reg 1)) := by decide

theorem test_decode_T12_second : decode [0xC4, 0xC1, 0x79, 0x10, 0xCA] =
    .instr (.vex3Mov128RegRm [] none ⟨false, false, true, false, 15⟩ 1 (.reg 2)) := by decide

theorem test_decode_T94 : decode [0xC4, 0xE1, 0xF9, 0x10, 0xCA] =
    .instr (.vex3Mov128RegRm [] none ⟨false, false, false, true, 15⟩ 1 (.reg 2)) := by decide

/-- The three other 3-byte VEX rows, C4 then 011 00001 (R, X true) and W vvvv L pp (30_encoding.md R76, R77): opcode 11 with
L = 0, opcodes 10 and 11 with L = 1. -/
theorem test_decode_vex3 :
    decode [0xC4, 0x61, 0x79, 0x11, 0xD1] =
      .instr (.vex3Mov128RmReg [] none ⟨true, false, false, false, 15⟩ 2 (.reg 1)) ∧
    decode [0xC4, 0xA1, 0x7D, 0x10, 0x04, 0x20] =
      .instr (.vex3Mov256RegRm [] none ⟨false, true, false, false, 15⟩ 0 (.mem (.sib 0 4 0 .none))) ∧
    decode [0xC4, 0xE1, 0x7D, 0x11, 0x00] = .instr (.vex3Mov256RmReg [] none vex3 0 (.mem atRax)) := by decide

theorem test_decode_T14 : decode [0x62, 0xF1, 0xFD, 0xC9, 0x10, 0xCA] =
    .instr (.evexMov512RegRm [] none (evex true 1) 1 (.reg 2)) := by decide

theorem test_decode_T17 : decode [0x62, 0xF1, 0xFD, 0x49, 0x11, 0x00] =
    .instr (.evexMov512RmReg [] none (evex false 1) 0 (.mem atRax)) := by decide

theorem test_decode_T18 : decode [0x62, 0xF1, 0xFD, 0x0A, 0x10, 0x08] =
    .instr (.evexMov128RegRm [] none (evex false 2) 1 (.mem atRax)) := by decide

theorem test_decode_T19 : decode [0x62, 0xF1, 0xFD, 0x0A, 0x11, 0x08] =
    .instr (.evexMov128RmReg [] none (evex false 2) 1 (.mem atRax)) := by decide

theorem test_decode_T21 : decode [0x62, 0xF1, 0xFD, 0x28, 0x11, 0x00] =
    .instr (.evexMov256RmReg [] none (evex false 0) 0 (.mem atRax)) := by decide

theorem test_decode_T22 : decode [0x62, 0x81, 0xFD, 0x48, 0x10, 0xCE] =
    .instr (.evexMov512RegRm [] none { evex false 0 with x := true, b := true, rHi := true } 1 (.reg 6)) := by decide

theorem test_decode_T90 : decode [0x62, 0xF1, 0xFD, 0x28, 0x10, 0x68, 0xFF] =
    .instr (.evexMov256RegRm [] none (evex false 0) 5 (.mem (.base 0 (.d8 0xFF)))) := by decide

theorem test_decode_T91 : decode [0x62, 0xF1, 0xFD, 0x28, 0x10, 0xA8, 0xDF, 0xFF, 0xFF, 0xFF] =
    .instr (.evexMov256RegRm [] none (evex false 0) 5 (.mem (.base 0 (.d32 (-33))))) := by decide

theorem test_encode_T22 :
    encode (.evexMov512RegRm [] none { evex false 0 with x := true, b := true, rHi := true } 1 (.reg 6)) =
      [0x62, 0x81, 0xFD, 0x48, 0x10, 0xCE] := by decide

theorem test_encode_T4 :
    encode (.movupdRegRmRex [.opsize] ⟨false, true, false, true⟩ 0 (.mem (.base 1 (.d8 8)))) =
      [0x66, 0x45, 0x0F, 0x10, 0x41, 0x08] := by decide

theorem test_decode_T40 : [[0x0F, 0x10, 0xCA], [0xF3, 0x0F, 0x10, 0xCA], [0xF2, 0x0F, 0x10, 0xCA], [0xC5, 0xF8, 0x10, 0xCA],
    [0x62, 0xF1, 0x7C, 0x48, 0x10, 0xCA], [0x62, 0xF1, 0x7D, 0x48, 0x10, 0xCA]].map decode =
      List.replicate 6 (.refuse .notInScope) := by decide

theorem test_decode_T41 : [[0x66, 0x66, 0x0F, 0x10, 0xCA], [0x2E, 0x3E, 0x66, 0x0F, 0x10, 0x00], [0x48, 0x66, 0x0F, 0x10, 0xCA]].map
    decode = [.refuse .repeatedPrefix, .refuse .repeatedPrefix, .refuse .misplacedRex] := by decide

theorem test_decode_truncated : decode [0x66, 0x0F, 0x10, 0x05, 0x00, 0x01, 0x00] = .refuse .truncated := by decide

/-- T29 to T39 but T32 are illegal variants of a row: they decode, and #UD is their meaning. -/
theorem test_decode_illegal : [[0xC5, 0xF1, 0x10, 0xCA], [0x62, 0xF1, 0xF5, 0x48, 0x10, 0xCA], [0x62, 0xF1, 0xFD, 0x40, 0x10, 0xCA],
    [0x62, 0xF1, 0xFD, 0x58, 0x10, 0x00], [0x62, 0xF1, 0xFD, 0xC8, 0x10, 0xCA], [0x62, 0xF1, 0xFD, 0xC9, 0x11, 0x00],
    [0x62, 0xF9, 0xFD, 0x48, 0x10, 0xCA], [0x62, 0xF1, 0xF9, 0x48, 0x10, 0xCA], [0xF0, 0x66, 0x0F, 0x11, 0x00],
    [0x66, 0xC5, 0xF9, 0x10, 0xCA]].all (fun bs => faultOf (run base bs) = some (.invalidOpcode 0x400000)) = true := by
  decide +kernel

theorem test_decode_T32 : decode [0x62, 0xF1, 0xFD, 0x68, 0x10, 0xCA] = .reservedLength [] none (.reg 2) ∧
    faultOf (run base [0x62, 0xF1, 0xFD, 0x68, 0x10, 0xCA]) = some (.invalidOpcode 0x400000) := by decide +kernel

/-! ## The words of opcode_table.json -/

/-- Each row's `match` word gives the row's instruction. -/
theorem test_table_words :
    [(32, 0x660F1000), (40, 0x66400F1000), (32, 0x660F1100), (40, 0x66400F1100), (32, 0xC5791000), (40, 0xC401791000),
      (32, 0xC5791100), (40, 0xC401791100), (32, 0xC57D1000), (40, 0xC4017D1000), (32, 0xC57D1100), (40, 0xC4017D1100),
      (48, 0x6201FD081000), (48, 0x6201FD081100), (48, 0x6201FD281000), (48, 0x6201FD281100), (48, 0x6201FD481000),
      (48, 0x6201FD481100)].map (fun r => decodeTableWord r.1 r.2) =
    let e : Evex := { evex false 0 with r := true, x := true, b := true, rHi := true }
    let w : Vex3 := { vex3 with r := true, x := true, b := true }
    let v : Vex2 := { vex2 with r := true }
    [some (.movupdRegRm [.opsize] 0 (.mem atRax)), some (.movupdRegRmRex [.opsize] noRex 0 (.mem atRax)),
      some (.movupdRmReg [.opsize] 0 (.mem atRax)), some (.movupdRmRegRex [.opsize] noRex 0 (.mem atRax)),
      some (.vex2Mov128RegRm [] none v 0 (.mem atRax)), some (.vex3Mov128RegRm [] none w 0 (.mem atRax)),
      some (.vex2Mov128RmReg [] none v 0 (.mem atRax)), some (.vex3Mov128RmReg [] none w 0 (.mem atRax)),
      some (.vex2Mov256RegRm [] none v 0 (.mem atRax)), some (.vex3Mov256RegRm [] none w 0 (.mem atRax)),
      some (.vex2Mov256RmReg [] none v 0 (.mem atRax)), some (.vex3Mov256RmReg [] none w 0 (.mem atRax)),
      some (.evexMov128RegRm [] none e 0 (.mem atRax)), some (.evexMov128RmReg [] none e 0 (.mem atRax)),
      some (.evexMov256RegRm [] none e 0 (.mem atRax)), some (.evexMov256RmReg [] none e 0 (.mem atRax)),
      some (.evexMov512RegRm [] none e 0 (.mem atRax)), some (.evexMov512RmReg [] none e 0 (.mem atRax))] := by
  decide +kernel

/-- A word whose first byte is bits 7 to 0 gives the same instruction. -/
theorem test_table_word_low_first : decodeTableWord 32 0x00100F66 = decodeTableWord 32 0x660F1000 := by decide +kernel

/-- The instruction of a table word runs as the first one after reset. -/
theorem test_withFetchWord :
    completes (step (State.reset.withFetchWord 32 0x660F1000)) = true ∧
    completes (step (State.reset.withFetchWord 40 0xC4017D1100)) = true ∧
    completes (step (State.reset.withFetchWord 48 0x6201FD481000)) = true := by decide +kernel

/-! ## One step of each instruction -/

theorem test_step_T43 :
    let o := run ((base.setV 2 (pair 0x4000000000000000 0x3FF0000000000000)).setV 1 ones) [0x66, 0x0F, 0x10, 0xCA]
    vAfter o 1 = some (elements ([0x3FF0000000000000, 0x4000000000000000] ++ List.replicate 6 (-1))) ∧
      ripAfter o = some 0x400004 := by decide +kernel

theorem test_step_T45 :
    vAfter (run (setMem (setX (base.setV 0 ones) 0 0x1FF8) 0x1FF8 (counting 0x80 16)) [0x66, 0x0F, 0x10, 0x00]) 0 =
      some (elements ([0x8786858483828180, 0x8F8E8D8C8B8A8988] ++ List.replicate 6 (-1))) := by decide +kernel

/-- T4: MOVUPD xmm8, [r9 + 8]; the register numbers and the displacement by R84, R87, the result by R112. -/
theorem test_step_T4 :
    vAfter (run (setMem (setX base 9 0x2000) 0x2008 (counting 0 16)) [0x66, 0x45, 0x0F, 0x10, 0x41, 0x08]) 8 =
      some (pair 0x0F0E0D0C0B0A0908 0x0706050403020100) := by decide +kernel

theorem test_step_T46 :
    memAfter (run (setX (base.setV 0 (pair 0x0F0E0D0C0B0A0908 0x0706050403020100)) 0 0x1003) [0x66, 0x0F, 0x11, 0x00])
      0x1002 18 = some ([0] ++ counting 0 16 ++ [0]) := by decide +kernel

/-- MOVUPD xmm1, xmm8 by opcode 11 with REX.R (R84, R113). -/
theorem test_step_rex_copy :
    vAfter (run ((base.setV 8 (pair 2 1)).setV 1 ones) [0x66, 0x44, 0x0F, 0x11, 0xC1]) 1 =
      some (elements ([1, 2] ++ List.replicate 6 (-1))) := by decide +kernel

theorem test_step_T70 :
    let o := run ((base.setV 2 (elements ([0x7FF4000000000001, 0xBFF0000000000000] ++ List.replicate 6 (-1)))).setV 1 ones)
      [0xC5, 0xF9, 0x10, 0xCA]
    vAfter o 1 = some (pair 0xBFF0000000000000 0x7FF4000000000001) ∧ ripAfter o = some 0x400004 := by decide +kernel

theorem test_step_T71 : vAfter (run (base.setV 3 ones) [0xC5, 0xF9, 0x10, 0xDB]) 3 = some (pair (-1) (-1)) := by
  decide +kernel

theorem test_step_T78 :
    let o := run ((base.setV 2 (pair 0xBFF0000000000000 0x7FF4000000000001)).setV 1 ones) [0xC4, 0xE1, 0xF9, 0x10, 0xCA]
    vAfter o 1 = some (pair 0xBFF0000000000000 0x7FF4000000000001) ∧ ripAfter o = some 0x400005 := by decide +kernel

theorem test_step_T76 :
    let s := (base.setV 10 (pair 7 5)).setV 1 ones
    vAfter (run s [0xC5, 0x79, 0x11, 0xD1]) 1 = some (pair 7 5) ∧
      vAfter (run s [0xC4, 0xC1, 0x79, 0x10, 0xCA]) 1 = some (pair 7 5) := by decide +kernel

theorem test_step_T75 :
    memAfter (run (setX (base.setV 0 (elements ([0x2222222222222222, 0x1111111111111111] ++ List.replicate 6 (-1)))) 0 0x2008)
      [0xC5, 0xF9, 0x11, 0x00]) 0x2007 18 =
      some ([0] ++ List.replicate 8 0x22 ++ List.replicate 8 0x11 ++ [0]) := by decide +kernel

/-- As T75 by the 3-byte prefix (R122). -/
theorem test_step_vex3_store :
    memAfter (run (setX (base.setV 0 (elements ([0x2222222222222222, 0x1111111111111111] ++ List.replicate 6 (-1)))) 0 0x2008)
      [0xC4, 0xE1, 0x79, 0x11, 0x00]) 0x2007 18 =
      some ([0] ++ List.replicate 8 0x22 ++ List.replicate 8 0x11 ++ [0]) := by decide +kernel

theorem test_step_T72 :
    vAfter (run (setMem (setX (base.setV 0 ones) 0 0x3001) 0x3001 (counting 0 32)) [0xC5, 0xFD, 0x10, 0x00]) 0 =
      some (elements [0x0706050403020100, 0x0F0E0D0C0B0A0908, 0x1716151413121110, 0x1F1E1D1C1B1A1918]) := by
  decide +kernel

/-- As T72 by the 3-byte prefix, the address being [rax + r12 * 1] (R86, R123). -/
theorem test_step_vex3_load :
    vAfter (run (setMem (setX (setX (base.setV 0 ones) 0 0x3000) 12 1) 0x3001 (counting 0 32))
      [0xC4, 0xA1, 0x7D, 0x10, 0x04, 0x20]) 0 =
      some (elements [0x0706050403020100, 0x0F0E0D0C0B0A0908, 0x1716151413121110, 0x1F1E1D1C1B1A1918]) := by
  decide +kernel

theorem test_step_T74 :
    memAfter (run (setX (base.setV 0 (elements [0x3FF0000000000000, 0x4000000000000000, 0x4008000000000000, 0x4010000000000000]))
      0 0x4000) [0xC5, 0xFD, 0x11, 0x00]) 0x4000 33 =
      some [0, 0, 0, 0, 0, 0, 0xF0, 0x3F, 0, 0, 0, 0, 0, 0, 0, 0x40, 0, 0, 0, 0, 0, 0, 0x08, 0x40, 0, 0, 0, 0, 0, 0, 0x10, 0x40,
        0] := by decide +kernel

/-- As T79, with the one byte 401FH not writable, so that one outcome is admitted. -/
theorem test_step_T79 :
    faultOf (run (setAccess (setX base 0 0x4000) [⟨0x401F, 1, .ok, .pageFault 7⟩]) [0xC5, 0xFD, 0x11, 0x00]) =
      some (.pageFault 7 0x401F 0x400000) := by decide +kernel

/-- As T74 by the 3-byte prefix (R124). -/
theorem test_step_vex3_store256 :
    memAfter (run (setX (base.setV 0 (elements [1, 2, 3, 4, 5])) 0 0x4000) [0xC4, 0xE1, 0x7D, 0x11, 0x00]) 0x4000 33 =
      some [1, 0, 0, 0, 0, 0, 0, 0, 2, 0, 0, 0, 0, 0, 0, 0, 3, 0, 0, 0, 0, 0, 0, 0, 4, 0, 0, 0, 0, 0, 0, 0, 0] := by
  decide +kernel

theorem test_step_T49 :
    vAfter (run (setMem (setX (setK (base.setV 1 ones) 2 1) 0 0x5000) 0x5000 [0, 0, 0, 0, 0, 0, 0xF0, 0x3F])
      [0x62, 0xF1, 0xFD, 0x0A, 0x10, 0x08]) 1 = some (pair (-1) 0x3FF0000000000000) := by decide +kernel

theorem test_step_T58 :
    vAfter (run (setK ((base.setV 1 ones).setV 2 (pair 9 8)) 3 0xFC) [0x62, 0xF1, 0xFD, 0x0B, 0x10, 0xCA]) 1 =
      some (pair (-1) (-1)) := by decide +kernel

theorem test_step_T50 :
    memAfter (run (setX (setK (base.setV 1 (pair 0xAAAAAAAAAAAAAAAA 0x5555555555555555)) 2 2) 0 0x6000)
      [0x62, 0xF1, 0xFD, 0x0A, 0x11, 0x08]) 0x6000 16 = some (List.replicate 8 0 ++ List.replicate 8 0xAA) := by
  decide +kernel

theorem test_step_T61 :
    let o := run (setX (base.setV 1 ones) 0 0x6000) [0x62, 0xF1, 0xFD, 0x0A, 0x11, 0x08]
    memAfter o 0x6000 16 = some (List.replicate 16 0) ∧ ripAfter o = some 0x400006 := by decide +kernel

theorem test_step_T51 :
    vAfter (run (setK ((base.setV 1 (elements [0xF0, 0xF1, 0xF2, 0xF3, -1, -1, -1, -1])).setV 2 (elements [0x10, 0x11, 0x12, 0x13]))
      1 0x0A) [0x62, 0xF1, 0xFD, 0x29, 0x10, 0xCA]) 1 = some (elements [0xF0, 0x11, 0xF2, 0x13]) := by decide +kernel

theorem test_step_T68 :
    vAfter (run (setMem (setX base 0 0xA040) 0xA020 (counting 1 32)) [0x62, 0xF1, 0xFD, 0x28, 0x10, 0x68, 0xFF]) 5 =
      some (elements [0x0807060504030201, 0x100F0E0D0C0B0A09, 0x1817161514131211, 0x201F1E1D1C1B1A19]) := by
  decide +kernel

theorem test_step_T54 :
    memAfter (run (setX (base.setV 0 (elements [0x0101010101010101, 0x0202020202020202, 0x0303030303030303, 0x0404040404040404]))
      0 0x7004) [0x62, 0xF1, 0xFD, 0x28, 0x11, 0x00]) 0x7004 33 =
      some (List.replicate 8 1 ++ List.replicate 8 2 ++ List.replicate 8 3 ++ List.replicate 8 4 ++ [0]) := by
  decide +kernel

theorem test_step_T53 :
    vAfter (run (setK ((base.setV 1 ones).setV 2 (elements [0x1000, 0x1001, 0x1002, 0x1003, 0x1004, 0x1005, 0x1006, 0x1007])) 1 0xA5)
      [0x62, 0xF1, 0xFD, 0xC9, 0x10, 0xCA]) 1 = some (elements [0x1000, 0, 0x1002, 0, 0, 0x1005, 0, 0x1007]) := by
  decide +kernel

theorem test_step_T65 :
    vAfter (run (base.setV 30 (elements [1, 2, 3, 4, 5, 6, 7, 8])) [0x62, 0x81, 0xFD, 0x48, 0x10, 0xCE]) 17 =
      some (elements [1, 2, 3, 4, 5, 6, 7, 8]) := by decide +kernel

theorem test_step_T57 :
    memAfter (run (setX (setK (base.setV 0 (elements [0xE0, 0xE1, 0xE2, 0xE3, 0xE4, 0xE5, 0xE6, 0xE7])) 1 0x81) 0 0x8000)
      [0x62, 0xF1, 0xFD, 0x49, 0x11, 0x00]) 0x8000 64 =
      some ([0xE0] ++ List.replicate 55 0 ++ [0xE7] ++ List.replicate 7 0) := by decide +kernel

theorem test_step_T67 :
    vAfter (run (setK ((base.setV 2 ones).setV 1 (elements [0x30, 0x31, 0x32, 0x33])) 1 1) [0x62, 0xF1, 0xFD, 0xC9, 0x11, 0xCA]) 2 =
      some (elements [0x30]) := by decide +kernel

/-! ## Address checks and addresses -/

/-- T81 and T82: a non-canonical operand through the data and the stack segment. T83 and T88: every byte is checked. -/
theorem test_access_T81_to_T83_T88 :
    accessStop base .read false 0x0000800000000000 = some (raise base .gp) ∧
    accessStop base .read true 0x0000800000000000 = some (raise base .ss) ∧
    accessStop base .read false 0x00007FFFFFFFFFFF = none ∧
    accessStop base .read false 0xFFFFFFFFFFFFFFFF = none ∧
    accessStop base .read false 0x10000000000000000 = some (raise base .gp) := by decide +kernel

/-- T26: base 13 is in the data segment; T82: base 4 in the stack segment; R56: so is base 5, but not under FS. -/
theorem test_stack_segment :
    ((Enc.sseRex [.opsize] { noRex with b := true } (.reg 0)).operand (.base 5 (.d8 0))).usesStack = false ∧
    ((Enc.sse [.opsize] (.reg 0)).operand (.sib 0 4 4 .none)).usesStack = true ∧
    ((Enc.sse [.opsize] (.reg 0)).operand (.base 5 (.d8 0))).usesStack = true ∧
    ((Enc.sse [.opsize, .seg .fs] (.reg 0)).operand (.base 5 (.d8 0))).usesStack = false := by decide

/-- T6, T86, T87, T56 and T93, in this order. -/
theorem test_effective_addresses :
    ((Enc.sse [.opsize] (.mem (.ripRel 0x100))).memRef base 16 (.ripRel 0x100)).ea = 0x400000 + 8 + 0x100 ∧
    ((Enc.sse [.addrsize, .opsize] (.mem atRax)).memRef (setX base 0 0xFFFFFFFF00001000) 16 atRax).ea = 0x1000 ∧
    ((Enc.sse [.opsize] (.mem (.sib 3 1 6 (.d8 16)))).memRef (setX (setX base 6 0x2000) 1 3) 16 (.sib 3 1 6 (.d8 16))).ea =
      0x2028 ∧
    ((Enc.evex [] none (evex false 0) (.mem (.base 0 (.d8 1))) 512).memRef (setX base 0 0x9000) 64 (.base 0 (.d8 1))).ea =
      0x9040 ∧
    ((Enc.evex [] none (evex false 0) (.mem (.ripRel 0x40)) 512).memRef base 64 (.ripRel 0x40)).ea = 0x400000 + 10 + 0x40 := by
  decide +kernel

/-- T84: #NM with CR0.TS, #UD with CR0.EM as well. -/
theorem test_front_T84 :
    front { base with cr0 := 0x60000018 } false false 4 = some (raise base .nm) ∧
    (State.sseAvailable { base with cr0 := 0x6000001C } = false) ∧ front base false true 4 = some (raise base .ud) := by
  decide +kernel

/-- T62 with `suppressed`: no failed check, and none that is optional; T64: the enabled element's failure stops. -/
theorem test_T62_T64 :
    let s := setAccess (setX base 0 0x5000) [⟨0x5008, 8, .pageFault 4, .ok⟩]
    let r : MemRef := { ea := 0x5000, stack := false, size := 16 }
    failures s .read r (fun j => j == 0) = [] ∧
    optionalFailures { s with cfg := { s.cfg with suppression := .suppressed } } .read r (fun j => j == 0) = [] ∧
    optionalFailures s .read r (fun j => j == 0) ≠ [] ∧
    failures s .read r (fun j => j == 1) ≠ [] := by decide +kernel

/-- T85: at 1008H an #AC is optional where the check is enabled; at 1010H there is none. -/
theorem test_T85 :
    let s : State := { base with cr0 := 0x60040010, rflags := 0x40002, cpl := 3 }
    optionalFailures s .read { ea := 0x1008, stack := false, size := 16 } everyElement = [raise s .ac] ∧
    optionalFailures s .read { ea := 0x1010, stack := false, size := 16 } everyElement = [] := by decide +kernel

/-! ## Witnesses: for each obligation with hypotheses, values that meet all of them -/

theorem sseReady_base : SseReady base := by constructor <;> decide

theorem vexReady_base : VexReady base := by constructor <;> decide

theorem evexReady_base (vl : Nat) : EvexReady base vl := by constructor <;> first | decide | exact fun _ => by decide

/-- The last 16 addresses of the lower half: the access passes, and the byte after them does not exist. -/
def atTop : State := setX base 0 0x00007FFFFFFFFFF0

/-- `base` with [rax] at 1001H, K[1] = 5 and the 64 bytes from 1001H on readable but for masked-off elements. -/
def masked : State :=
  setAccess (setK (setX { base with cfg := { base.cfg with suppression := .suppressed } } 0 0x1001) 1 5)
    [⟨0x1009, 8, .pageFault 4, .pageFault 6⟩]

theorem evexReady_masked (vl : Nat) : EvexReady masked vl := by
  constructor <;> first | decide | exact fun _ => by decide

theorem wellStored_of_zero {s : State} (hm : s.mem.wf = true) (hv : s.vregs = Vector.replicate 32 0#512)
    (hk : s.kregs = Vector.replicate 8 0#64) : s.WellStored :=
  ⟨hm, fun n i _ => by simp [State.v, hv], fun n i _ => by simp [State.k, hk]⟩

theorem test_witness_StepKeepsWellStored :
    (base.withProgram [0x66, 0x0F, 0x11, 0x00]).WellStored ∧
      ∃ t, step (base.withProgram [0x66, 0x0F, 0x11, 0x00]) = .next t :=
  ⟨wellStored_of_zero (by decide +kernel) rfl rfl, next_of_completes (by decide +kernel)⟩

/-- The shortest terms and the longest one: four prefixes and a REX byte before an EVEX prefix, SIB and disp32. -/
def longest : Instr :=
  .evexMov512RmReg [.lock, .seg .fs, .opsize, .addrsize] (some noRex) (evex true 0) 7 (.mem (.sib 3 7 7 (.d32 (-1))))

theorem test_witness_DecodeOfEncodeIsTheInstruction :
    (Instr.movupdRegRm [.opsize] 1 (.reg 2)).shaped = true ∧ longest.shaped = true := by decide

theorem test_witness_DecodedBytesAreTheEncoding :
    decode [0x66, 0x0F, 0x10, 0xCA, 0xFF] = .instr (.movupdRegRm [.opsize] 1 (.reg 2)) ∧
    decode (encode longest) = .instr longest := by decide +kernel

/-- The bounds are reached: 4, 16, 13 for a legal term, 6 for an EVEX one. -/
theorem test_witness_EncodingLengthBounds :
    (Instr.vex2Mov128RegRm [] none vex2 1 (.reg 2)).shaped = true ∧
    (encode (.vex2Mov128RegRm [] none vex2 1 (.reg 2))).length = 4 ∧
    longest.shaped = true ∧ (encode longest).length = 16 ∧
    (Instr.evexMov512RegRm [.seg .fs, .addrsize] none (evex false 1) 0 (.mem (.sibNoBase 0 4 0))).wellFormed = true ∧
    (encode (.evexMov512RegRm [.seg .fs, .addrsize] none (evex false 1) 0 (.mem (.sibNoBase 0 4 0)))).length = 13 ∧
    familyOf (.evexMov128RegRm [] none (evex false 0) 1 (.reg 2)) = .evexVl ∧
    familyOf (.evexMov512RegRm [] none (evex false 0) 1 (.reg 2)) = .evex512 ∧
    (encode (.evexMov128RegRm [] none (evex false 0) 1 (.reg 2))).length = 6 := by decide

theorem test_witness_RepeatedPrefixGroupIsRefused :
    (LegacyPrefix.seg .cs).group = (LegacyPrefix.seg .ds).group ∧ LegacyPrefix.opsize.group = LegacyPrefix.opsize.group ∧
    LegacyPrefix.lock.group = LegacyPrefix.rep.group := by decide

/-- Each premise by a byte of T40, one condition failing at a time. -/
theorem test_witness_NeighbourEncodingsAreNotInScope :
    (0xF8#8).extractLsb' 0 2 ≠ 0b01#2 ∧ (0xE2#8).extractLsb' 0 5 ≠ 0b00001#5 ∧ (0x78#8).extractLsb' 0 2 ≠ 0b01#2 ∧
    (0xF2#8).extractLsb' 0 3 ≠ 0b001#3 ∧ (0x7D#8).getLsbD 7 = false ∧ (0xFC#8).extractLsb' 0 2 ≠ 0b01#2 := by decide

/-- A program whose instruction ends in its half of the address space, and one whose instruction does not. -/
theorem test_witness_StepRunsTheDecodedInstruction :
    let s := base.withProgram [0x66, 0x0F, 0x10, 0xCA]
    let u := ({ base with rip := 0x00007FFFFFFFFFFD } : State).withProgram [0x66, 0x0F, 0x10, 0xCA]
    let i := Instr.movupdRegRm [.opsize] 1 (.reg 2)
    (s.mode = .bits64 ∧ s.text.has s.rip.toNat = true ∧ decode (fetch s) = .instr i ∧ ripSpanOk s (instrLength i) = true) ∧
    (u.mode = .bits64 ∧ u.text.has u.rip.toNat = true ∧ decode (fetch u) = .instr i ∧
      ripSpanOk u (instrLength i) = false) := by decide +kernel

theorem test_witness_InstructionStandingInTextRuns :
    let s := base.withProgram [0x66, 0x0F, 0x10, 0xCA]
    let i := Instr.movupdRegRm [.opsize] 1 (.reg 2)
    s.mode = .bits64 ∧ i.shaped = true ∧
    (∀ k (h : k < (encode i).length), s.mem.read (s.rip.toNat + k) = (encode i)[k]) ∧
    s.text.base.toNat ≤ s.rip.toNat ∧ s.rip.toNat + (encode i).length ≤ s.text.base.toNat + s.text.size ∧
    ripSpanOk s (encode i).length = true := by decide +kernel

theorem test_witness_StepAdvancesRipByTheLength : ∃ t, step (base.withProgram [0xC5, 0xFD, 0x10, 0x00]) = .next t :=
  next_of_completes (by decide +kernel)

theorem test_witness_NoStepAtTheEndOfTheText : State.reset.mode = .bits64 ∧ State.reset.finished := by
  unfold State.finished
  decide

theorem test_witness_OtherModesAreRefused : ({ base with mode := .compatibility } : State).mode ≠ .bits64 := by decide

theorem readable_of {s : State} {c : Enc} {size : Nat} {en : Nat → Bool} {a : AddrForm}
    (h1 : ∀ k, k < size → (en (k / 8) = true ∨ s.cfg.suppression = .either) →
      canonical s.cfg.la ((c.memRef s size a).ea.toNat + k) = true ∧
        accessAt s.cfg.access .read ((c.memRef s size a).ea.toNat + k) = .ok)
    (h2 : s.acEnabled = false) : ReadableRm s c size en (.mem a) :=
  ⟨h1, .inl h2⟩

theorem storable_of {s : State} {r : MemRef} {en : Nat → Bool}
    (h1 : ∀ k, k < r.size → (en (k / 8) = true ∨ s.cfg.suppression = .either) →
      canonical s.cfg.la (r.ea.toNat + k) = true ∧ accessAt s.cfg.access .write (r.ea.toNat + k) = .ok)
    (h2 : s.acEnabled = false) (h3 : ∀ k, k < r.size → en (k / 8) = true → s.text.has (r.ea.toNat + k) = false) :
    Storable s r en :=
  ⟨⟨h1, .inl h2⟩, h3⟩

/-- Registers for the second pair of clauses; for the first, an operand that ends at the last address of the lower half. -/
theorem test_witness_LegacyMoveToRegisterKeepsUpperBits :
    SseReady atTop ∧ sseLegal [.opsize] = true ∧
    (Enc.sse [.opsize] (.mem atRax)).len ≤ 15 ∧ ReadableRm atTop (Enc.sse [.opsize] (.mem atRax)) 16 everyElement (.mem atRax) ∧
    (Enc.sseRex [.opsize] noRex (.mem atRax)).len ≤ 15 ∧
    ReadableRm atTop (Enc.sseRex [.opsize] noRex (.mem atRax)) 16 everyElement (.mem atRax) ∧
    [LegacyPrefix.opsize].length + 3 ≤ 15 ∧ [LegacyPrefix.opsize].length + 4 ≤ 15 :=
  ⟨by constructor <;> decide, by decide, by decide, readable_of (by decide +kernel) (by decide), by decide,
    readable_of (by decide +kernel) (by decide), by decide, by decide⟩

theorem test_witness_LegacyStoreWritesSixteenBytes :
    SseReady atTop ∧ sseLegal [.opsize] = true ∧ (Enc.sse [.opsize] (.mem atRax)).len ≤ 15 ∧
    Storable atTop ((Enc.sse [.opsize] (.mem atRax)).memRef atTop 16 atRax) everyElement ∧
    (Enc.sseRex [.opsize] noRex (.mem atRax)).len ≤ 15 ∧
    Storable atTop ((Enc.sseRex [.opsize] noRex (.mem atRax)).memRef atTop 16 atRax) everyElement :=
  ⟨by constructor <;> decide, by decide, by decide, storable_of (by decide +kernel) (by decide) (by decide +kernel),
    by decide, storable_of (by decide +kernel) (by decide) (by decide +kernel)⟩

theorem test_witness_VexLoadOrCopyZeroesUpperBits :
    VexReady base ∧ base.cfg.consistent = true ∧ vexLegal [.seg .gs] none vex2.vvvv = true ∧
    (Enc.vex2 [.seg .gs] none vex2 (.mem atRax)).len ≤ 15 ∧
    ReadableRm base (Enc.vex2 [.seg .gs] none vex2 (.mem atRax)) 16 everyElement (.mem atRax) ∧
    ReadableRm base (Enc.vex2 [.seg .gs] none vex2 (.mem atRax)) 32 everyElement (.mem atRax) ∧
    vexLegal [.seg .gs] none vex3.vvvv = true ∧ (Enc.vex3 [.seg .gs] none vex3 (.mem atRax)).len ≤ 15 ∧
    ReadableRm base (Enc.vex3 [.seg .gs] none vex3 (.mem atRax)) 16 everyElement (.mem atRax) ∧
    ReadableRm base (Enc.vex3 [.seg .gs] none vex3 (.mem atRax)) 32 everyElement (.mem atRax) :=
  ⟨vexReady_base, by decide, by decide, by decide, readable_of (by decide +kernel) (by decide),
    readable_of (by decide +kernel) (by decide), by decide, by decide, readable_of (by decide +kernel) (by decide),
    readable_of (by decide +kernel) (by decide)⟩

theorem test_witness_VexCopyToRmZeroesUpperBits :
    VexReady base ∧ base.cfg.consistent = true ∧ vexLegal [] none vex2.vvvv = true ∧
    (Enc.vex2 [] none vex2 (.reg 7)).len ≤ 15 ∧ vexLegal [] none vex3.vvvv = true ∧
    (Enc.vex3 [] none vex3 (.reg 7)).len ≤ 15 :=
  ⟨vexReady_base, by decide, by decide, by decide, by decide, by decide⟩

theorem test_witness_VexStoreWritesTheVectorLength :
    VexReady base ∧ vexLegal [] none vex2.vvvv = true ∧ (Enc.vex2 [] none vex2 (.mem atRax)).len ≤ 15 ∧
    Storable base ((Enc.vex2 [] none vex2 (.mem atRax)).memRef base 16 atRax) everyElement ∧
    Storable base ((Enc.vex2 [] none vex2 (.mem atRax)).memRef base 32 atRax) everyElement ∧
    vexLegal [] none vex3.vvvv = true ∧ (Enc.vex3 [] none vex3 (.mem atRax)).len ≤ 15 ∧
    Storable base ((Enc.vex3 [] none vex3 (.mem atRax)).memRef base 16 atRax) everyElement ∧
    Storable base ((Enc.vex3 [] none vex3 (.mem atRax)).memRef base 32 atRax) everyElement :=
  ⟨vexReady_base, by decide, by decide, storable_of (by decide +kernel) (by decide) (by decide +kernel),
    storable_of (by decide +kernel) (by decide) (by decide +kernel), by decide, by decide,
    storable_of (by decide +kernel) (by decide) (by decide +kernel),
    storable_of (by decide +kernel) (by decide) (by decide +kernel)⟩

/-- Registers 8 to 15 by the 3-byte prefix and by REX; the legacy clause on a processor without AVX. -/
theorem test_witness_VexSelfCopyClearsUpperBits :
    let w : Vex3 := { vex3 with r := true, b := true }
    let x : Rex := { noRex with r := true, b := true }
    let noAvx : State := { base with cfg := { base.cfg with
      maxvl := .v128, hasAvx := false, hasAvx512f := false, hasAvx512vl := false } }
    [LegacyPrefix.addrsize].length ≤ 4 ∧
    (VexReady base ∧ base.cfg.consistent = true ∧ vexLegal [.addrsize] none w.vvvv = true ∧ w.r = w.b) ∧
    (SseReady noAvx ∧ noAvx.cfg.consistent = true ∧ sseLegal [.addrsize] = true ∧ x.r = x.b) :=
  ⟨by decide, ⟨vexReady_base, by decide, by decide, rfl⟩, by constructor <;> decide, by decide, by decide, rfl⟩

/-- `masked`: bytes of a masked-off element are not readable and need not be. -/
theorem test_witness_EvexLoadOrCopyFollowsTheWritemask :
    masked.cfg.consistent = true ∧ evexLegal [] none (evex true 1) = true ∧ evexLength [] none (.mem atRax) ≤ 15 ∧
    EvexReady masked 128 ∧
    ReadableRm masked (Enc.evex [] none (evex true 1) (.mem atRax) 128) 16 (masked.enabled 1) (.mem atRax) ∧
    EvexReady masked 256 ∧
    ReadableRm masked (Enc.evex [] none (evex true 1) (.mem atRax) 256) 32 (masked.enabled 1) (.mem atRax) ∧
    EvexReady masked 512 ∧
    ReadableRm masked (Enc.evex [] none (evex true 1) (.mem atRax) 512) 64 (masked.enabled 1) (.mem atRax) :=
  ⟨by decide, by decide, by decide, evexReady_masked _, readable_of (by decide +kernel) (by decide), evexReady_masked _,
    readable_of (by decide +kernel) (by decide), evexReady_masked _, readable_of (by decide +kernel) (by decide)⟩

theorem test_witness_EvexCopyToRmFollowsTheWritemask :
    base.cfg.consistent = true ∧ evexLegal [] none (evex true 7) = true ∧ evexLength [] none (.reg 2) ≤ 15 ∧
    EvexReady base 128 ∧ EvexReady base 256 ∧ EvexReady base 512 :=
  ⟨by decide, by decide, by decide, evexReady_base _, evexReady_base _, evexReady_base _⟩

theorem test_witness_EvexStoreWritesEnabledElements :
    evexLegal [] none (evex false 1) = true ∧ (evex false 1).z = false ∧ evexLength [] none (.mem atRax) ≤ 15 ∧
    EvexReady masked 128 ∧
    Storable masked ((Enc.evex [] none (evex false 1) (.mem atRax) 128).memRef masked 16 atRax) (masked.enabled 1) ∧
    EvexReady masked 256 ∧
    Storable masked ((Enc.evex [] none (evex false 1) (.mem atRax) 256).memRef masked 32 atRax) (masked.enabled 1) ∧
    EvexReady masked 512 ∧
    Storable masked ((Enc.evex [] none (evex false 1) (.mem atRax) 512).memRef masked 64 atRax) (masked.enabled 1) :=
  ⟨by decide, by decide, by decide, evexReady_masked _, storable_of (by decide +kernel) (by decide) (by decide +kernel),
    evexReady_masked _, storable_of (by decide +kernel) (by decide) (by decide +kernel), evexReady_masked _,
    storable_of (by decide +kernel) (by decide) (by decide +kernel)⟩

/-- The sixteen instructions of the pairs with register operands, the EVEX ones behind an FS override. -/
theorem test_witness_UnmaskedEvexAgreesWithVex_registers :
    (evex false 0).aaa = 0#3 ∧ (evex false 0).rHi = false ∧ (evex false 0).r = vex3.r ∧ (evex false 0).r = vex2.r ∧
    (evex false 0).x = false ∧ (evex false 0).b = vex3.b ∧ (evex false 0).b = false ∧
    ∀ i ∈ [Instr.evexMov128RegRm [.seg .fs] none (evex false 0) 1 (.reg 2), .vex3Mov128RegRm [] none vex3 1 (.reg 2),
        .vex2Mov128RegRm [] none vex2 1 (.reg 2), .evexMov256RegRm [.seg .fs] none (evex false 0) 1 (.reg 2),
        .vex3Mov256RegRm [] none vex3 1 (.reg 2), .vex2Mov256RegRm [] none vex2 1 (.reg 2),
        .evexMov128RmReg [.seg .fs] none (evex false 0) 1 (.reg 2), .vex3Mov128RmReg [] none vex3 1 (.reg 2),
        .vex2Mov128RmReg [] none vex2 1 (.reg 2), .evexMov256RmReg [.seg .fs] none (evex false 0) 1 (.reg 2),
        .vex3Mov256RmReg [] none vex3 1 (.reg 2), .vex2Mov256RmReg [] none vex2 1 (.reg 2)],
      completes (exec i base) = true := by decide +kernel

/-- Memory operands that name the same access: a disp8 of 1, scaled by the EVEX form, and a disp32. -/
theorem test_witness_UnmaskedEvexAgreesWithVex_memory :
    let s := setX base 0 0x1000
    let a : AddrForm := .base 0 (.d8 1)
    let far (d : BitVec 32) : AddrForm := .base 0 (.d32 d)
    (Enc.evex [] none (evex false 0) (.mem a) 128).memRef s 16 a = (Enc.vex3 [] none vex3 (.mem (far 16))).memRef s 16 (far 16) ∧
    (Enc.evex [] none (evex false 0) (.mem a) 128).memRef s 16 a = (Enc.vex2 [] none vex2 (.mem (far 16))).memRef s 16 (far 16) ∧
    (Enc.evex [] none (evex false 0) (.mem a) 256).memRef s 32 a = (Enc.vex3 [] none vex3 (.mem (far 32))).memRef s 32 (far 32) ∧
    (Enc.evex [] none (evex false 0) (.mem a) 256).memRef s 32 a = (Enc.vex2 [] none vex2 (.mem (far 32))).memRef s 32 (far 32) ∧
    ∀ i ∈ [Instr.evexMov128RegRm [] none (evex false 0) 1 (.mem a), .vex2Mov128RegRm [] none vex2 1 (.mem (far 16)),
        .evexMov256RmReg [] none (evex false 0) 1 (.mem a), .vex3Mov256RmReg [] none vex3 1 (.mem (far 32))],
      completes (exec i s) = true := by decide +kernel

/-- A masked load and a memory that differs from the state's on a masked-off element. -/
theorem test_witness_LoadDependsOnlyOnEnabledBytes :
    let i := Instr.evexMov128RegRm [] none (evex false 1) 1 (.mem atRax)
    let m := masked.mem.write 0x1009 0xFF
    ∃ acc, memAccess masked i = some acc ∧ acc.kind = .read ∧
      (∀ k, k < acc.ref.size → acc.en (k / 8) = true →
        m.read (acc.ref.ea.toNat + k) = masked.mem.read (acc.ref.ea.toNat + k)) ∧
      ∃ t, exec i masked = .next t :=
  ⟨_, rfl, rfl, by decide +kernel, next_of_completes (by decide +kernel)⟩

/-- T58: bits 2 to 7 of the mask differ from those of K[3], bits 1:0 do not; likewise above 4 and 8 bits. -/
theorem test_witness_OpmaskBitsAboveTheElementsHaveNoEffect :
    let s := setK base 3 0xFC
    (∀ j, j < 2 → (0x10#64).getLsbD j = (s.k 3).getLsbD j) ∧ (∀ j, j < 4 → (0x1C#64).getLsbD j = (s.k 3).getLsbD j) ∧
    (∀ j, j < 8 → (0x1FC#64).getLsbD j = (s.k 3).getLsbD j) := by decide

theorem test_witness_OnlyTheDestinationAndRipChange :
    (∃ t, exec (.evexMov512RmReg [] none (evex false 1) 1 (.mem atRax)) masked = .next t) ∧
    ∃ t, exec (.movupdRegRm [.opsize] 1 (.mem atRax)) atTop = .next t :=
  ⟨next_of_completes (by decide +kernel), next_of_completes (by decide +kernel)⟩

theorem test_witness_StepKeepsTheProgramText :
    (∃ t, step (base.withProgram [0x66, 0x0F, 0x11, 0x00]) = .next t) ∧
    (base.withProgram [0x66, 0x0F, 0x11, 0x00]).text.has 0x400003 = true :=
  ⟨next_of_completes (by decide +kernel), by decide⟩

theorem accessible_of {s : State} {kind : AccessKind} {r : MemRef} {en : Nat → Bool}
    (h1 : ∀ k, k < r.size → (en (k / 8) = true ∨ s.cfg.suppression = .either) →
      canonical s.cfg.la (r.ea.toNat + k) = true ∧ accessAt s.cfg.access kind (r.ea.toNat + k) = .ok)
    (h2 : s.acEnabled = false) : Accessible s kind r en :=
  ⟨h1, .inl h2⟩

/-- A store of 16 bytes of which the last one is the first byte of the text. -/
theorem test_witness_StoreIntoTheTextIsRefused :
    let i := Instr.movupdRmReg [.opsize] 0 (.mem atRax)
    let s := setX (base.withProgram [0x66, 0x0F, 0x11, 0x00]) 0 0x3FFFF1
    ReachesOperation s i ∧ ∃ acc, memAccess s i = some acc ∧ acc.kind = .write ∧ Accessible s .write acc.ref acc.en ∧
      15 < acc.ref.size ∧ acc.en (15 / 8) = true ∧ s.text.has (acc.ref.ea.toNat + 15) = true :=
  ⟨by constructor <;> decide +kernel, _, rfl, rfl, accessible_of (by decide +kernel) (by decide), by decide, rfl,
    by decide +kernel⟩

theorem test_witness_IllegalEncodingRaisesInvalidOpcode :
    let i := Instr.movupdRmReg [.lock, .opsize] 0 (.mem atRax)
    base.mode = .bits64 ∧ instrLength i ≤ 15 ∧ i.legal = false := by decide

theorem test_witness_ReservedVvvvRaisesInvalidOpcode :
    base.mode = .bits64 ∧ (0#4 ≠ 15#4) ∧ (14#4 ≠ 15#4) ∧ (Enc.vex2 [] none ⟨false, 0⟩ (.reg 2)).len ≤ 15 ∧
    (Enc.vex3 [] none ⟨false, false, false, false, 14⟩ (.reg 2)).len ≤ 15 ∧ evexLength [] none (.reg 2) ≤ 15 := by decide

theorem test_witness_ReservedVectorLengthRaisesInvalidOpcode :
    onePerGroup [.addrsize] = true ∧ (RmOperand.reg 2).shaped = true ∧ (0x11#8 = 0x10#8 ∨ 0x11#8 = 0x11#8) ∧
    base.mode = .bits64 ∧ evexLength [.addrsize] none (.reg 2) ≤ 15 ∧
    ripSpanOk base (evexLength [.addrsize] none (.reg 2)) = true := by decide

/-- T42, and one disabled state for each family. -/
theorem test_witness_UnavailableFormRaisesInvalidOpcode :
    let noSse := ({ base with cfg := { base.cfg with hasSse2 := false } } : State)
    let noVl := ({ base with cfg := { base.cfg with hasAvx512vl := false } } : State)
    let noHi := ({ base with xcr0 := 0x67 } : State)
    let noXsave := ({ base with cr4 := 0x200 } : State)
    (noSse.mode = .bits64 ∧ instrLength (.movupdRegRm [.opsize] 1 (.reg 2)) ≤ 15 ∧ Unavailable noSse .sse) ∧
    (noXsave.mode = .bits64 ∧ instrLength (.vex2Mov128RegRm [] none vex2 1 (.reg 2)) ≤ 15 ∧ Unavailable noXsave .vex) ∧
    (noVl.mode = .bits64 ∧ instrLength (.evexMov256RmReg [] none (evex false 0) 0 (.mem atRax)) ≤ 15 ∧
      Unavailable noVl .evexVl) ∧
    (noHi.mode = .bits64 ∧ instrLength (.evexMov512RegRm [] none (evex false 0) 1 (.reg 2)) ≤ 15 ∧
      Unavailable noHi .evex512) := by
  unfold Unavailable
  decide

theorem test_witness_TaskSwitchedRaisesDeviceNotAvailable :
    let s : State := { base with cr0 := 0x60000018 }
    let i := Instr.evexMov512RegRm [] none (evex false 0) 1 (.reg 2)
    (s.mode = .bits64 ∧ instrLength i ≤ 15 ∧ i.legal = true ∧ available s i = true ∧ s.cr0.getLsbD 3 = true) ∧
    base.cr0.getLsbD 3 = false := by decide

/-- A form with a memory operand that faults (T81), and one without a memory operand. -/
theorem test_witness_LaunchPremisesLeaveOnlyMemoryFaults :
    let s := setX base 0 0x0000800000000000
    let i := Instr.movupdRegRm [.opsize] 0 (.mem atRax)
    let j := Instr.movupdRegRm [.opsize] 0 (.reg 1)
    (familyOf i).Ready s ∧ s.acEnabled = false ∧ i.legal = true ∧ instrLength i ≤ 15 ∧
      faultOf (exec i s) = some (.generalProtection 0x400000) ∧
      (familyOf j).Ready s ∧ j.legal = true ∧ instrLength j ≤ 15 ∧ (memAccess s j).isNone = true :=
  ⟨(by constructor <;> decide : SseReady _), by decide, by decide, by decide, by decide +kernel,
    (by constructor <;> decide : SseReady _), by decide, by decide, rfl⟩

/-- `longest` is illegal; a legal term above 15 bytes is one no decoder gives, so its clause has a term of five segment
prefixes. -/
theorem test_witness_TooLongInstructionRaisesGeneralProtection :
    base.mode = .bits64 ∧ 15 < instrLength longest ∧ longest.legal = false ∧
    let i := Instr.evexMov512RegRm [.seg .cs, .seg .cs, .seg .cs, .seg .cs, .seg .cs] none (evex false 0) 0
      (.mem (.sibNoBase 0 4 0))
    15 < instrLength i ∧ i.legal = true ∧ available base i = true := by decide

/-- Byte 8 of the operand is at 0000800000000000H (T83). -/
theorem test_witness_FailedByteCheckStopsTheInstruction :
    let i := Instr.movupdRegRm [.opsize] 0 (.mem atRax)
    let s := setX base 0 0x00007FFFFFFFFFF8
    ReachesOperation s i ∧ ∃ acc, memAccess s i = some acc ∧ 8 < acc.ref.size ∧ acc.en (8 / 8) = true ∧
      accessStop s acc.kind acc.ref.stack (acc.ref.ea.toNat + 8) ≠ none :=
  ⟨by constructor <;> decide +kernel, _, rfl, by decide, rfl, by decide +kernel⟩

/-- Byte 8 is the first that is not canonical (T83); and under `suppressed` one of an enabled element beside a masked-off
element that is not readable. -/
theorem test_witness_NonCanonicalOperandRaisesStackOrGeneralProtection :
    let i := Instr.movupdRegRm [.opsize] 0 (.mem atRax)
    let s := setX base 0 0x00007FFFFFFFFFF8
    let j := Instr.evexMov128RegRm [] none (evex false 1) 0 (.mem atRax)
    let u := setAccess (setX (setK masked 1 2) 0 0x00007FFFFFFFFFF8) [⟨0x00007FFFFFFFFFF8, 8, .pageFault 4, .ok⟩]
    (ReachesOperation s i ∧ s.acEnabled = false ∧ ∃ acc, memAccess s i = some acc ∧
      (∀ j, j < acc.ref.size → (acc.en (j / 8) = true ∨ s.cfg.suppression = .either) →
        canonical s.cfg.la (acc.ref.ea.toNat + j) = true → accessAt s.cfg.access acc.kind (acc.ref.ea.toNat + j) = .ok) ∧
      8 < acc.ref.size ∧ acc.en (8 / 8) = true ∧ canonical s.cfg.la (acc.ref.ea.toNat + 8) = false) ∧
    ReachesOperation u j ∧ u.acEnabled = false ∧ ∃ acc, memAccess u j = some acc ∧
      (∀ j, j < acc.ref.size → (acc.en (j / 8) = true ∨ u.cfg.suppression = .either) →
        canonical u.cfg.la (acc.ref.ea.toNat + j) = true → accessAt u.cfg.access acc.kind (acc.ref.ea.toNat + j) = .ok) ∧
      8 < acc.ref.size ∧ acc.en (8 / 8) = true ∧ canonical u.cfg.la (acc.ref.ea.toNat + 8) = false :=
  ⟨⟨by constructor <;> decide +kernel, by decide, _, rfl, by decide +kernel, by decide, rfl, by decide +kernel⟩,
    by constructor <;> decide +kernel, by decide, _, rfl, by decide +kernel, by decide, by decide +kernel,
    by decide +kernel⟩

/-- T64: the enabled element is not readable; and under `suppressed` with a masked-off element that is not canonical. -/
theorem test_witness_ForbiddenTranslationRaisesPageFault :
    let i := Instr.evexMov128RegRm [] none (evex false 2) 1 (.mem atRax)
    let s := setAccess (setK (setX base 0 0x5000) 2 2) [⟨0x5008, 8, .pageFault 4, .ok⟩]
    let u := setAccess (setK (setX masked 0 0x00007FFFFFFFFFF8) 2 1) [⟨0x00007FFFFFFFFFF8, 8, .pageFault 4, .ok⟩]
    (ReachesOperation s i ∧ s.acEnabled = false ∧ ∃ acc, memAccess s i = some acc ∧
      (∀ j, j < acc.ref.size → (acc.en (j / 8) = true ∨ s.cfg.suppression = .either) →
        canonical s.cfg.la (acc.ref.ea.toNat + j) = true ∧
        (accessAt s.cfg.access acc.kind (acc.ref.ea.toNat + j) = .ok ∨
          accessAt s.cfg.access acc.kind (acc.ref.ea.toNat + j) = .pageFault 4)) ∧
      15 < acc.ref.size ∧ acc.en (15 / 8) = true ∧
      accessAt s.cfg.access acc.kind (acc.ref.ea.toNat + 15) = .pageFault 4) ∧
    ReachesOperation u i ∧ u.acEnabled = false ∧ ∃ acc, memAccess u i = some acc ∧
      (∀ j, j < acc.ref.size → (acc.en (j / 8) = true ∨ u.cfg.suppression = .either) →
        canonical u.cfg.la (acc.ref.ea.toNat + j) = true ∧
        (accessAt u.cfg.access acc.kind (acc.ref.ea.toNat + j) = .ok ∨
          accessAt u.cfg.access acc.kind (acc.ref.ea.toNat + j) = .pageFault 4)) ∧
      0 < acc.ref.size ∧ acc.en (0 / 8) = true ∧
      accessAt u.cfg.access acc.kind (acc.ref.ea.toNat + 0) = .pageFault 4 :=
  ⟨⟨by constructor <;> decide +kernel, by decide, _, rfl, by decide +kernel, by decide, by decide +kernel,
    by decide +kernel⟩, by constructor <;> decide +kernel, by decide, _, rfl, by decide +kernel, by decide,
    by decide +kernel, by decide +kernel⟩

/-- T85, for a load and for a store. -/
theorem test_witness_UnalignedOperandUnderAlignmentCheck :
    let s : State := setX { base with cr0 := 0x60040010, rflags := 0x40002, cpl := 3 } 0 0x1008
    ∀ i ∈ [Instr.movupdRegRm [.opsize] 0 (.mem atRax), .movupdRmReg [.opsize] 0 (.mem atRax)],
      ReachesOperation s i ∧ s.acEnabled = true ∧ ∃ acc, memAccess s i = some acc ∧ acc.ref.ea.toNat % acc.ref.size ≠ 0 ∧
        (∀ k, k < acc.ref.size → (acc.en (k / 8) = true ∨ s.cfg.suppression = .either) →
          canonical s.cfg.la (acc.ref.ea.toNat + k) = true ∧
            accessAt s.cfg.access acc.kind (acc.ref.ea.toNat + k) = .ok) ∧
        ∀ k, k < acc.ref.size → acc.en (k / 8) = true → s.text.has (acc.ref.ea.toNat + k) = false := by
  intro s i hi
  simp only [List.mem_cons, List.not_mem_nil, or_false] at hi
  rcases hi with rfl | rfl
  · exact ⟨by constructor <;> decide +kernel, by decide, _, rfl, by decide +kernel, by decide +kernel, by decide +kernel⟩
  · exact ⟨by constructor <;> decide +kernel, by decide, _, rfl, by decide +kernel, by decide +kernel, by decide +kernel⟩

/-- T62: a masked-off element that is not readable, for a load and for a store, under `either` and under `suppressed`; the
operand is aligned where the alignment check is on. -/
theorem test_witness_MaskedOffFailureMayStopTheInstruction :
    let s := setAccess (setK (setX { base with cr0 := 0x60040010, rflags := 0x40002, cpl := 3 } 0 0x5000) 1 1)
      [⟨0x5008, 8, .pageFault 4, .pageFault 6⟩]
    ∀ u ∈ [s, { s with cfg := { s.cfg with suppression := .suppressed } }],
      ∀ i ∈ [Instr.evexMov128RegRm [] none (evex false 1) 1 (.mem atRax), .evexMov128RmReg [] none (evex false 1) 1 (.mem atRax)],
      ReachesOperation u i ∧ ∃ acc, memAccess u i = some acc ∧ (u.acEnabled = true ∧ acc.ref.ea.toNat % acc.ref.size = 0) ∧
        (∀ k, k < acc.ref.size → acc.en (k / 8) = true →
          canonical u.cfg.la (acc.ref.ea.toNat + k) = true ∧
            accessAt u.cfg.access acc.kind (acc.ref.ea.toNat + k) = .ok) ∧
        (∀ k, k < acc.ref.size → acc.en (k / 8) = true → u.text.has (acc.ref.ea.toNat + k) = false) ∧
        8 < acc.ref.size ∧ acc.en (8 / 8) = false ∧
        (accessStop u acc.kind acc.ref.stack (acc.ref.ea.toNat + 8)).isSome = true := by
  intro s u hu i hi
  simp only [List.mem_cons, List.not_mem_nil, or_false] at hu hi
  rcases hu with rfl | rfl <;> rcases hi with rfl | rfl <;>
    exact ⟨by constructor <;> decide +kernel, _, rfl, by decide +kernel, by decide +kernel, by decide +kernel, by decide,
      by decide +kernel, by decide +kernel⟩

/-- The five rows of 30_encoding.md R84; the index number 4 with X = 0 and 12 with X = 1; both overrides as the last one. -/
theorem test_witness_AddressComponentsFollowTheEncoding :
    let e : Evex := { evex false 0 with x := true }
    (Enc.evex [.addrsize, .seg .gs] none e (.reg 0) 256, e.x, e.b) ∈
      [(Enc.sse [.addrsize, .seg .gs] (.reg 0), false, false), (Enc.sseRex [.addrsize, .seg .gs] noRex (.reg 0), noRex.x, noRex.b),
       (Enc.vex2 [.addrsize, .seg .gs] none vex2 (.reg 0), false, false),
       (Enc.vex3 [.addrsize, .seg .gs] none vex3 (.reg 0), vex3.x, vex3.b),
       (Enc.evex [.addrsize, .seg .gs] none e (.reg 0) 256, e.x, e.b)] ∧
    ((Enc.evex [.addrsize, .seg .gs] none e (.reg 0) 256).operand (.sib 0 4 0 .none)).index = some 12 ∧
    ((Enc.sse [.opsize] (.reg 0)).operand (.sib 0 4 0 .none)).index = none ∧
    ([.addrsize, .seg .gs] : List LegacyPrefix) = [.addrsize] ++ .seg .gs :: [] ∧
    LegacyPrefix.seg .fs ∉ ([] : List LegacyPrefix) ∧ LegacyPrefix.seg .gs ∉ ([] : List LegacyPrefix) ∧
    ([.seg .fs, .opsize] : List LegacyPrefix) = [] ++ .seg .fs :: [.opsize] ∧
    LegacyPrefix.seg .fs ∉ [LegacyPrefix.opsize] ∧ LegacyPrefix.seg .gs ∉ [LegacyPrefix.opsize] := by decide

/-- A store and a load of the stored bytes. -/
def storeThenLoad : List Instr := [.movupdRmReg [.opsize] 0 (.mem atRax), .movupdRegRm [.opsize] 1 (.mem atRax)]

/-- `storeThenLoad` at 400000H, with [rax] at 1000H. -/
def launched : State :=
  { setMem (setX base 0 0x1000) 0x400000 [0x66, 0x0F, 0x11, 0x00, 0x66, 0x0F, 0x10, 0x08] with
    text := { base := 0x400000, size := 8 } }

theorem programText_launched : ProgramText launched storeThenLoad :=
  ⟨by decide, by decide, by decide +kernel, by decide⟩

theorem test_witness_RunTakesOneStepForEachInstruction :
    launched.mode = .bits64 ∧ (∀ i ∈ storeThenLoad, i.shaped = true) ∧ ProgramText launched storeThenLoad ∧
    completes (runSteps 2 launched) = true ∧ ripAfter (runSteps 2 launched) = some 0x400008 :=
  ⟨rfl, by decide, programText_launched, by decide +kernel, by decide +kernel⟩

theorem test_witness_LaunchedRunEndsOrStopsAtAnOperand :
    LaunchPremises launched storeThenLoad ∧ ∀ i ∈ storeThenLoad, i.wellFormed = true := by
  refine ⟨⟨rfl, by decide, ?_, by decide, ⟨programText_launched, ?_⟩⟩, by decide⟩
  · intro i hi
    simp only [storeThenLoad, List.mem_cons, List.not_mem_nil, or_false] at hi
    rcases hi with rfl | rfl <;> exact (by constructor <;> decide : SseReady launched)
  · intro n t i h hi
    rcases n with _ | _ | n
    · injection h with h
      subst h
      injection hi with hi
      subst hi
      decide +kernel
    · injection hi with hi
      subst hi
      simp [storeTouchesText, memAccess, accessOf]
    · cases hi

theorem test_witness_FaultReportsTheInstructionPointer :
    faultOf (exec (.movupdRmReg [.lock, .opsize] 0 (.mem atRax)) base) = some (.invalidOpcode 0x400000) ∧
    faultOf (run base [0xC5, 0xF1, 0x10, 0xCA]) = some (.invalidOpcode 0x400000) := by decide +kernel

theorem test_witness_StoredBytesLoadBackLittleEndian :
    (64 ≤ 64) ∧ (3 < 64) ∧ (60 + 4 ≤ 64) ∧
    (storeBytes { cells := [] } 0x1000 everyElement (elements [0x0807060504030201]) 64).read 0x1003 = 4 := by
  decide +kernel

end Sys2Proof.Tests
end

section
/-! Proofs: the refusal of a step outside 64-bit mode (00_scope.md R3, decision D1). -/

namespace Sys2Proof.Machine

/-! ## Where nothing is fetched -/

/-- A stop of the fetch is the step's outcome: the bytes are neither read nor decoded. -/
theorem step_of_fetchStop_eq_some {s : State} {st : Stop} (h : fetchStop s = some st) : step s = st.outcome := by
  rw [step, h]

/-- The mode is the first thing the fetch asks for, before any question about rip and the text. -/
theorem fetchStop_of_mode_ne_bits64 {s : State} (h : s.mode ≠ .bits64) :
    fetchStop s = some (.refuse .modeOutOfScope) :=
  if_pos h

/-- Settles O14: the fetch stops on the mode, and the step answers that stop. -/
theorem otherModesAreRefused : Obligations.OtherModesAreRefused :=
  fun _ hmode => step_of_fetchStop_eq_some (fetchStop_of_mode_ne_bits64 hmode)

end Sys2Proof.Machine
end

section
/-! Proofs: the canonical form of the storage at launch and after every step (10_state.md R20 to R23; log 1, log 5). -/

namespace Sys2Proof.Machine

/-! ## The launch state -/

@[simp] theorem reset_v (n : BitVec 5) : State.reset.v n = 0#512 := by simp [State.v, State.reset]

@[simp] theorem reset_k (n : BitVec 3) : State.reset.k n = 0#64 := by simp [State.k, State.reset]

/-- Settles O2: memory lists nothing, and every vector and opmask register is 0. -/
theorem resetIsWellStored : Obligations.ResetIsWellStored where
  memory := rfl
  vectors n i _ := by rw [reset_v, BitVec.getLsbD_zero]
  masks n i _ := by rw [reset_k, BitVec.getLsbD_zero]

/-! ## The destination register exists -/

/-- The number a register field has under its two extension bits (30_encoding.md R84). -/
theorem toNat_extended_field (hi b : Bool) (n : BitVec 3) :
    (BitVec.ofBool hi ++ BitVec.ofBool b ++ n).toNat = 16 * hi.toNat + 8 * b.toNat + n.toNat := by
  revert hi b n
  decide

theorem regNum_toNat (e : Ext) (reg : BitVec 3) :
    (e.regNum reg).toNat = 16 * e.rHi.toNat + 8 * e.r.toNat + reg.toNat :=
  toNat_extended_field ..

theorem rmNum_toNat (e : Ext) (rm : BitVec 3) :
    (e.rmNum rm).toNat = 16 * e.rmHi.toNat + 8 * e.b.toNat + rm.toNat :=
  toNat_extended_field ..

theorem regNum_lt_16 {e : Ext} (h : e.rHi = false) (reg : BitVec 3) : (e.regNum reg).toNat < 16 := by
  have hr : e.r.toNat ≤ 1 := e.r.toNat_le
  have hreg : reg.toNat < 8 := reg.isLt
  rw [regNum_toNat, h, Bool.toNat_false]
  omega

theorem rmNum_lt_16 {e : Ext} (h : e.rmHi = false) (rm : BitVec 3) : (e.rmNum rm).toNat < 16 := by
  have hb : e.b.toNat ≤ 1 := e.b.toNat_le
  have hrm : rm.toNat < 8 := rm.isLt
  rw [rmNum_toNat, h, Bool.toNat_false]
  omega

/-- Only an EVEX form has the bit that names registers 16 to 31 (30_encoding.md R84). -/
theorem destination_lt_16 {i : Instr} {d : BitVec 5} (hd : destination i = some d)
    (hf : familyOf i = .sse ∨ familyOf i = .vex) : d.toNat < 16 := by
  cases i with
  | movupdRegRm | movupdRegRmRex | vex2Mov128RegRm | vex3Mov128RegRm | vex2Mov256RegRm | vex3Mov256RegRm =>
    cases hd
    exact regNum_lt_16 rfl _
  | movupdRmReg _ _ rm | movupdRmRegRex _ _ _ rm | vex2Mov128RmReg _ _ _ _ rm | vex3Mov128RmReg _ _ _ _ rm
  | vex2Mov256RmReg _ _ _ _ rm | vex3Mov256RmReg _ _ _ _ rm =>
    cases rm with
    | reg n =>
      cases hd
      exact rmNum_lt_16 rfl _
    | mem a => cases hd
  | evexMov128RegRm | evexMov128RmReg | evexMov256RegRm | evexMov256RmReg | evexMov512RegRm | evexMov512RmReg =>
    rcases hf with hf | hf <;> cases hf

theorem nvec_ge (c : Config) : 16 ≤ c.nvec := by
  unfold Config.nvec
  split <;> decide

theorem nvec_of_avx512f {c : Config} (h : c.hasAvx512f = true) : c.nvec = 32 := if_pos h

theorem avx512f_of_evex512Available {s : State} (h : s.evex512Available = true) : s.cfg.hasAvx512f = true := by
  simp only [State.evex512Available, Bool.and_eq_true] at h
  obtain ⟨⟨⟨hf, _⟩, _⟩, _⟩ := h
  exact hf

/-- An available instruction names a register below NVEC: the forms without EVEX reach V[0..15], and the EVEX forms need
AVX512F, which gives all 32 (10_state.md R22). -/
theorem destination_lt_nvec {s : State} {i : Instr} {d : BitVec 5} (hd : destination i = some d)
    (ha : available s i = true) : d.toNat < s.cfg.nvec := by
  have of_evex512 (h : s.evex512Available = true) : d.toNat < s.cfg.nvec := by
    rw [nvec_of_avx512f (avx512f_of_evex512Available h)]
    exact d.isLt
  unfold available at ha
  split at ha
  case h_1 hf => exact Nat.lt_of_lt_of_le (destination_lt_16 hd (.inl hf)) (nvec_ge _)
  case h_2 hf => exact Nat.lt_of_lt_of_le (destination_lt_16 hd (.inr hf)) (nvec_ge _)
  case h_3 =>
    rw [State.evexVlAvailable, Bool.and_eq_true] at ha
    exact of_evex512 ha.2
  case h_4 => exact of_evex512 ha

/-! ## The updates of a step keep the form -/

theorem vectorBits_of_lt_nvec {s : State} {n : BitVec 5} (h : n.toNat < s.cfg.nvec) :
    s.vectorBits n = s.cfg.maxvl.bits := if_pos h

@[simp] theorem setV_vectorBits (s : State) (d : BitVec 5) (x : Vec) (n : BitVec 5) :
    (s.setV d x).vectorBits n = s.vectorBits n := rfl

theorem State.WellStored.advance {s : State} (h : s.WellStored) (len : Nat) : (s.advance len).WellStored :=
  ⟨h.memory, h.vectors, h.masks⟩

theorem State.WellStored.withMem {s : State} (h : s.WellStored) {m : Memory} (hm : m.wf = true) :
    ({ s with mem := m } : State).WellStored :=
  ⟨hm, h.vectors, h.masks⟩

/-- A register that exists may be written with any value: the write drops the bits from MAXVL up. -/
theorem State.WellStored.setV {s : State} (h : s.WellStored) {d : BitVec 5} (hd : d.toNat < s.cfg.nvec) (x : Vec) :
    (s.setV d x).WellStored where
  memory := h.memory
  vectors n i hi := by
    rw [setV_vectorBits] at hi
    by_cases hn : n = d
    · subst hn
      rw [vectorBits_of_lt_nvec hd] at hi
      rw [getLsbD_setV_v, decide_eq_false (Nat.not_lt.2 hi), Bool.and_false]
    · rw [setV_v_other _ _ _ _ hn]
      exact h.vectors n i hi
  masks := h.masks

theorem State.WellStored.store {s t : State} {r : MemRef} {en : Nat → Bool} {x : Vec} (h : s.WellStored)
    (hs : store s r en x = .ok t) : t.WellStored := by
  obtain ⟨rfl, _⟩ := store_inv hs
  exact h.withMem (storeBytes_wf _ _ _ _ h.memory)

/-- Every instruction that completes keeps the canonical form: it was available, so a register it wrote exists. -/
theorem exec_keeps_wellStored {i : Instr} {s t : State} (h : s.WellStored) (he : exec i s = .next t) :
    t.WellStored := by
  obtain ⟨effect, passed⟩ := exec_next he
  cases effect with
  | register d x hd ht =>
    subst ht
    exact (h.setV (destination_lt_nvec hd passed.available) x).advance _
  | memory r en x m _ _ hs ht =>
    subst ht
    exact (h.store hs).advance _

/-- Settles O3: a step that completes is an instruction that completes. -/
theorem stepKeepsWellStored : Obligations.StepKeepsWellStored := by
  intro s t h hstep
  obtain ⟨_, _, _, _, _, hexec⟩ := step_next hstep
  exact exec_keeps_wellStored h hexec

end Sys2Proof.Machine
end

section
/-! Proofs: a fault reports the rip of the faulting instruction's first byte (10_state.md R25, 60_exceptions.md R163). -/

namespace Sys2Proof.Machine

/-! ## Where a fault comes from -/

/-- A guarded operation faults in one of the checks of levels 1 and 2, or after they have passed. -/
theorem guarded_fault {s : State} {vexLike ud : Bool} {len : Nat} {k : Result} {f : Fault}
    (h : guarded s vexLike ud len k = .fault f) :
    front s vexLike ud len = some (.fault f) ∨ front s vexLike ud len = none ∧ k = .fault f := by
  cases hf : front s vexLike ud len with
  | some st =>
    rw [guarded_some hf] at h
    exact .inl (congrArg some (outcome_fault h))
  | none =>
    rw [guarded_none hf] at h
    exact .inr ⟨rfl, h⟩

theorem inSpan_fault {s : State} {len : Nat} {k : Result} {f : Fault} (h : inSpan s len k = .fault f) :
    ripSpanOk s len = true ∧ k = .fault f := by
  unfold inSpan at h
  split at h
  · exact ⟨‹_›, h⟩
  · cases h

/-- A step whose fetch stops is refused: no fetch faults (60_exceptions.md R160). -/
theorem fetchStop_refuses {s : State} {st : Stop} (h : fetchStop s = some st) : ∃ r, st = .refuse r := by
  unfold fetchStop at h
  split_ifs at h <;> exact ⟨_, (Option.some.inj h).symm⟩

/-- A step that faults fetched a decoded instruction, or an EVEX form with the reserved length, and that faulted. -/
theorem step_fault {s : State} {f : Fault} (h : step s = .fault f) :
    (∃ i, decode (fetch s) = .instr i ∧ exec i s = .fault f) ∨
    ∃ p rex rm, decode (fetch s) = .reservedLength p rex rm ∧ execReservedLength p rex rm s = .fault f := by
  unfold step at h
  split at h
  · obtain ⟨_, rfl⟩ := fetchStop_refuses ‹_›
    cases h
  · cases hd : decode (fetch s) with
    | instr i =>
      rw [hd] at h
      exact .inl ⟨i, rfl, (inSpan_fault h).2⟩
    | reservedLength p rex rm =>
      rw [hd] at h
      exact .inr ⟨p, rex, rm, rfl, (inSpan_fault h).2⟩
    | refuse r =>
      rw [hd] at h
      cases h

/-! ## It reports rip -/

theorem exec_fault_rip {i : Instr} {s : State} {f : Fault} (h : exec i s = .fault f) : f.rip = s.rip := by
  rcases exec_fault h with ⟨_, hfront⟩ | ⟨_, _, hmem⟩
  · exact front_at hfront f rfl
  · exact memStop_at hmem f rfl

theorem execReservedLength_fault_rip {p : List LegacyPrefix} {rex : Option Rex} {rm : RmOperand} {s : State}
    {f : Fault} (h : execReservedLength p rex rm s = .fault f) : f.rip = s.rip := by
  rcases guarded_fault h with hfront | ⟨_, hud⟩
  · exact front_at hfront f rfl
  · exact raise_at s .ud f (outcome_fault hud)

/-- Settles O51: every fault is made by `raise`, which records rip, and rip moves only when an instruction completes. -/
theorem faultReportsTheInstructionPointer : Obligations.FaultReportsTheInstructionPointer := by
  refine ⟨fun _ _ _ => exec_fault_rip, fun s f h => ?_⟩
  rcases step_fault h with ⟨_, _, hexec⟩ | ⟨_, _, _, _, hexec⟩
  · exact exec_fault_rip hexec
  · exact execReservedLength_fault_rip hexec

end Sys2Proof.Machine
end

section
/-! Proofs: the memory operand (20_memory.md R51 to R57): its effective address in numbers, and its default segment. -/

namespace Sys2Proof.Machine

/-! ## The effective address -/

/-- The offset is computed modulo 2^64, whatever wraps on the way. -/
theorem fullOffset_toNat (s : State) (len : Nat) (m : MemOperand) :
    (s.fullOffset len m).toNat =
      (if m.riprel then s.rip.toNat + len + m.disp.toNat
        else (s.optionalX m.base).toNat + (s.optionalX m.index).toNat * 2 ^ m.ss.toNat + m.disp.toNat) % 2 ^ 64 := by
  unfold State.fullOffset
  split
  · simp only [BitVec.toNat_add, BitVec.toNat_ofNat]
    omega
  · simp only [BitVec.toNat_add, BitVec.toNat_shiftLeft, Nat.shiftLeft_eq]
    omega

/-- Cutting a word to 32 bits and extending it with zeros is taking it modulo 2^32. -/
theorem addressSize_toNat (w : Word) (addr32 : Bool) :
    (if addr32 then (w.setWidth 32).setWidth 64 else w).toNat = w.toNat % (if addr32 then 2 ^ 32 else 2 ^ 64) := by
  have hw : w.toNat < 2 ^ 64 := w.isLt
  cases addr32
  · exact (Nat.mod_eq_of_lt hw).symm
  · simp only [if_true, BitVec.toNat_setWidth]
    omega

/-- Settles O34: the sum of the segment base and the offset, each in numbers. -/
theorem effectiveAddressFormula : Obligations.EffectiveAddressFormula := by
  refine ⟨fun _ _ _ _ => rfl, fun s len m => ?_⟩
  rw [State.effectiveAddress, BitVec.toNat_add, addressSize_toNat, fullOffset_toNat]
  congr 2
  rcases m.seg with _ | _ | _ <;> rfl

/-! ## The default segment -/

theorem fsGsOf_eq_none {q : LegacyPrefix} : fsGsOf q = none ↔ q ≠ .seg .fs ∧ q ≠ .seg .gs := by
  cases q with
  | seg g => cases g <;> simp [fsGsOf]
  | lock | repne | rep | opsize | addrsize => simp [fsGsOf]

/-- No override is in force exactly where the encoding holds neither. -/
theorem segmentOf_eq_none {p : List LegacyPrefix} : segmentOf p = none ↔ .seg .fs ∉ p ∧ .seg .gs ∉ p := by
  simp only [segmentOf, List.findSome?_eq_none_iff, List.mem_reverse, fsGsOf_eq_none]
  constructor
  · exact fun h => ⟨fun hfs => (h _ hfs).1 rfl, fun hgs => (h _ hgs).2 rfl⟩
  · rintro ⟨hfs, hgs⟩ q hq
    exact ⟨fun e => hfs (e ▸ hq), fun e => hgs (e ▸ hq)⟩

@[simp] theorem operand_seg (c : Enc) (a : AddrForm) : (c.operand a).seg = segmentOf c.p := by
  cases a <;> rfl

theorem usesStack_iff {m : MemOperand} : m.usesStack = true ↔ m.seg = none ∧ (m.base = some 4#4 ∨ m.base = some 5#4) := by
  simp [MemOperand.usesStack]

/-- A base register is named by the forms with ModRM.rm or SIB.base as base, and by no other. -/
theorem operand_base_eq_some {c : Enc} {a : AddrForm} {n : BitVec 4} :
    (c.operand a).base = some n ↔
      (∃ rm d, a = .base rm d ∧ c.ext.baseNum rm = n) ∨ ∃ ss i b d, a = .sib ss i b d ∧ c.ext.baseNum b = n := by
  cases a <;> simp [Enc.operand]

/-- Settles O35: the override decides first, then the number of the base register. -/
theorem stackSegmentIsTheDefaultOfRspAndRbp : Obligations.StackSegmentIsTheDefaultOfRspAndRbp := by
  intro c a
  rw [usesStack_iff, operand_seg, segmentOf_eq_none, operand_base_eq_some, operand_base_eq_some, or_or_or_comm, and_assoc]
  simp only [and_or_left, exists_or]

end Sys2Proof.Machine
end

section
/-! Proofs: what a load of stored bytes sees, and which bytes a load and a store touch (20_memory.md R41, R48, R62). -/

namespace Sys2Proof.Machine

/-! ## Byte order -/

/-- Settles O38: bit i of the load is bit i mod 8 of the stored byte j + i / 8, which is bit 8j + i of x. -/
theorem storedBytesLoadBackLittleEndian : Obligations.StoredBytesLoadBackLittleEndian := by
  intro m a n x hn
  have stored (k : Nat) (hk : k < n) : (storeBytes m a everyElement x n).read (a + k) = x.extractLsb' (8 * k) 8 :=
    read_storeBytes_in hk rfl
  refine ⟨stored, fun j w hjw => BitVec.eq_of_getLsbD_eq fun i _ => ?_⟩
  rw [getLsbD_loadBytes _ _ _ _ _ (by omega), BitVec.getLsbD_and, BitVec.getLsbD_ushiftRight,
    getLsbD_lowMask (by omega)]
  by_cases hi : i < 8 * w
  · have hbit : 8 * (j + i / 8) + i % 8 = 8 * j + i := by omega
    rw [Nat.add_assoc, stored _ (by omega), BitVec.getLsbD_extractLsb', hbit]
    simp [hi, everyElement, Nat.mod_lt]
  · simp [hi]

/-! ## The bytes a load reads -/

/-- A load of bytes sees the bytes of enabled elements only. -/
theorem loadBytes_congr {m m' : Memory} {a n : Nat} {en : Nat → Bool}
    (h : ∀ k, k < n → en (k / 8) = true → m'.read (a + k) = m.read (a + k)) :
    loadBytes m' a en n = loadBytes m a en n := by
  induction n with
  | zero => rfl
  | succ n ih =>
    rw [loadBytes, loadBytes, ih fun k hk => h k (by omega)]
    split
    · rw [h n (by omega) ‹_›]
    · rfl

section OtherMemory

variable {s : State} {m : Memory}

/-- The two memories hold the same bytes of the enabled elements of an access. -/
def SameEnabledBytes (s : State) (m : Memory) (r : MemRef) (en : Nat → Bool) : Prop :=
  ∀ k, k < r.size → en (k / 8) = true → m.read (r.ea.toNat + k) = s.mem.read (r.ea.toNat + k)

/-- An outcome with memory `m` put in the next state, where there is one. -/
def overMemory (m : Memory) : Result → Result := mapNext fun t => { t with mem := m }

/-- The checks of a load ask nothing of memory, and its value is that of the enabled bytes. -/
theorem load_withMem {r : MemRef} {en : Nat → Bool} (h : SameEnabledBytes s m r en) :
    load { s with mem := m } r en = load s r en := by
  have hstop : memStop { s with mem := m } .read r en = memStop s .read r en := rfl
  unfold load
  rw [hstop, withMem_mem, loadBytes_congr h]

theorem toReg_withMem (len : Nat) (d : BitVec 5) (upd : Vec → Vec) (src : Except Stop Vec) :
    toReg { s with mem := m } len d upd src = overMemory m (toReg s len d upd src) := by
  cases src with
  | ok x => rfl
  | error st => cases st <;> rfl

theorem guarded_withMem (vexLike ud : Bool) (len : Nat) (k : Result) :
    guarded { s with mem := m } vexLike ud len (overMemory m k) = overMemory m (guarded s vexLike ud len k) := by
  have hfront : front { s with mem := m } vexLike ud len = front s vexLike ud len := rfl
  unfold guarded
  rw [hfront]
  cases front s vexLike ud len with
  | none => rfl
  | some st => cases st <;> rfl

/-- A guarded load into a register carries over to another memory with the same enabled bytes. -/
theorem guarded_load_withMem {r : MemRef} {en : Nat → Bool} (h : SameEnabledBytes s m r en) (vexLike ud : Bool)
    (len : Nat) (d : BitVec 5) (upd : Vec → Vec) :
    guarded { s with mem := m } vexLike ud len (toReg { s with mem := m } len d upd (load { s with mem := m } r en)) =
      overMemory m (guarded s vexLike ud len (toReg s len d upd (load s r en))) := by
  rw [load_withMem h, toReg_withMem, guarded_withMem]

/-- An instruction that loads is carried over whole: what it reads besides the operand is not memory. -/
theorem exec_load_withMem {i : Instr} {acc : MemAccess} (ha : memAccess s i = some acc) (hk : acc.kind = .read)
    (h : SameEnabledBytes s m acc.ref acc.en) :
    exec i { s with mem := m } = overMemory m (exec i s) := by
  cases i with
  | movupdRegRm _ _ rm | movupdRegRmRex _ _ _ rm | vex2Mov128RegRm _ _ _ _ rm | vex3Mov128RegRm _ _ _ _ rm
  | vex2Mov256RegRm _ _ _ _ rm | vex3Mov256RegRm _ _ _ _ rm | evexMov128RegRm _ _ _ _ rm
  | evexMov256RegRm _ _ _ _ rm | evexMov512RegRm _ _ _ _ rm =>
    cases rm with
    | reg n => cases ha
    | mem a =>
      cases ha
      exact guarded_load_withMem h ..
  | movupdRmReg _ _ rm | movupdRmRegRex _ _ _ rm | vex2Mov128RmReg _ _ _ _ rm | vex3Mov128RmReg _ _ _ _ rm
  | vex2Mov256RmReg _ _ _ _ rm | vex3Mov256RmReg _ _ _ _ rm | evexMov128RmReg _ _ _ _ rm
  | evexMov256RmReg _ _ _ _ rm | evexMov512RmReg _ _ _ _ rm =>
    cases rm with
    | reg n => cases ha
    | mem a =>
      cases ha
      cases hk

end OtherMemory

/-- Settles O26: the run in the other memory is the first run with that memory put in. -/
theorem loadDependsOnlyOnEnabledBytes : Obligations.LoadDependsOnlyOnEnabledBytes := by
  intro i s t m acc ha hk hsame hexec
  rw [exec_load_withMem ha hk hsame, hexec]
  rfl

/-! ## The program text -/

/-- An instruction that completes has written no byte of the text. -/
theorem exec_keeps_text {i : Instr} {s t : State} (h : exec i s = .next t) {a : Nat} (ha : s.text.has a = true) :
    t.mem.read a = s.mem.read a := by
  obtain ⟨effect, _⟩ := exec_next h
  cases effect with
  | register d x _ ht => rw [ht, advance_mem, setV_mem]
  | memory r en x u _ _ hs ht =>
    obtain ⟨rfl, hoff⟩ := store_inv hs
    rw [ht, advance_mem, withMem_mem, read_storeBytes_out]
    rintro k hk hen rfl
    rw [hoff k hk hen] at ha
    cases ha

/-- Settles O30: a step that completes is an instruction that completes. -/
theorem stepKeepsTheProgramText : Obligations.StepKeepsTheProgramText := by
  intro s t hstep a ha
  obtain ⟨_, _, _, _, _, hexec⟩ := step_next hstep
  exact exec_keeps_text hexec ha

/-- Once levels 1 and 2 pass, an instruction that writes memory is its store. -/
theorem exec_store {s : State} {i : Instr} {acc : MemAccess} (hr : ReachesOperation s i)
    (ha : memAccess s i = some acc) (hk : acc.kind = .write) :
    ∃ x, exec i s = toMem (instrLength i) (store s acc.ref acc.en x) := by
  have hb := exec_reaches hr
  generalize exec i s = k at hb ⊢
  cases hb with
  | register t h =>
    rw [h] at ha
    cases ha
  | load acc' d upd h hread =>
    rw [h] at ha
    cases ha
    rw [hread] at hk
    cases hk
  | store acc' x h _ =>
    rw [h] at ha
    cases ha
    exact ⟨x, rfl⟩

theorem store_overlapsText {s : State} {r : MemRef} {en : Nat → Bool} (x : Vec) (h : Accessible s .write r en)
    (ho : overlapsText s r en = true) : store s r en x = .error (.refuse .storeIntoText) := by
  rw [store, memStop_none h]
  exact if_pos ho

/-- Settles O31: the checks of the access find nothing, and the byte in the text is an overlap. -/
theorem storeIntoTheTextIsRefused : Obligations.StoreIntoTheTextIsRefused := by
  intro i s acc k hr ha hk hacc hlt hen htext
  have hoverlap : overlapsText s acc.ref acc.en = true := by
    by_contra hno
    have hoff := overlapsText_eq_false.1 (Bool.eq_false_of_not_eq_true hno) k hlt hen
    rw [htext] at hoff
    cases hoff
  obtain ⟨x, hexec⟩ := exec_store hr ha hk
  rw [hexec, store_overlapsText x hacc hoverlap]
  rfl

end Sys2Proof.Machine
end

section
/-! Proofs: how an instruction ends where a check of its memory operand fails, and where it completes all the same
(20_memory.md R42, R45, R48, R55, R58; 60_exceptions.md R161). -/

namespace Sys2Proof.Machine

variable {s : State} {i : Instr} {acc : MemAccess} {kind : AccessKind} {r : MemRef} {en : Nat → Bool} {st : Stop}

/-! ## The check of one byte -/

theorem accessStop_noncanonical {a : Nat} (h : canonical s.cfg.la a = false) (stack : Bool) :
    accessStop s kind stack a = some (raise s (if stack then .ss else .gp)) :=
  if_neg (Bool.not_eq_true _ ▸ h)

theorem accessStop_pageFault {a code : Nat} (hc : canonical s.cfg.la a = true)
    (h : accessAt s.cfg.access kind a = .pageFault code) (stack : Bool) :
    accessStop s kind stack a = some (raise s (.pf code (BitVec.ofNat 64 a))) := by
  simp [accessStop, hc, h]

/-! ## The stops of an access -/

/-- The byte k of an access is looked at: its element is enabled, or masked-off elements can fault (20_memory.md R48). -/
def LookedAt (s : State) (r : MemRef) (en : Nat → Bool) (k : Nat) : Prop :=
  k < r.size ∧ (en (k / 8) = true ∨ s.cfg.suppression = .either)

/-- An access stops for the alignment check, or for the failed check of a byte that is looked at. -/
theorem memStop_eq_some (h : memStop s kind r en = some st) :
    (s.acEnabled = true ∧ r.ea.toNat % r.size ≠ 0 ∧ st = raise s .ac) ∨
    ∃ k, LookedAt s r en k ∧ accessStop s kind r.stack (r.ea.toNat + k) = some st := by
  rcases choose_some h with hmust | hmay
  · obtain ⟨k, hk, hen, hst⟩ := mem_failures.1 hmust
    exact .inr ⟨k, ⟨hk, .inl hen⟩, hst⟩
  · rcases mem_optionalFailures.1 hmay with hac | ⟨heither, hmasked⟩
    · exact .inl hac
    · obtain ⟨k, hk, _, hst⟩ := mem_failures.1 hmasked
      exact .inr ⟨k, ⟨hk, .inr heither⟩, hst⟩

/-- Without an alignment check, or with an aligned operand, a byte that is looked at has failed. -/
theorem memStop_eq_some_of_aligned (hal : s.acEnabled = false ∨ r.ea.toNat % r.size = 0)
    (h : memStop s kind r en = some st) :
    ∃ k, LookedAt s r en k ∧ accessStop s kind r.stack (r.ea.toNat + k) = some st := by
  rcases memStop_eq_some h with ⟨hac, hmod, _⟩ | hbyte
  · rcases hal with hal | hal
    · rw [hal] at hac
      cases hac
    · exact absurd hal hmod
  · exact hbyte

/-! ## How the instruction ends -/

/-- A failed check of an enabled byte stops the instruction at the memory level. -/
theorem exec_of_failed_byte (hr : ReachesOperation s i) (ha : memAccess s i = some acc) {k : Nat}
    (hk : k < acc.ref.size) (hen : acc.en (k / 8) = true)
    (hfail : accessStop s acc.kind acc.ref.stack (acc.ref.ea.toNat + k) ≠ none) :
    ∃ st, memStop s acc.kind acc.ref acc.en = some st ∧ exec i s = st.outcome := by
  rcases exec_access hr ha with hstop | ⟨hnone, _⟩
  · exact hstop
  · exact absurd (failures_eq_nil.1 (choose_none hnone) k hk hen) hfail

/-- An instruction whose access does not stop completes, but for a store into the text. -/
theorem exec_completes (hr : ReachesOperation s i) (ha : memAccess s i = some acc)
    (htext : acc.kind = .write →
      ∀ k, k < acc.ref.size → acc.en (k / 8) = true → s.text.has (acc.ref.ea.toNat + k) = false)
    (hnone : memStop s acc.kind acc.ref acc.en = none) : ∃ t, exec i s = .next t := by
  rcases exec_access hr ha with ⟨st, hst, _⟩ | ⟨_, hnext | ⟨hw, hoverlap, _⟩⟩
  · rw [hnone] at hst
    cases hst
  · exact hnext
  · rw [overlapsText_eq_false.2 (htext hw)] at hoverlap
    cases hoverlap

/-- An instruction whose access stops ends in that stop. -/
theorem exec_of_memStop (hr : ReachesOperation s i) (ha : memAccess s i = some acc)
    (hst : memStop s acc.kind acc.ref acc.en = some st) : exec i s = st.outcome := by
  rcases exec_access hr ha with ⟨st', hst', hexec⟩ | ⟨hnone, _⟩
  · rw [hst] at hst'
    cases hst'
    exact hexec
  · rw [hst] at hnone
    cases hnone

/-- But for a store into the text, an instruction completes exactly where its access does not stop. -/
theorem exec_completes_iff (hr : ReachesOperation s i) (ha : memAccess s i = some acc)
    (htext : acc.kind = .write →
      ∀ k, k < acc.ref.size → acc.en (k / 8) = true → s.text.has (acc.ref.ea.toNat + k) = false) :
    (∃ t, exec i s = .next t) ↔ memStop s acc.kind acc.ref acc.en = none := by
  refine ⟨fun ⟨t, ht⟩ => ?_, exec_completes hr ha htext⟩
  by_contra hstop
  obtain ⟨st, hst⟩ := Option.ne_none_iff_exists'.1 hstop
  rw [exec_of_memStop hr ha hst] at ht
  exact outcome_ne_next _ _ ht

/-- Settles O47: one of the admitted stops is chosen, because going on is not admitted. -/
theorem failedByteCheckStopsTheInstruction : Obligations.FailedByteCheckStopsTheInstruction := by
  intro i s acc k hr ha hk hen hfail
  obtain ⟨st, hst, hexec⟩ := exec_of_failed_byte hr ha hk hen hfail
  exact ⟨st, hexec, choose_some hst⟩

/-- Settles O48: a byte that stops the access is looked at and not permitted, so it is not canonical. -/
theorem nonCanonicalOperandRaisesStackOrGeneralProtection :
    Obligations.NonCanonicalOperandRaisesStackOrGeneralProtection := by
  intro i s acc k hr ha hal hok hk hen hnc
  have hfail : accessStop s acc.kind acc.ref.stack (acc.ref.ea.toNat + k) ≠ none := by
    rw [accessStop_noncanonical hnc]
    exact Option.some_ne_none _
  obtain ⟨st, hst, hexec⟩ := exec_of_failed_byte hr ha hk hen hfail
  obtain ⟨j, ⟨hj, hlook⟩, hbyte⟩ := memStop_eq_some_of_aligned hal hst
  cases hc : canonical s.cfg.la (acc.ref.ea.toNat + j) with
  | true =>
    rw [accessStop_eq_none.2 ⟨hc, hok j hj hlook hc⟩] at hbyte
    cases hbyte
  | false =>
    rw [accessStop_noncanonical hc] at hbyte
    cases hbyte
    rw [hexec]
    cases acc.ref.stack <;> rfl

/-- Settles O49: a byte that stops the access is looked at and canonical, so the oracle answered #PF for it. -/
theorem forbiddenTranslationRaisesPageFault : Obligations.ForbiddenTranslationRaisesPageFault := by
  intro i s acc k code hr ha hal hok hk hen hpf
  have hfail : accessStop s acc.kind acc.ref.stack (acc.ref.ea.toNat + k) ≠ none := by
    rw [accessStop_pageFault (hok k hk (.inl hen)).1 hpf]
    exact Option.some_ne_none _
  obtain ⟨st, hst, hexec⟩ := exec_of_failed_byte hr ha hk hen hfail
  obtain ⟨j, ⟨hj, hlook⟩, hbyte⟩ := memStop_eq_some_of_aligned hal hst
  obtain ⟨hc, hanswer | ⟨c, hanswer⟩⟩ := hok j hj hlook
  · rw [accessStop_eq_none.2 ⟨hc, hanswer⟩] at hbyte
    cases hbyte
  · rw [accessStop_pageFault hc hanswer] at hbyte
    cases hbyte
    exact ⟨j, c, hj, hlook, hanswer, hexec⟩

/-- Settles O50: every byte that is looked at passes, so #AC is the one stop left. -/
theorem unalignedOperandUnderAlignmentCheck : Obligations.UnalignedOperandUnderAlignmentCheck := by
  intro i s acc hr ha _ _ hok htext
  cases hstop : memStop s acc.kind acc.ref acc.en with
  | none => exact .inr (exec_completes hr ha htext hstop)
  | some st =>
    rcases memStop_eq_some hstop with ⟨_, _, rfl⟩ | ⟨k, ⟨hk, hlook⟩, hbyte⟩
    · exact .inl (exec_of_memStop hr ha hstop)
    · rw [accessStop_eq_none.2 (hok k hk hlook)] at hbyte
      cases hbyte

/-! ## Masked-off bytes that fail -/

/-- Where no stop must happen, some choice goes on, and each optional stop is what some choice gives. -/
theorem choose_nil_reaches {may : List Stop} {o : Option Stop} (h : o = none ∨ ∃ st ∈ may, o = some st) :
    ∃ c, choose c [] may = o :=
  pickFrom_reaches (h.imp_right fun ⟨st, hst, ho⟩ => ⟨st, mem_distinct.2 hst, ho⟩)

/-- Settles O54: the enabled bytes pass, so no stop must happen; the optional ones are those of masked-off bytes. -/
theorem maskedOffFailureMayStopTheInstruction : Obligations.MaskedOffFailureMayStopTheInstruction := by
  intro i s acc hr ha hal hok htext
  have hpass (k : Nat) (hk : k < acc.ref.size) (hen : acc.en (k / 8) = true) :
      accessStop s acc.kind acc.ref.stack (acc.ref.ea.toNat + k) = none := accessStop_eq_none.2 (hok k hk hen)
  have hmust : failures s acc.kind acc.ref acc.en = [] := failures_eq_nil.2 hpass
  refine ⟨?_, exec_completes_iff hr ha htext, ?_, fun heither k st hk hmasked hst => ?_⟩
  · cases hstop : memStop s acc.kind acc.ref acc.en with
    | none => exact .inl (exec_completes hr ha htext hstop)
    | some st =>
      obtain ⟨k, ⟨hk, hlook⟩, hbyte⟩ := memStop_eq_some_of_aligned hal hstop
      have hmasked : ¬ acc.en (k / 8) = true := fun hen => by
        rw [hpass k hk hen] at hbyte
        cases hbyte
      exact .inr ⟨hlook.resolve_left hmasked, k, st, hk, Bool.eq_false_of_not_eq_true hmasked, hbyte,
        exec_of_memStop hr ha hstop⟩
  · rw [hmust]
    exact choose_nil_reaches (.inl rfl)
  · rw [hmust]
    refine choose_nil_reaches (.inr ⟨st, mem_optionalFailures.2 (.inr ⟨heither, mem_failures.2 ⟨k, hk, ?_, hst⟩⟩), rfl⟩)
    rw [hmasked]
    rfl

end Sys2Proof.Machine
end

section
/-! Proofs: decoding what was encoded, for every layout (30_encoding.md R70 to R85). -/

namespace Sys2Proof

open Machine

/-! ## The opcode and the operands -/

/-- What follows the opcode byte of an encoding is read back. -/
theorem decodeOperands_bytes (k : BitVec 3 → RmOperand → Decoded) (reg : BitVec 3) {rm : RmOperand}
    (h : rm.shaped = true) (tail : List Byte) : decodeOperands k (rm.bytes reg ++ tail) = k reg rm := by
  obtain ⟨m, bs, hbytes, htake, hreg⟩ := takeRm_bytes reg rm h tail
  simp only [hbytes, decodeOperands, htake, hreg]

section Opcode

variable (f g : BitVec 3 → RmOperand → Decoded) (reg : BitVec 3) {rm : RmOperand}

theorem decodeOpcode_regRm (h : rm.shaped = true) (tail : List Byte) :
    decodeOpcode f g ([0x10#8] ++ (rm.bytes reg ++ tail)) = f reg rm :=
  decodeOperands_bytes f reg h tail

theorem decodeOpcode_rmReg (h : rm.shaped = true) (tail : List Byte) :
    decodeOpcode f g ([0x11#8] ++ (rm.bytes reg ++ tail)) = g reg rm :=
  decodeOperands_bytes g reg h tail

end Opcode

/-! ## The fields of the VEX and EVEX prefixes -/

/-- R, vvvv, L and pp of the byte after `C5`; with W in the place of R, the second byte after `C4` (30_encoding.md R75,
R76). -/
theorem vexByte_fields (hi l : Bool) (vvvv : BitVec 4) :
    (bit hi ++ vvvv ++ bit l ++ 0b01#2 : Byte).getLsbD 7 = hi ∧
    (bit hi ++ vvvv ++ bit l ++ 0b01#2 : Byte).extractLsb' 3 4 = vvvv ∧
    (bit hi ++ vvvv ++ bit l ++ 0b01#2 : Byte).getLsbD 2 = l ∧
    (bit hi ++ vvvv ++ bit l ++ 0b01#2 : Byte).extractLsb' 0 2 = 0b01#2 := by
  revert hi l vvvv
  decide

/-- R, X, B and mmmmm of the first byte after `C4` (30_encoding.md R76). -/
theorem vex3Byte_fields (r x b : Bool) :
    (bit r ++ bit x ++ bit b ++ 0b00001#5 : Byte).getLsbD 7 = r ∧
    (bit r ++ bit x ++ bit b ++ 0b00001#5 : Byte).getLsbD 6 = x ∧
    (bit r ++ bit x ++ bit b ++ 0b00001#5 : Byte).getLsbD 5 = b ∧
    (bit r ++ bit x ++ bit b ++ 0b00001#5 : Byte).extractLsb' 0 5 = 0b00001#5 := by
  revert r x b
  decide

/-- P0 of the EVEX prefixes (30_encoding.md R79). -/
theorem evexP0_fields (r x b rHi bit3 : Bool) :
    (bit r ++ bit x ++ bit b ++ bit rHi ++ bit bit3 ++ 0b001#3 : Byte).getLsbD 7 = r ∧
    (bit r ++ bit x ++ bit b ++ bit rHi ++ bit bit3 ++ 0b001#3 : Byte).getLsbD 6 = x ∧
    (bit r ++ bit x ++ bit b ++ bit rHi ++ bit bit3 ++ 0b001#3 : Byte).getLsbD 5 = b ∧
    (bit r ++ bit x ++ bit b ++ bit rHi ++ bit bit3 ++ 0b001#3 : Byte).getLsbD 4 = rHi ∧
    (bit r ++ bit x ++ bit b ++ bit rHi ++ bit bit3 ++ 0b001#3 : Byte).getLsbD 3 = bit3 ∧
    (bit r ++ bit x ++ bit b ++ bit rHi ++ bit bit3 ++ 0b001#3 : Byte).extractLsb' 0 3 = 0b001#3 := by
  revert r x b rHi bit3
  decide

/-- P2 of the EVEX prefixes (30_encoding.md R79). -/
theorem evexP2_fields (z bcast vHi : Bool) (ll : BitVec 2) (aaa : BitVec 3) :
    (bit z ++ ll ++ bit bcast ++ bit vHi ++ aaa : Byte).getLsbD 7 = z ∧
    (bit z ++ ll ++ bit bcast ++ bit vHi ++ aaa : Byte).extractLsb' 5 2 = ll ∧
    (bit z ++ ll ++ bit bcast ++ bit vHi ++ aaa : Byte).getLsbD 4 = bcast ∧
    (bit z ++ ll ++ bit bcast ++ bit vHi ++ aaa : Byte).getLsbD 3 = vHi ∧
    (bit z ++ ll ++ bit bcast ++ bit vHi ++ aaa : Byte).extractLsb' 0 3 = aaa := by
  revert z bcast vHi ll aaa
  decide +kernel

/-! ## The layouts -/

section Layouts

variable {p : List LegacyPrefix} (rex : Option Rex)

/-- The prefixes of a legacy form: one of a group, and the mandatory ones (30_encoding.md R73). -/
theorem ssePrefixesShaped_iff :
    ssePrefixesShaped p = true ↔
      onePerGroup p = true ∧ (p.contains .opsize && !p.contains .repne && !p.contains .rep) = true := by
  simp only [ssePrefixesShaped, Bool.and_eq_true, and_assoc]

theorem decode_sse (h : ssePrefixesShaped p = true) (op : Byte) (bs : List Byte) :
    decode (prefixBytes p none ++ ([0x0F#8, op] ++ bs)) =
      decodeOpcode (fun reg rm => .instr (.movupdRegRm p reg rm)) (fun reg rm => .instr (.movupdRmReg p reg rm))
        ([op] ++ bs) := by
  obtain ⟨hgroup, hmandatory⟩ := ssePrefixesShaped_iff.1 h
  exact (decode_prefixBytes none _ hgroup rfl rfl).trans (if_pos hmandatory)

theorem decode_sseRex (h : ssePrefixesShaped p = true) (x : Rex) (op : Byte) (bs : List Byte) :
    decode (prefixBytes p (some x) ++ ([0x0F#8, op] ++ bs)) =
      decodeOpcode (fun reg rm => .instr (.movupdRegRmRex p x reg rm))
        (fun reg rm => .instr (.movupdRmRegRex p x reg rm)) ([op] ++ bs) := by
  obtain ⟨hgroup, hmandatory⟩ := ssePrefixesShaped_iff.1 h
  exact (decode_prefixBytes (some x) _ hgroup rfl rfl).trans (if_pos hmandatory)

theorem decode_vex2 (h : onePerGroup p = true) (v : Vex2) (l : Bool) (bs : List Byte) :
    decode (prefixBytes p rex ++ (v.bytes l ++ bs)) =
      if l then
        decodeOpcode (fun reg rm => .instr (.vex2Mov256RegRm p rex v reg rm))
          (fun reg rm => .instr (.vex2Mov256RmReg p rex v reg rm)) bs
      else
        decodeOpcode (fun reg rm => .instr (.vex2Mov128RegRm p rex v reg rm))
          (fun reg rm => .instr (.vex2Mov128RmReg p rex v reg rm)) bs := by
  obtain ⟨hr, hvvvv, hl, hpp⟩ := vexByte_fields (!v.r) l v.vvvv
  refine (decode_prefixBytes rex _ h rfl rfl).trans ?_
  change decodeVex2 p rex ((bit (!v.r) ++ v.vvvv ++ bit l ++ 0b01#2) :: bs) = _
  simp only [decodeVex2, hr, hvvvv, hl, hpp, Bool.not_not, if_true]

theorem decode_vex3 (h : onePerGroup p = true) (v : Vex3) (l : Bool) (bs : List Byte) :
    decode (prefixBytes p rex ++ (v.bytes l ++ bs)) =
      if l then
        decodeOpcode (fun reg rm => .instr (.vex3Mov256RegRm p rex v reg rm))
          (fun reg rm => .instr (.vex3Mov256RmReg p rex v reg rm)) bs
      else
        decodeOpcode (fun reg rm => .instr (.vex3Mov128RegRm p rex v reg rm))
          (fun reg rm => .instr (.vex3Mov128RmReg p rex v reg rm)) bs := by
  obtain ⟨hr, hx, hb, hmap⟩ := vex3Byte_fields (!v.r) (!v.x) (!v.b)
  obtain ⟨hw, hvvvv, hl, hpp⟩ := vexByte_fields v.w l v.vvvv
  refine (decode_prefixBytes rex _ h rfl rfl).trans ?_
  change decodeVex3 p rex ((bit (!v.r) ++ bit (!v.x) ++ bit (!v.b) ++ 0b00001#5) ::
    (bit v.w ++ v.vvvv ++ bit l ++ 0b01#2) :: bs) = _
  simp only [decodeVex3, hr, hx, hb, hmap, hw, hvvvv, hl, hpp, Bool.not_not, and_self, if_true]

theorem decode_evex (h : onePerGroup p = true) (e : Evex) (ll : BitVec 2) (bs : List Byte) :
    decode (prefixBytes p rex ++ (e.bytes ll ++ bs)) =
      if ll = 0b00#2 then
        decodeOpcode (fun reg rm => .instr (.evexMov128RegRm p rex e reg rm))
          (fun reg rm => .instr (.evexMov128RmReg p rex e reg rm)) bs
      else if ll = 0b01#2 then
        decodeOpcode (fun reg rm => .instr (.evexMov256RegRm p rex e reg rm))
          (fun reg rm => .instr (.evexMov256RmReg p rex e reg rm)) bs
      else if ll = 0b10#2 then
        decodeOpcode (fun reg rm => .instr (.evexMov512RegRm p rex e reg rm))
          (fun reg rm => .instr (.evexMov512RmReg p rex e reg rm)) bs
      else decodeOpcode (fun _ rm => .reservedLength p rex rm) (fun _ rm => .reservedLength p rex rm) bs := by
  obtain ⟨hr, hx, hb, hrHi, hbit3, hmap⟩ := evexP0_fields (!e.r) (!e.x) (!e.b) (!e.rHi) e.p0bit3
  obtain ⟨hw, hvvvv, hbit2, hpp⟩ := vexByte_fields true e.p1bit2 e.vvvv
  obtain ⟨hz, hll, hbcast, hvHi, haaa⟩ := evexP2_fields e.z e.bcast e.vHi ll e.aaa
  refine (decode_prefixBytes rex _ h rfl rfl).trans ?_
  change decodeEvex p rex ((bit (!e.r) ++ bit (!e.x) ++ bit (!e.b) ++ bit (!e.rHi) ++ bit e.p0bit3 ++ 0b001#3) ::
    (bit true ++ e.vvvv ++ bit e.p1bit2 ++ 0b01#2) :: (bit e.z ++ ll ++ bit e.bcast ++ bit e.vHi ++ e.aaa) :: bs) = _
  simp only [decodeEvex, evexFields, hr, hx, hb, hrHi, hbit3, hmap, hw, hvvvv, hbit2, hpp, hz, hll, hbcast, hvHi, haaa,
    Bool.not_not, and_self, if_true]

end Layouts

/-- Settles O4: the prefixes are read back, then the fields of the layout, then opcode and operands. -/
theorem decodeOfEncodeIsTheInstruction : Obligations.DecodeOfEncodeIsTheInstruction := by
  intro i tail hshaped
  cases i with
  | movupdRegRm p reg rm =>
    obtain ⟨hp, hrm⟩ := Bool.and_eq_true_iff.1 hshaped
    simp only [encode, List.append_assoc, decode_sse hp, decodeOpcode_regRm _ _ _ hrm]
  | movupdRmReg p reg rm =>
    obtain ⟨hp, hrm⟩ := Bool.and_eq_true_iff.1 hshaped
    simp only [encode, List.append_assoc, decode_sse hp, decodeOpcode_rmReg _ _ _ hrm]
  | movupdRegRmRex p x reg rm =>
    obtain ⟨hp, hrm⟩ := Bool.and_eq_true_iff.1 hshaped
    simp only [encode, List.append_assoc, decode_sseRex hp, decodeOpcode_regRm _ _ _ hrm]
  | movupdRmRegRex p x reg rm =>
    obtain ⟨hp, hrm⟩ := Bool.and_eq_true_iff.1 hshaped
    simp only [encode, List.append_assoc, decode_sseRex hp, decodeOpcode_rmReg _ _ _ hrm]
  | vex2Mov128RegRm p rex v reg rm | vex2Mov256RegRm p rex v reg rm =>
    obtain ⟨hp, hrm⟩ := Bool.and_eq_true_iff.1 hshaped
    simp only [encode, List.append_assoc, decode_vex2 rex hp, decodeOpcode_regRm _ _ _ hrm, Bool.false_eq_true, if_true,
      if_false]
  | vex2Mov128RmReg p rex v reg rm | vex2Mov256RmReg p rex v reg rm =>
    obtain ⟨hp, hrm⟩ := Bool.and_eq_true_iff.1 hshaped
    simp only [encode, List.append_assoc, decode_vex2 rex hp, decodeOpcode_rmReg _ _ _ hrm, Bool.false_eq_true, if_true,
      if_false]
  | vex3Mov128RegRm p rex v reg rm | vex3Mov256RegRm p rex v reg rm =>
    obtain ⟨hp, hrm⟩ := Bool.and_eq_true_iff.1 hshaped
    simp only [encode, List.append_assoc, decode_vex3 rex hp, decodeOpcode_regRm _ _ _ hrm, Bool.false_eq_true, if_true,
      if_false]
  | vex3Mov128RmReg p rex v reg rm | vex3Mov256RmReg p rex v reg rm =>
    obtain ⟨hp, hrm⟩ := Bool.and_eq_true_iff.1 hshaped
    simp only [encode, List.append_assoc, decode_vex3 rex hp, decodeOpcode_rmReg _ _ _ hrm, Bool.false_eq_true, if_true,
      if_false]
  | evexMov128RegRm p rex e reg rm | evexMov256RegRm p rex e reg rm | evexMov512RegRm p rex e reg rm =>
    obtain ⟨hp, hrm⟩ := Bool.and_eq_true_iff.1 hshaped
    simp only [encode, List.append_assoc, decode_evex rex hp, decodeOpcode_regRm _ _ _ hrm, BitVec.reduceEq, if_true,
      if_false]
  | evexMov128RmReg p rex e reg rm | evexMov256RmReg p rex e reg rm | evexMov512RmReg p rex e reg rm =>
    obtain ⟨hp, hrm⟩ := Bool.and_eq_true_iff.1 hshaped
    simp only [encode, List.append_assoc, decode_evex rex hp, decodeOpcode_rmReg _ _ _ hrm, BitVec.reduceEq, if_true,
      if_false]

end Sys2Proof
end

section
/-! Proofs: the bytes an instruction was decoded from are its encoding (30_encoding.md R70 to R85). -/

namespace Sys2Proof

/-! ## The bytes of the VEX and EVEX prefixes -/

/-- A byte with pp = 01 is made of its other fields (30_encoding.md R75, R76). -/
theorem vexByte_of_fields :
    ∀ b : Byte, b.extractLsb' 0 2 = 0b01#2 →
      bit (b.getLsbD 7) ++ b.extractLsb' 3 4 ++ bit (b.getLsbD 2) ++ 0b01#2 = b := by
  decide +kernel

/-- A byte with mmmmm = 00001 is made of its other fields (30_encoding.md R76). -/
theorem vex3Byte_of_fields :
    ∀ b : Byte, b.extractLsb' 0 5 = 0b00001#5 →
      bit (b.getLsbD 7) ++ bit (b.getLsbD 6) ++ bit (b.getLsbD 5) ++ 0b00001#5 = b := by
  decide +kernel

/-- P0 with mmm = 001 is made of its other fields (30_encoding.md R79). -/
theorem evexP0_of_fields :
    ∀ b : Byte, b.extractLsb' 0 3 = 0b001#3 →
      bit (b.getLsbD 7) ++ bit (b.getLsbD 6) ++ bit (b.getLsbD 5) ++ bit (b.getLsbD 4) ++ bit (b.getLsbD 3) ++ 0b001#3
        = b := by
  decide +kernel

/-- P2 is made of its fields (30_encoding.md R79). -/
theorem evexP2_of_fields :
    ∀ b : Byte, bit (b.getLsbD 7) ++ b.extractLsb' 5 2 ++ bit (b.getLsbD 4) ++ bit (b.getLsbD 3) ++ b.extractLsb' 0 3
      = b := by
  decide +kernel

theorem vex2_bytes_of_fields {b : Byte} (hpp : b.extractLsb' 0 2 = 0b01#2) :
    Vex2.bytes { r := !b.getLsbD 7, vvvv := b.extractLsb' 3 4 } (b.getLsbD 2) = [0xC5#8, b] := by
  simp only [Vex2.bytes, Bool.not_not]
  rw [vexByte_of_fields b hpp]

theorem vex3_bytes_of_fields {b1 b2 : Byte} (hmap : b1.extractLsb' 0 5 = 0b00001#5)
    (hpp : b2.extractLsb' 0 2 = 0b01#2) :
    Vex3.bytes { r := !b1.getLsbD 7, x := !b1.getLsbD 6, b := !b1.getLsbD 5, w := b2.getLsbD 7
                 vvvv := b2.extractLsb' 3 4 } (b2.getLsbD 2) = [0xC4#8, b1, b2] := by
  simp only [Vex3.bytes, Bool.not_not]
  rw [vex3Byte_of_fields b1 hmap, vexByte_of_fields b2 hpp]

theorem evex_bytes_of_fields {p0 p1 p2 : Byte} (hmap : p0.extractLsb' 0 3 = 0b001#3) (hw : p1.getLsbD 7 = true)
    (hpp : p1.extractLsb' 0 2 = 0b01#2) :
    (evexFields p0 p1 p2).bytes (p2.extractLsb' 5 2) = [0x62#8, p0, p1, p2] := by
  have hp1 := vexByte_of_fields p1 hpp
  rw [hw] at hp1
  simp only [Evex.bytes, evexFields, Bool.not_not]
  rw [evexP0_of_fields p0 hmap, evexP2_of_fields p2]
  exact congrArg (fun b => [0x62#8, p0, b, p2]) hp1

/-! ## Operands, opcode -/

/-- The byte string is the encoding of an instruction the decoder can give, followed by some bytes. -/
def BeginsWithEncodingOf (bs : List Byte) (i : Instr) : Prop :=
  i.shaped = true ∧ ∃ tail, bs = encode i ++ tail

theorem decodeOperands_instr {k : BitVec 3 → RmOperand → Decoded} {bs : List Byte} {i : Instr}
    (h : decodeOperands k bs = .instr i) :
    ∃ reg rm tail, rm.shaped = true ∧ bs = rm.bytes reg ++ tail ∧ k reg rm = .instr i := by
  unfold decodeOperands at h
  split at h
  · cases h
  · split at h
    · cases h
    · rename_i m bs rm tail htake
      obtain ⟨hshaped, hbytes⟩ := takeRm_inv htake
      exact ⟨_, rm, tail, hshaped, hbytes, h⟩

/-- Opcode `op` after the bytes `front` encodes the instructions that `k` makes of the operands, which are shaped where
`ok` holds and the r/m operand is shaped. -/
def EncodesOperands (front : List Byte) (op : Byte) (ok : Bool) (k : BitVec 3 → RmOperand → Instr) : Prop :=
  ∀ reg rm, (k reg rm).shaped = (ok && rm.shaped) ∧ encode (k reg rm) = front ++ [op] ++ rm.bytes reg

theorem EncodesOperands.begins {front bs : List Byte} {op : Byte} {ok : Bool} {k : BitVec 3 → RmOperand → Instr}
    {i : Instr} (hk : EncodesOperands front op ok k) (hok : ok = true)
    (h : decodeOperands (fun reg rm => .instr (k reg rm)) bs = .instr i) :
    BeginsWithEncodingOf (front ++ op :: bs) i := by
  obtain ⟨reg, rm, tail, hrm, rfl, hi⟩ := decodeOperands_instr h
  cases hi
  obtain ⟨hshaped, hencode⟩ := hk reg rm
  exact ⟨by rw [hshaped, hok, hrm]; rfl, tail, by simp [hencode]⟩

/-- The layouts share what follows their prefixes: an opcode for each direction, and the operands. -/
theorem decodeOpcode_begins {pre front bs : List Byte} {f g : BitVec 3 → RmOperand → Instr} {ok : Bool} {i : Instr}
    (h : decodeOpcode (fun reg rm => .instr (f reg rm)) (fun reg rm => .instr (g reg rm)) bs = .instr i)
    (hok : ok = true) (hf : EncodesOperands (pre ++ front) 0x10#8 ok f)
    (hg : EncodesOperands (pre ++ front) 0x11#8 ok g) : BeginsWithEncodingOf (pre ++ (front ++ bs)) i := by
  rw [← List.append_assoc]
  unfold decodeOpcode at h
  split at h
  · cases h
  · split_ifs at h with h10 h11
    · exact h10 ▸ hf.begins hok h
    · exact h11 ▸ hg.begins hok h

theorem decodeOpcode_reservedLength_ne_instr {p : List LegacyPrefix} {rex : Option Rex} {bs : List Byte} {i : Instr} :
    decodeOpcode (fun _ rm => .reservedLength p rex rm) (fun _ rm => .reservedLength p rex rm) bs ≠ .instr i := by
  intro h
  unfold decodeOpcode at h
  split at h
  · cases h
  · split_ifs at h <;> obtain ⟨_, _, _, _, _, hk⟩ := decodeOperands_instr h <;> cases hk

/-! ## The layouts -/

section Layouts

variable {p : List LegacyPrefix} {rex : Option Rex} {bs : List Byte} {i : Instr} (hp : onePerGroup p = true)
include hp

theorem decodeSse_begins (h : decodeSse p rex bs = .instr i) :
    BeginsWithEncodingOf (prefixBytes p rex ++ ([0x0F#8] ++ bs)) i := by
  unfold decodeSse at h
  split at h
  · rename_i hmandatory
    have hp := ssePrefixesShaped_iff.2 ⟨hp, hmandatory⟩
    cases rex with
    | none =>
      exact decodeOpcode_begins h hp (fun _ _ => ⟨rfl, by simp [encode]⟩) fun _ _ => ⟨rfl, by simp [encode]⟩
    | some x =>
      exact decodeOpcode_begins h hp (fun _ _ => ⟨rfl, by simp [encode]⟩) fun _ _ => ⟨rfl, by simp [encode]⟩
  · cases h

theorem decodeVex2_begins (h : decodeVex2 p rex bs = .instr i) :
    BeginsWithEncodingOf (prefixBytes p rex ++ ([0xC5#8] ++ bs)) i := by
  cases bs with
  | nil => cases h
  | cons b bs =>
    simp only [decodeVex2] at h
    split_ifs at h with hpp hl
    all_goals
      change BeginsWithEncodingOf (prefixBytes p rex ++ ([0xC5#8, b] ++ bs)) i
      rw [← vex2_bytes_of_fields hpp]
      simp only [hl]
      exact decodeOpcode_begins h hp (fun _ _ => ⟨rfl, rfl⟩) fun _ _ => ⟨rfl, rfl⟩

theorem decodeVex3_begins (h : decodeVex3 p rex bs = .instr i) :
    BeginsWithEncodingOf (prefixBytes p rex ++ ([0xC4#8] ++ bs)) i := by
  match bs with
  | [] | [_] => cases h
  | b1 :: b2 :: bs =>
    simp only [decodeVex3] at h
    split_ifs at h with hfixed hl
    all_goals
      change BeginsWithEncodingOf (prefixBytes p rex ++ ([0xC4#8, b1, b2] ++ bs)) i
      rw [← vex3_bytes_of_fields hfixed.1 hfixed.2]
      simp only [hl]
      exact decodeOpcode_begins h hp (fun _ _ => ⟨rfl, rfl⟩) fun _ _ => ⟨rfl, rfl⟩

theorem decodeEvex_begins (h : decodeEvex p rex bs = .instr i) :
    BeginsWithEncodingOf (prefixBytes p rex ++ ([0x62#8] ++ bs)) i := by
  match bs with
  | [] | [_] | [_, _] => cases h
  | p0 :: p1 :: p2 :: bs =>
    simp only [decodeEvex] at h
    split at h
    · rename_i hfixed
      obtain ⟨hmap, hw, hpp⟩ := hfixed
      change BeginsWithEncodingOf (prefixBytes p rex ++ ([0x62#8, p0, p1, p2] ++ bs)) i
      rw [← evex_bytes_of_fields hmap hw hpp]
      split_ifs at h with hll hll hll
      case neg => exact absurd h decodeOpcode_reservedLength_ne_instr
      all_goals
        rw [hll]
        exact decodeOpcode_begins h hp (fun _ _ => ⟨rfl, rfl⟩) fun _ _ => ⟨rfl, rfl⟩
    · cases h

theorem decodeEscape_begins (h : decodeEscape p rex bs = .instr i) :
    BeginsWithEncodingOf (prefixBytes p rex ++ bs) i := by
  cases bs with
  | nil => cases h
  | cons b bs =>
    simp only [decodeEscape] at h
    split_ifs at h with hsse hvex2 hvex3 hevex
    · exact hsse ▸ decodeSse_begins hp h
    · exact hvex2 ▸ decodeVex2_begins hp h
    · exact hvex3 ▸ decodeVex3_begins hp h
    · exact hevex ▸ decodeEvex_begins hp h

end Layouts

/-- A byte string is the prefixes that are read from it and what is left after them. -/
theorem prefixBytes_append (bs : List Byte) :
    prefixBytes (takePrefixes bs).1 (takeRex (takePrefixes bs).2).1 ++ (takeRex (takePrefixes bs).2).2 = bs := by
  rw [prefixBytes, List.append_assoc, takeRex_append, takePrefixes_append]

/-- Settles O5: no byte is lost on the way, neither of the prefixes nor of the layout that is read after them. -/
theorem decodedBytesAreTheEncoding : Obligations.DecodedBytesAreTheEncoding := by
  intro bs i h
  simp only [decode] at h
  split_ifs at h with hgroups
  have hbegins := decodeEscape_begins (decide_eq_true hgroups) h
  rwa [prefixBytes_append] at hbegins

end Sys2Proof
end

section
/-! Proofs: what the decoder refuses (30_encoding.md R73, R78, R81, R92), and how long an encoding is (R70, R89). -/

namespace Sys2Proof

open Machine

/-! ## Two prefixes of one group -/

/-- The prefixes that stand in front are all taken, whatever follows them. -/
theorem takePrefixes_fst (p : List LegacyPrefix) (bs : List Byte) :
    (takePrefixes (p.map LegacyPrefix.byte ++ bs)).1 = p ++ (takePrefixes bs).1 := by
  induction p with
  | nil => rfl
  | cons q p ih => simp [takePrefixes, ih]

/-- Settles O8: the two are taken among the prefixes, so their groups repeat. -/
theorem repeatedPrefixGroupIsRefused : Obligations.RepeatedPrefixGroupIsRefused := by
  intro a b c q r bs hgroup
  have htwice : ([q, r].map LegacyPrefix.group).Sublist
      ((takePrefixes ((a ++ [q] ++ b ++ [r] ++ c).map LegacyPrefix.byte ++ bs)).1.map LegacyPrefix.group) := by
    rw [takePrefixes_fst]
    refine List.Sublist.map _ ?_
    simp only [List.append_assoc]
    exact ((List.Sublist.refl [q]).append (((List.Sublist.refl [r]).append (List.nil_sublist _)).trans
      (List.sublist_append_right b _))).trans (List.sublist_append_right a _)
  refine if_neg fun hnodup => ?_
  have := hnodup.sublist htwice
  simp [hgroup] at this

/-! ## The neighbours of the twelve rows -/

section Neighbours

variable {p : List LegacyPrefix} (rex : Option Rex)

/-- `0F` without the mandatory prefixes of the rows is another instruction. -/
theorem decode_sse_notInScope (hp : onePerGroup p = true)
    (h : (p.contains .opsize && !p.contains .repne && !p.contains .rep) = false) (bs : List Byte) :
    decode (prefixBytes p rex ++ 0x0F#8 :: bs) = .refuse .notInScope :=
  (decode_prefixBytes rex bs hp rfl rfl).trans (if_neg (Bool.not_eq_true _ ▸ h))

theorem decode_vex2_notInScope (hp : onePerGroup p = true) {b : Byte} (h : b.extractLsb' 0 2 ≠ 0b01#2)
    (bs : List Byte) : decode (prefixBytes p rex ++ 0xC5#8 :: b :: bs) = .refuse .notInScope :=
  (decode_prefixBytes rex _ hp rfl rfl).trans (if_neg h)

theorem decode_vex3_notInScope (hp : onePerGroup p = true) {b1 b2 : Byte}
    (h : b1.extractLsb' 0 5 ≠ 0b00001#5 ∨ b2.extractLsb' 0 2 ≠ 0b01#2) (bs : List Byte) :
    decode (prefixBytes p rex ++ 0xC4#8 :: b1 :: b2 :: bs) = .refuse .notInScope :=
  (decode_prefixBytes rex _ hp rfl rfl).trans (if_neg (not_and_or.2 h))

theorem decode_evex_notInScope (hp : onePerGroup p = true) {p0 p1 : Byte}
    (h : p0.extractLsb' 0 3 ≠ 0b001#3 ∨ p1.getLsbD 7 = false ∨ p1.extractLsb' 0 2 ≠ 0b01#2) (p2 : Byte)
    (bs : List Byte) : decode (prefixBytes p rex ++ 0x62#8 :: p0 :: p1 :: p2 :: bs) = .refuse .notInScope := by
  refine (decode_prefixBytes rex _ hp rfl rfl).trans (if_neg ?_)
  rw [not_and_or, not_and_or, Bool.not_eq_true]
  exact h

end Neighbours

/-- Settles O9: each neighbour fails the test of its layout on the field it differs in. -/
theorem neighbourEncodingsAreNotInScope : Obligations.NeighbourEncodingsAreNotInScope :=
  fun bs _ _ _ b3 =>
    ⟨decode_sse_notInScope (p := []) none rfl rfl bs,
     decode_sse_notInScope (p := [.rep]) none rfl rfl bs,
     decode_sse_notInScope (p := [.repne]) none rfl rfl bs,
     decode_sse_notInScope (p := [.opsize, .rep]) none rfl rfl bs,
     decode_sse_notInScope (p := [.opsize, .repne]) none rfl rfl bs,
     fun h => decode_vex2_notInScope (p := []) none rfl h bs,
     fun h => decode_vex3_notInScope (p := []) none rfl h bs,
     fun h => decode_evex_notInScope (p := []) none rfl h b3 bs⟩

/-! ## Lengths -/

/-- The encoder writes as many bytes as the instruction is long, whatever its layout (30_encoding.md R89). -/
theorem length_encode (i : Instr) : (encode i).length = instrLength i := by
  cases i with
  | movupdRegRm | movupdRmReg => exact Laws.EncodeLength.sse_length ..
  | movupdRegRmRex | movupdRmRegRex => exact Laws.EncodeLength.sseRex_length ..
  | vex2Mov128RegRm | vex2Mov128RmReg | vex2Mov256RegRm | vex2Mov256RmReg => exact Laws.EncodeLength.vex2_length ..
  | vex3Mov128RegRm | vex3Mov128RmReg | vex3Mov256RegRm | vex3Mov256RmReg => exact Laws.EncodeLength.vex3_length ..
  | evexMov128RegRm | evexMov128RmReg | evexMov256RegRm | evexMov256RmReg | evexMov512RegRm | evexMov512RmReg =>
    exact Laws.EncodeLength.evex_length ..

/-- ModRM, and at most SIB and disp32 after it. -/
theorem rmSize_bounds (rm : RmOperand) : 1 ≤ RmOperand.size rm ∧ RmOperand.size rm ≤ 6 := by
  rcases rm with _ | (_ | ⟨_, d⟩ | ⟨_, _, _, d⟩ | _)
  case mem.base => cases d <;> simp [RmOperand.size, Disp.size]
  case mem.sib => cases d <;> simp [RmOperand.size, Disp.size]
  all_goals simp [RmOperand.size]

theorem rexSize_le (rex : Option Rex) : rexSize rex ≤ 1 := by cases rex <;> simp [rexSize]

/-- A legacy form has one of the prefixes at least, the mandatory `66`. -/
theorem length_pos_of_ssePrefixesShaped {p : List LegacyPrefix} (h : ssePrefixesShaped p = true) : 1 ≤ p.length := by
  obtain ⟨_, hmandatory⟩ := ssePrefixesShaped_iff.1 h
  simp only [Bool.and_eq_true, List.contains_iff_mem] at hmandatory
  exact List.length_pos_of_mem hmandatory.1.1

/-- Before a legal VEX or EVEX escape stand a segment override and `67` at most (30_encoding.md R78, R81). -/
theorem length_le_of_vexPrefixesLegal {p : List LegacyPrefix} {rex : Option Rex} (hp : onePerGroup p = true)
    (h : vexPrefixesLegal p rex = true) : p.length ≤ 2 ∧ rexSize rex = 0 := by
  simp only [vexPrefixesLegal, noLock, Bool.and_eq_true, Bool.not_eq_true', ← Bool.not_eq_true (p.contains _),
    List.contains_iff_mem, Option.isNone_iff_eq_none] at h
  obtain ⟨⟨⟨⟨hlock, hopsize⟩, hrepne⟩, hrep⟩, hrex⟩ := h
  have hnodup : (p.map LegacyPrefix.group).Nodup := of_decide_eq_true hp
  have hgroups : p.map LegacyPrefix.group ⊆ [.g2, .g4] := by
    intro g hg
    obtain ⟨q, hq, rfl⟩ := List.mem_map.1 hg
    cases q with
    | lock => exact absurd hq hlock
    | repne => exact absurd hq hrepne
    | rep => exact absurd hq hrep
    | opsize => exact absurd hq hopsize
    | seg | addrsize => simp [LegacyPrefix.group]
  refine ⟨?_, by rw [hrex]; rfl⟩
  simpa using (List.subperm_of_subset hnodup hgroups).length_le

theorem vexPrefixesLegal_of_vexLegal {p : List LegacyPrefix} {rex : Option Rex} {vvvv : BitVec 4}
    (h : vexLegal p rex vvvv = true) : vexPrefixesLegal p rex = true :=
  (Bool.and_eq_true_iff.1 h).1

theorem vexPrefixesLegal_of_evexLegal {p : List LegacyPrefix} {rex : Option Rex} {e : Evex}
    (h : evexLegal p rex e = true) : vexPrefixesLegal p rex = true := by
  simp only [evexLegal, Bool.and_eq_true, and_assoc] at h
  exact h.1

/-- The bounds of a length that is the prefixes, a REX byte, `fixed` bytes and the r/m operand (30_encoding.md R89). -/
theorem length_bounds {p : List LegacyPrefix} (hp : onePerGroup p = true) (rex : Option Rex) (fixed : Nat)
    (rm : RmOperand) :
    p.length + fixed + 1 ≤ p.length + rexSize rex + fixed + RmOperand.size rm ∧
    p.length + rexSize rex + fixed + RmOperand.size rm ≤ fixed + 11 ∧
    (vexPrefixesLegal p rex = true → p.length + rexSize rex + fixed + RmOperand.size rm ≤ fixed + 8) := by
  obtain ⟨hmin, hmax⟩ := rmSize_bounds rm
  have hrex := rexSize_le rex
  have hlen := length_le_of_onePerGroup hp
  refine ⟨by omega, by omega, fun hlegal => ?_⟩
  obtain ⟨_, _⟩ := length_le_of_vexPrefixesLegal hp hlegal
  omega

/-- Settles O7: the sum of the parts, each within its bounds; a legal VEX or EVEX form has two prefixes at most. -/
theorem encodingLengthBounds : Obligations.EncodingLengthBounds := by
  intro i hshaped
  rw [length_encode]
  refine ⟨rfl, ?_⟩
  cases i with
  | movupdRegRm p reg rm | movupdRmReg p reg rm =>
    obtain ⟨hp, _⟩ := Bool.and_eq_true_iff.1 hshaped
    have hpos := length_pos_of_ssePrefixesShaped hp
    obtain ⟨hmin, hmax, _⟩ := length_bounds (ssePrefixesShaped_iff.1 hp).1 none 2 rm
    exact ⟨Nat.le_trans (by omega) hmin, Nat.le_trans hmax (by omega), fun _ => hmax, by rintro (h | h) <;> cases h⟩
  | movupdRegRmRex p x reg rm | movupdRmRegRex p x reg rm =>
    obtain ⟨hp, _⟩ := Bool.and_eq_true_iff.1 hshaped
    have hpos := length_pos_of_ssePrefixesShaped hp
    obtain ⟨hmin, hmax, _⟩ := length_bounds (ssePrefixesShaped_iff.1 hp).1 (some x) 2 rm
    exact ⟨Nat.le_trans (by omega) hmin, Nat.le_trans hmax (by omega), fun _ => hmax, by rintro (h | h) <;> cases h⟩
  | vex2Mov128RegRm p rex v reg rm | vex2Mov128RmReg p rex v reg rm | vex2Mov256RegRm p rex v reg rm
  | vex2Mov256RmReg p rex v reg rm =>
    obtain ⟨hp, _⟩ := Bool.and_eq_true_iff.1 hshaped
    obtain ⟨hmin, hmax, hlegal⟩ := length_bounds hp rex 3 rm
    refine ⟨Nat.le_trans (by omega) hmin, Nat.le_trans hmax (by omega), fun h => ?_, by rintro (h | h) <;> cases h⟩
    exact Nat.le_trans (hlegal (vexPrefixesLegal_of_vexLegal h)) (by omega)
  | vex3Mov128RegRm p rex v reg rm | vex3Mov128RmReg p rex v reg rm | vex3Mov256RegRm p rex v reg rm
  | vex3Mov256RmReg p rex v reg rm =>
    obtain ⟨hp, _⟩ := Bool.and_eq_true_iff.1 hshaped
    obtain ⟨hmin, hmax, hlegal⟩ := length_bounds hp rex 4 rm
    refine ⟨Nat.le_trans (by omega) hmin, Nat.le_trans hmax (by omega), fun h => ?_, by rintro (h | h) <;> cases h⟩
    exact Nat.le_trans (hlegal (vexPrefixesLegal_of_vexLegal h)) (by omega)
  | evexMov128RegRm p rex e reg rm | evexMov256RegRm p rex e reg rm | evexMov512RegRm p rex e reg rm =>
    obtain ⟨hp, _⟩ := Bool.and_eq_true_iff.1 hshaped
    obtain ⟨hmin, hmax, hlegal⟩ := length_bounds hp rex 5 rm
    refine ⟨Nat.le_trans (by omega) hmin, Nat.le_trans hmax (by omega), fun h => ?_,
      fun _ => Nat.le_trans (by omega) hmin⟩
    exact hlegal (vexPrefixesLegal_of_evexLegal h)
  | evexMov128RmReg p rex e reg rm | evexMov256RmReg p rex e reg rm | evexMov512RmReg p rex e reg rm =>
    obtain ⟨hp, _⟩ := Bool.and_eq_true_iff.1 hshaped
    obtain ⟨hmin, hmax, hlegal⟩ := length_bounds hp rex 5 rm
    refine ⟨Nat.le_trans (by omega) hmin, Nat.le_trans hmax (by omega), fun h => ?_,
      fun _ => Nat.le_trans (by omega) hmin⟩
    exact hlegal (vexPrefixesLegal_of_evexLegal (Bool.and_eq_true_iff.1 h).1)

end Sys2Proof
end

section
/-! Proofs: the registers, the displacement and the address components an encoding names (30_encoding.md R84 to R88;
20_memory.md R51, R53). -/

namespace Sys2Proof.Machine

/-! ## Register numbers -/

/-- The number a register field has under one extension bit (30_encoding.md R84). -/
theorem toNat_ofBool_append (b : Bool) (n : BitVec 3) : (BitVec.ofBool b ++ n).toNat = 8 * b.toNat + n.toNat := by
  revert b n
  decide

theorem baseNum_toNat (e : Ext) (n : BitVec 3) : (e.baseNum n).toNat = 8 * e.b.toNat + n.toNat :=
  toNat_ofBool_append ..

/-- The number of the index register; 4 is no index (30_encoding.md R86). -/
theorem indexNum_toNat (e : Ext) (n : BitVec 3) :
    (e.indexNum n).map BitVec.toNat =
      if 8 * e.x.toNat + n.toNat = 4 then none else some (8 * e.x.toNat + n.toNat) := by
  have hnumber := toNat_ofBool_append e.x n
  have hfour : BitVec.ofBool e.x ++ n = 4#4 ↔ 8 * e.x.toNat + n.toNat = 4 := by
    rw [← hnumber]
    exact BitVec.toNat_inj.symm
  unfold Ext.indexNum
  by_cases h : 8 * e.x.toNat + n.toNat = 4
  · rw [if_pos (hfour.2 h), if_pos h]
    rfl
  · rw [if_neg (mt hfour.1 h), if_neg h, Option.map_some, hnumber]

/-- Settles O37: the bits a layout lacks are 0 in its `Ext`. -/
theorem registerNumbersAreConcatenated : Obligations.RegisterNumbersAreConcatenated := by
  intro e x v w n
  simp only [regNum_toNat, rmNum_toNat, baseNum_toNat, indexNum_toNat, Ext.ofEvex, Ext.ofRex, Ext.ofVex3, Ext.ofVex2,
    Ext.none, Bool.toNat_false, Nat.mul_zero, Nat.zero_add, true_and]
  intro t ht
  simp only [List.mem_cons, List.not_mem_nil, or_false] at ht
  rcases ht with rfl | rfl | rfl | rfl | rfl <;> exact ⟨by simp, by simp⟩

/-! ## The displacement -/

/-- A disp8 in units of at most 64 bytes does not leave the 64-bit range. -/
theorem value_d8_toInt (d : BitVec 8) {n : Nat} (hn : n ≤ 64) : (Disp.value n (.d8 d)).toInt = d.toInt * n := by
  have hlow : -128 ≤ d.toInt := BitVec.le_toInt d
  have hhigh : d.toInt < 128 := BitVec.toInt_lt
  have hunit : (BitVec.ofNat 64 n).toInt = n := by
    rw [BitVec.toInt_ofNat', Int.bmod_eq_of_le] <;> omega
  have hprodlow : -128 * 64 ≤ d.toInt * n := by nlinarith
  have hprodhigh : d.toInt * n ≤ 128 * 64 := by nlinarith
  rw [Disp.value, BitVec.toInt_mul, BitVec.toInt_signExtend_of_le (by omega), hunit, Int.bmod_eq_of_le] <;> omega

theorem value_d32_toInt (d : BitVec 32) (n : Nat) : (Disp.value n (.d32 d)).toInt = d.toInt :=
  BitVec.toInt_signExtend_of_le (by omega)

/-- Settles O36: N is VL / 8 in an EVEX form and 1 in the others. -/
theorem eightBitDisplacementIsScaledInEvexForms : Obligations.EightBitDisplacementIsScaledInEvexForms := by
  intro p rex e v w x rm ss i b d d32
  refine ⟨fun vl hvl => ?_, fun c hc => ?_, fun c a ha => ?_, fun c => ⟨rfl, rfl⟩⟩
  · have hunit : vl / 8 ≤ 64 := by
      simp only [List.mem_cons, List.not_mem_nil, or_false] at hvl
      omega
    exact ⟨value_d8_toInt d hunit, value_d8_toInt d hunit⟩
  · have hunit : c.n = 1 := by
      simp only [List.mem_cons, List.not_mem_nil, or_false] at hc
      rcases hc with rfl | rfl | rfl | rfl <;> rfl
    have hvalue : (Disp.value c.n (.d8 d)).toInt = d.toInt := by
      rw [hunit, value_d8_toInt d (by omega), Nat.cast_one, mul_one]
    exact ⟨hvalue, hvalue⟩
  · simp only [List.mem_cons, List.not_mem_nil, or_false] at ha
    rcases ha with rfl | rfl | rfl | rfl <;> exact value_d32_toInt d32 c.n

/-! ## The address components -/

/-- The last override of the two decides, whatever stands before it (20_memory.md R53). -/
theorem segmentOf_last (l : List LegacyPrefix) {r : List LegacyPrefix} (hfs : .seg .fs ∉ r) (hgs : .seg .gs ∉ r)
    {q : LegacyPrefix} {g : FsGs} (hq : fsGsOf q = some g) : segmentOf (l ++ q :: r) = some g := by
  have hnone : r.reverse.findSome? fsGsOf = none := segmentOf_eq_none.2 ⟨hfs, hgs⟩
  simp [segmentOf, List.findSome?_append, hnone, hq]

@[simp] theorem operand_addr32 (c : Enc) (a : AddrForm) : (c.operand a).addr32 = c.p.contains .addrsize := by
  cases a <;> rfl

/-- What a layout gives to the address components: its prefixes and its extension bits X and B. -/
theorem enc_components {p : List LegacyPrefix} {rex : Option Rex} {z : Rex} {v : Vex2} {w : Vex3} {e : Evex}
    {rm : RmOperand} {vl : Nat} {c : Enc} {x b : Bool}
    (h : (c, x, b) ∈
      [(Enc.sse p rm, false, false), (Enc.sseRex p z rm, z.x, z.b), (Enc.vex2 p rex v rm, false, false),
       (Enc.vex3 p rex w rm, w.x, w.b), (Enc.evex p rex e rm vl, e.x, e.b)]) :
    c.p = p ∧ c.ext.x = x ∧ c.ext.b = b := by
  simp only [List.mem_cons, List.not_mem_nil, or_false] at h
  rcases h with h | h | h | h | h <;> cases h <;> exact ⟨rfl, rfl, rfl⟩

/-- Settles O53: base and index by their numbers, the rest read off the prefixes. -/
theorem addressComponentsFollowTheEncoding : Obligations.AddressComponentsFollowTheEncoding := by
  intro p rex z v w e rm vl c x b hc
  obtain ⟨rfl, rfl, rfl⟩ := enc_components hc
  have hbase (n : BitVec 3) : (some (c.ext.baseNum n)).map BitVec.toNat = some (8 * c.ext.b.toNat + n.toNat) :=
    congrArg some (baseNum_toNat c.ext n)
  have hindex := indexNum_toNat c.ext
  refine ⟨fun d => ⟨rfl, rfl, rfl⟩, fun n d => ⟨rfl, hbase n, rfl⟩,
    fun ss i n d => ⟨rfl, hbase n, hindex i, rfl⟩, fun ss i d => ⟨rfl, rfl, hindex i, rfl⟩, fun a => ?_⟩
  rw [operand_seg, operand_addr32]
  refine ⟨List.contains_iff_mem, segmentOf_eq_none, fun l r hfs hgs => ⟨fun hp => ?_, fun hp => ?_⟩⟩
  · rw [hp]
    exact segmentOf_last l hfs hgs rfl
  · rw [hp]
    exact segmentOf_last l hfs hgs rfl

end Sys2Proof.Machine
end

section
/-! Proofs: the level-1 exceptions, #UD and #GP(0) for the length (30_encoding.md R70, R78, R81, R91, R93;
60_exceptions.md R151, R161). -/

namespace Sys2Proof.Machine

/-! ## How an instruction ends at level 1 -/

/-- Level 1 finds a #UD cause exactly where the instruction is illegal or not available. -/
theorem udCause_eq_true {s : State} {i : Instr} :
    (!i.legal || !available s i) = true ↔ i.legal = false ∨ available s i = false := by
  rw [Bool.or_eq_true, Bool.not_eq_true', Bool.not_eq_true']

/-- An instruction of at most 15 bytes that is illegal or not available raises #UD. -/
theorem exec_ud {i : Instr} {s : State} (hm : s.mode = .bits64) (hlen : instrLength i ≤ 15)
    (h : i.legal = false ∨ available s i = false) : exec i s = .fault (.invalidOpcode s.rip) := by
  obtain ⟨vexLike, k, hexec, _⟩ := exec_body i s
  rw [hexec, udCause_eq_true.2 h, guarded_some (front_ud hm hlen)]
  rfl

/-- Settles O39: legality is the first #UD cause of level 1. -/
theorem illegalEncodingRaisesInvalidOpcode : Obligations.IllegalEncodingRaisesInvalidOpcode :=
  fun _ _ hm hlen hlegal => exec_ud hm hlen (.inl hlegal)

/-- Settles O45: level 1 holds #GP(0) alone, or #GP(0) and #UD. -/
theorem tooLongInstructionRaisesGeneralProtection : Obligations.TooLongInstructionRaisesGeneralProtection := by
  intro i s hm hlen
  obtain ⟨vexLike, k, hexec, _⟩ := exec_body i s
  rw [hexec]
  refine ⟨fun hlegal havailable => ?_, fun hcause => ?_⟩
  · rw [hlegal, havailable]
    exact guarded_some (front_gp hm hlen)
  · rw [udCause_eq_true.2 hcause]
    exact (front_ud_or_gp hm hlen).imp guarded_some guarded_some

/-! ## vvvv -/

theorem vexLegal_eq_false {p : List LegacyPrefix} {rex : Option Rex} {vvvv : BitVec 4} (h : vvvv ≠ 15#4) :
    vexLegal p rex vvvv = false := by
  simp [vexLegal, h]

theorem evexLegal_eq_false {p : List LegacyPrefix} {rex : Option Rex} {e : Evex} (h : e.vvvv ≠ 15#4) :
    evexLegal p rex e = false := by
  simp [evexLegal, h]

/-- Settles O40: each of the fourteen forms has vvvv = 1111 in its legality. -/
theorem reservedVvvvRaisesInvalidOpcode : Obligations.ReservedVvvvRaisesInvalidOpcode := by
  intro s p rex v w e reg rm hm
  refine ⟨fun hv hlen i hi => ?_, fun hw hlen i hi => ?_, fun he hlen i hi => ?_⟩
  · have hlegal := vexLegal_eq_false (p := p) (rex := rex) hv
    simp only [List.mem_cons, List.not_mem_nil, or_false] at hi
    rcases hi with rfl | rfl | rfl | rfl <;> exact exec_ud hm hlen (.inl hlegal)
  · have hlegal := vexLegal_eq_false (p := p) (rex := rex) hw
    simp only [List.mem_cons, List.not_mem_nil, or_false] at hi
    rcases hi with rfl | rfl | rfl | rfl <;> exact exec_ud hm hlen (.inl hlegal)
  · have hlegal := evexLegal_eq_false (p := p) (rex := rex) he
    have hlegalDest : (evexLegal p rex e && evexRmDestLegal e rm) = false := by rw [hlegal, Bool.false_and]
    simp only [List.mem_cons, List.not_mem_nil, or_false] at hi
    rcases hi with rfl | rfl | rfl | rfl | rfl | rfl
    · exact exec_ud hm hlen (.inl hlegal)
    · exact exec_ud hm hlen (.inl hlegalDest)
    · exact exec_ud hm hlen (.inl hlegal)
    · exact exec_ud hm hlen (.inl hlegalDest)
    · exact exec_ud hm hlen (.inl hlegal)
    · exact exec_ud hm hlen (.inl hlegalDest)

/-! ## Feature flags and enables -/

theorem sseAvailable_eq_false {s : State} : s.sseAvailable = false ↔ Unavailable s .sse := by
  simp only [State.sseAvailable, State.cr0Em, State.cr4Osfxsr, Unavailable, Bool.and_eq_false_iff, Bool.not_eq_false',
    or_assoc]

theorem vexAvailable_eq_false {s : State} : s.vexAvailable = false ↔ Unavailable s .vex := by
  simp only [State.vexAvailable, State.cr4Osxsave, State.xcr0Avx, Unavailable, Bool.and_eq_false_iff, or_assoc]

theorem evex512Available_eq_false {s : State} : s.evex512Available = false ↔ Unavailable s .evex512 := by
  simp only [State.evex512Available, State.cr4Osxsave, State.xcr0Avx, State.xcr0Avx512, Unavailable,
    Bool.and_eq_false_iff, or_assoc]

theorem evexVlAvailable_eq_false {s : State} : s.evexVlAvailable = false ↔ Unavailable s .evexVl := by
  rw [State.evexVlAvailable, Bool.and_eq_false_iff, evex512Available_eq_false]
  rfl

/-- The model's availability of a row is the absence of the causes of 60_exceptions.md R151. -/
theorem available_eq_false {s : State} {i : Instr} : available s i = false ↔ Unavailable s (familyOf i) := by
  unfold available
  cases familyOf i with
  | sse => exact sseAvailable_eq_false
  | vex => exact vexAvailable_eq_false
  | evexVl => exact evexVlAvailable_eq_false
  | evex512 => exact evex512Available_eq_false

/-- Settles O42: an unavailable row is a #UD cause of level 1. -/
theorem unavailableFormRaisesInvalidOpcode : Obligations.UnavailableFormRaisesInvalidOpcode :=
  fun _ _ hm hlen h => exec_ud hm hlen (.inr (available_eq_false.2 h))

/-! ## L'L = 11 -/

theorem execReservedLength_ud {s : State} {p : List LegacyPrefix} {rex : Option Rex} {rm : RmOperand}
    (hm : s.mode = .bits64) (hlen : evexLength p rex rm ≤ 15) :
    execReservedLength p rex rm s = .fault (.invalidOpcode s.rip) :=
  guarded_some (front_ud hm hlen)

theorem inSpan_of_ripSpanOk {s : State} {len : Nat} (h : ripSpanOk s len = true) (k : Result) : inSpan s len k = k :=
  if_pos h

/-- The two opcodes read one variant, which keeps what its length is computed from. -/
theorem decode_reservedLength {p : List LegacyPrefix} (rex : Option Rex) (e : Evex) {op : Byte} (reg : BitVec 3)
    {rm : RmOperand} (tail : List Byte) (hp : onePerGroup p = true) (hrm : rm.shaped = true)
    (hop : op = 0x10#8 ∨ op = 0x11#8) :
    decode (prefixBytes p rex ++ e.bytes 0b11#2 ++ [op] ++ rm.bytes reg ++ tail) = .reservedLength p rex rm := by
  simp only [List.append_assoc, decode_evex rex hp, BitVec.reduceEq, if_false]
  rcases hop with rfl | rfl
  · exact decodeOpcode_regRm _ _ reg hrm tail
  · exact decodeOpcode_rmReg _ _ reg hrm tail

/-- Settles O41: the decoder's own variant, which raises #UD at level 1. -/
theorem reservedVectorLengthRaisesInvalidOpcode : Obligations.ReservedVectorLengthRaisesInvalidOpcode := by
  intro p rex e op reg rm tail hp hrm hop
  refine ⟨decode_reservedLength rex e reg tail hp hrm hop, fun s hm hlen hspan => ?_⟩
  rw [runDecoded, inSpan_of_ripSpanOk hspan, execReservedLength_ud hm hlen]

end Sys2Proof.Machine
end

section
/-! Proofs: encodings that differ and mean the same (30_encoding.md R74, R90, R91). -/

namespace Sys2Proof.Machine

/-! ## W -/

@[simp] theorem sseRex_withW (p : List LegacyPrefix) (x : Rex) (b : Bool) (rm : RmOperand) :
    Enc.sseRex p { x with w := b } rm = Enc.sseRex p x rm := rfl

@[simp] theorem vex3_withW (p : List LegacyPrefix) (rex : Option Rex) (v : Vex3) (b : Bool) (rm : RmOperand) :
    Enc.vex3 p rex { v with w := b } rm = Enc.vex3 p rex v rm := rfl

/-- Settles O33: a meaning sees its encoding through `Enc`, which does not hold W, and through vvvv. -/
theorem widthBitIsIgnored : Obligations.WidthBitIsIgnored := by
  intro s p rex x v b reg rm
  simp only [exec, execMovupdRegRmRex, execMovupdRmRegRex, execVex3Mov128RegRm, execVex3Mov128RmReg,
    execVex3Mov256RegRm, execVex3Mov256RmReg, sseRex_withW, vex3_withW, and_self]

/-! ## The two encodings of a register copy -/

/-- `d` has the extension bits of ModRM.reg and ModRM.rm of `c` exchanged. -/
structure Ext.Exchanged (c d : Ext) : Prop where
  regHi : d.rHi = c.rmHi
  reg : d.r = c.b
  rmHi : d.rmHi = c.rHi
  rm : d.b = c.r

theorem Ext.Exchanged.rmNum {c d : Ext} (h : c.Exchanged d) (n : BitVec 3) : d.rmNum n = c.regNum n := by
  rw [Ext.rmNum, Ext.regNum, h.rmHi, h.rm]

theorem Ext.Exchanged.regNum {c d : Ext} (h : c.Exchanged d) (n : BitVec 3) : d.regNum n = c.rmNum n := by
  rw [Ext.rmNum, Ext.regNum, h.regHi, h.reg]

/-- The EVEX fields with the extension bits of ModRM.reg and ModRM.rm exchanged, its other fields as they are. -/
def Evex.exchanged (e : Evex) : Evex := { e with r := e.b, rHi := e.x, b := e.r, x := e.rHi }

section Copies

variable {c d : Enc} (a b : BitVec 3) (s : State)

/-- The legacy meanings see a register copy through its prefixes, its length and the two register numbers. -/
theorem sse_copy_exchanged (hp : d.p = c.p) (hlen : d.len = c.len) (h : c.ext.Exchanged d.ext) :
    sseRegRm c a (.reg b) s = sseRmReg d b (.reg a) s := by
  simp only [sseRegRm, sseRmReg, Enc.rmSource, hp, hlen, h.rmNum, h.regNum]

/-- The VEX meanings see a register copy through its legality, its length and the two register numbers. -/
theorem vex_copy_exchanged (vl : Nat) (legal : Bool) (hlen : d.len = c.len) (h : c.ext.Exchanged d.ext) :
    vexRegRm vl c legal a (.reg b) s = vexRmReg vl d legal b (.reg a) s := by
  simp only [vexRegRm, vexRmReg, Enc.rmSource, hlen, h.rmNum, h.regNum]

/-- With a register destination the EVEX form of opcode `11` asks no more than that of opcode `10`. -/
theorem evex_copy_exchanged (vl : Nat) (p : List LegacyPrefix) (rex : Option Rex) (e : Evex) :
    evexRegRm vl p rex e a (.reg b) s = evexRmReg vl p rex (Evex.exchanged e) b (.reg a) s := by
  have hext : (Ext.ofEvex e).Exchanged (Ext.ofEvex (Evex.exchanged e)) := ⟨rfl, rfl, rfl, rfl⟩
  have hlegal : evexLegal p rex (Evex.exchanged e) = evexLegal p rex e := rfl
  have hmerge : evexToReg vl (Evex.exchanged e) = evexToReg vl e := rfl
  simp only [evexRegRm, evexRmReg, evexRmDestLegal, Enc.rmSource, Enc.evex, evexLength, RmOperand.size, hext.rmNum,
    hext.regNum, hlegal, hmerge, Bool.not_true, Bool.or_false]

end Copies

/-- Settles O32: destination and source are the same registers, and the length does not depend on the direction. -/
theorem registerCopyHasTwoEncodings : Obligations.RegisterCopyHasTwoEncodings := by
  intro s p rex x vvvv w e a b
  have legacy : Ext.none.Exchanged Ext.none := ⟨rfl, rfl, rfl, rfl⟩
  have vex2 : (Ext.ofVex2 ⟨false, vvvv⟩).Exchanged (Ext.ofVex2 ⟨false, vvvv⟩) := ⟨rfl, rfl, rfl, rfl⟩
  have vex3 : (Ext.ofVex3 w).Exchanged (Ext.ofVex3 { w with r := w.b, b := w.r }) := ⟨rfl, rfl, rfl, rfl⟩
  have rexBits : (Ext.ofRex x).Exchanged (Ext.ofRex { x with r := x.b, b := x.r }) := ⟨rfl, rfl, rfl, rfl⟩
  exact ⟨decodeOfEncodeIsTheInstruction (.movupdRegRm [.opsize] 1 (.reg 2)) [] rfl,
    decodeOfEncodeIsTheInstruction (.movupdRmReg [.opsize] 2 (.reg 1)) [] rfl,
    sse_copy_exchanged (c := Enc.sse p (.reg b)) (d := Enc.sse p (.reg a)) a b s rfl rfl legacy,
    sse_copy_exchanged (c := Enc.sseRex p x (.reg b)) (d := Enc.sseRex p _ (.reg a)) a b s rfl rfl rexBits,
    vex_copy_exchanged (c := Enc.vex2 p rex _ (.reg b)) (d := Enc.vex2 p rex _ (.reg a)) a b s 128 _ rfl vex2,
    vex_copy_exchanged (c := Enc.vex2 p rex _ (.reg b)) (d := Enc.vex2 p rex _ (.reg a)) a b s 256 _ rfl vex2,
    vex_copy_exchanged (c := Enc.vex3 p rex _ (.reg b)) (d := Enc.vex3 p rex _ (.reg a)) a b s 128 _ rfl vex3,
    vex_copy_exchanged (c := Enc.vex3 p rex _ (.reg b)) (d := Enc.vex3 p rex _ (.reg a)) a b s 256 _ rfl vex3,
    evex_copy_exchanged a b s 128 p rex e, evex_copy_exchanged a b s 256 p rex e,
    evex_copy_exchanged a b s 512 p rex e⟩

end Sys2Proof.Machine
end

section
/-! Proofs: what a completed instruction leaves unchanged (40_movupd_sse.md R114; 20_memory.md R46, R48). -/

namespace Sys2Proof.Machine

section Effects

variable {s t : State} {len : Nat} {dest : Option (BitVec 5)} {acc : Option MemAccess}

/-- Both ways to complete move rip past the instruction and change no other field than V and memory. -/
theorem Effect.completed (h : Effect s len dest acc t) : Completed s t len := by
  cases h with
  | register d x _ ht =>
    subst ht
    exact (wroteOnly_setV s d x len).completed
  | memory r en x m _ _ hs ht =>
    obtain ⟨rfl, _⟩ := store_inv hs
    subst ht
    exact (storedOnly_store s r en x len).completed

theorem Effect.v_eq (h : Effect s len dest acc t) {n : BitVec 5} (hn : dest ≠ some n) : t.v n = s.v n := by
  cases h with
  | register d x hd ht =>
    subst ht
    exact (wroteOnly_setV s d x len).others n fun e => hn (e ▸ hd)
  | memory r en x m _ _ hs ht =>
    obtain ⟨rfl, _⟩ := store_inv hs
    subst ht
    exact (storedOnly_store s r en x len).registers n

/-- Memory changes only where the access is a store, and there only in the bytes of its enabled elements. -/
theorem Effect.read_eq (h : Effect s len dest acc t) {a : Nat}
    (ha : ∀ w, acc = some w → w.kind = .write → ∀ k, k < w.ref.size → w.en (k / 8) = true → a ≠ w.ref.ea.toNat + k) :
    t.mem.read a = s.mem.read a := by
  cases h with
  | register d x _ ht =>
    subst ht
    exact (wroteOnly_setV s d x len).memory a
  | memory r en x m _ hacc hs ht =>
    obtain ⟨rfl, _⟩ := store_inv hs
    subst ht
    exact (storedOnly_store s r en x len).others a (ha _ hacc rfl)

end Effects

/-- Settles O29: an instruction that completes has one of the two effects. -/
theorem onlyTheDestinationAndRipChange : Obligations.OnlyTheDestinationAndRipChange := by
  intro i s t hexec
  obtain ⟨effect, _⟩ := exec_next hexec
  exact ⟨effect.completed, fun _ => effect.v_eq, fun _ => effect.read_eq⟩

end Sys2Proof.Machine
end

section
/-! Proofs: from the bytes at rip to the instruction's meaning (40_movupd_sse.md R110; 10_state.md R25; 20_memory.md R40). -/

namespace Sys2Proof.Machine

/-! ## A decoded instruction -/

theorem fetchStop_eq_none {s : State} (hmode : s.mode = .bits64) (htext : s.text.has s.rip.toNat = true) :
    fetchStop s = none := by
  simp [fetchStop, hmode, htext]

/-- Where a fetch is made and decodes to an instruction, the step asks only for the span of its bytes. -/
theorem step_of_decode {s : State} {i : Instr} (hmode : s.mode = .bits64) (htext : s.text.has s.rip.toNat = true)
    (hdecode : decode (fetch s) = .instr i) : step s = inSpan s (instrLength i) (exec i s) := by
  rw [step, fetchStop_eq_none hmode htext, hdecode]
  rfl

/-- Settles O10: the span of the bytes decides between the meaning and the refusal. -/
theorem stepRunsTheDecodedInstruction : Obligations.StepRunsTheDecodedInstruction := by
  intro s i hmode htext hdecode
  rw [step_of_decode hmode htext hdecode]
  exact ⟨fun hspan => inSpan_of_ripSpanOk hspan _, fun hspan => if_neg (Bool.not_eq_true _ ▸ hspan)⟩

/-! ## An encoding in memory -/

/-- Bytes that stand in memory from `a` on are the first ones read there. -/
theorem isPrefix_bytesAt {m : Memory} {a n : Nat} {bs : List Byte} (hn : bs.length ≤ n)
    (h : ∀ k (hk : k < bs.length), m.read (a + k) = bs[k]) : bs <+: bytesAt m a n := by
  rw [bytesAt_eq_map, List.prefix_iff_getElem]
  refine ⟨by simpa using hn, fun k hk => ?_⟩
  simpa using (h k hk).symm

/-- A fetch is long enough for an instruction whose bytes lie in the text, because no encoding exceeds the longest one. -/
theorem encode_isPrefix_fetch {s : State} {i : Instr} (hshaped : i.shaped = true)
    (hbytes : ∀ k (hk : k < (encode i).length), s.mem.read (s.rip.toNat + k) = (encode i)[k])
    (hend : s.rip.toNat + (encode i).length ≤ s.text.base.toNat + s.text.size) : encode i <+: fetch s := by
  obtain ⟨_, _, hmax, _⟩ := encodingLengthBounds i hshaped
  exact isPrefix_bytesAt (Nat.le_min.2 ⟨hmax, by omega⟩) hbytes

/-- Settles O11: the fetch begins with the encoding, and the decoder gives the instruction whatever follows it. -/
theorem instructionStandingInTextRuns : Obligations.InstructionStandingInTextRuns := by
  intro s i hmode hshaped hbytes hbase hend hspan
  obtain ⟨hlen, hmin, _⟩ := encodingLengthBounds i hshaped
  have htext : s.text.has s.rip.toNat = true := by
    simp only [TextRange.has, Bool.and_eq_true, decide_eq_true_eq]
    omega
  obtain ⟨tail, htail⟩ := encode_isPrefix_fetch hshaped hbytes hend
  have hdecode : decode (fetch s) = .instr i := by
    rw [← htail]
    exact decodeOfEncodeIsTheInstruction i tail hshaped
  exact (stepRunsTheDecodedInstruction s i hmode htext hdecode).1 (hlen ▸ hspan)

end Sys2Proof.Machine
end

section
/-! Proofs: the legacy SSE forms complete (40_movupd_sse.md R112, R113). -/

namespace Sys2Proof.Machine

variable {s : State} {c : Enc} {reg : BitVec 3}

/-- Ready and legal, a legacy form of at most 15 bytes is what follows its level-1 and level-2 checks. -/
theorem guarded_sse (hs : SseReady s) (hlegal : sseLegal c.p = true) (hlen : c.len ≤ 15) (k : Result) :
    guarded s false (!sseLegal c.p || !s.sseAvailable) c.len k = k := by
  rw [hlegal, hs.available]
  exact guarded_none (front_none hs.mode hlen hs.ts)

/-- Every register has the 128 bits that are replaced; above them the written value is the old one. -/
theorem lowBitsReplaced_setV (s : State) (d : BitVec 5) {x : Vec} {bit : Nat → Bool} (len : Nat)
    (hx : ∀ j, j < 128 → x.getLsbD j = bit j) :
    LowBitsReplaced s ((s.setV d (keepUpper 128 (s.v d) x)).advance len) d 128 bit := by
  have hmaxvl : 128 ≤ s.cfg.maxvl.bits := maxvl_ge _
  refine ⟨fun j hj => ?_, fun j hj hlt => ?_⟩
  · rw [advance_v, getLsbD_setV_v, getLsbD_keepUpper (by decide), if_pos hj, hx j hj,
      decide_eq_true (by omega), Bool.and_true]
  · rw [advance_v, getLsbD_setV_v, getLsbD_keepUpper (by decide), if_neg (by omega), decide_eq_true hlt, Bool.and_true]

/-! ## Both directions, with and without REX -/

theorem sseRegRm_completes {rm : RmOperand} (hs : SseReady s) (hlegal : sseLegal c.p = true) (hlen : c.len ≤ 15)
    (hr : ReadableRm s c 16 everyElement rm) :
    ∃ t, sseRegRm c reg rm s = .next t ∧ WroteOnly s t c.len (c.ext.regNum reg) ∧
      LowBitsReplaced s t (c.ext.regNum reg) 128 (rmBit s c 16 rm) := by
  obtain ⟨x, hx, hbits⟩ := rmSource_ok (by decide) hr
  rw [sseRegRm, guarded_sse hs hlegal hlen, hx]
  exact ⟨_, rfl, wroteOnly_setV .., lowBitsReplaced_setV _ _ _ fun j hj => hbits j hj rfl⟩

theorem sseRmReg_copy_completes {d : BitVec 3} (hs : SseReady s) (hlegal : sseLegal c.p = true) (hlen : c.len ≤ 15) :
    ∃ t, sseRmReg c reg (.reg d) s = .next t ∧ WroteOnly s t c.len (c.ext.rmNum d) ∧
      LowBitsReplaced s t (c.ext.rmNum d) 128 fun j => (s.v (c.ext.regNum reg)).getLsbD j := by
  rw [sseRmReg, guarded_sse hs hlegal hlen]
  exact ⟨_, rfl, wroteOnly_setV .., lowBitsReplaced_setV _ _ _ fun _ _ => rfl⟩

theorem sseRmReg_store_completes {a : AddrForm} (hs : SseReady s) (hlegal : sseLegal c.p = true) (hlen : c.len ≤ 15)
    (hst : Storable s (c.memRef s 16 a) everyElement) :
    ∃ t, sseRmReg c reg (.mem a) s = .next t ∧
      StoredOnly s t c.len (c.memRef s 16 a) everyElement (s.v (c.ext.regNum reg)) := by
  rw [sseRmReg, guarded_sse hs hlegal hlen]
  simp only [store_ok hst, toMem]
  exact ⟨_, rfl, storedOnly_store ..⟩

/-- Settles O15: each form is one of the two directions over its own encoding. -/
theorem legacyMoveToRegisterKeepsUpperBits : Obligations.LegacyMoveToRegisterKeepsUpperBits := by
  intro s p x reg d rm hs hlegal
  exact ⟨fun hlen hr => sseRegRm_completes (c := Enc.sse p rm) hs hlegal hlen hr,
    fun hlen hr => sseRegRm_completes (c := Enc.sseRex p x rm) hs hlegal hlen hr,
    fun hlen => sseRmReg_copy_completes (c := Enc.sse p (.reg d)) hs hlegal hlen,
    fun hlen => sseRmReg_copy_completes (c := Enc.sseRex p x (.reg d)) hs hlegal hlen⟩

/-- Settles O16: with and without REX the form is one store. -/
theorem legacyStoreWritesSixteenBytes : Obligations.LegacyStoreWritesSixteenBytes := by
  intro s p x reg a hs hlegal
  exact ⟨fun hlen hst => sseRmReg_store_completes (c := Enc.sse p (.mem a)) hs hlegal hlen hst,
    fun hlen hst => sseRmReg_store_completes (c := Enc.sseRex p x (.mem a)) hs hlegal hlen hst⟩

end Sys2Proof.Machine
end

section
/-! Proofs: no instruction reads MXCSR (40_movupd_sse.md R111). -/

namespace Sys2Proof.Machine

section OtherMxcsr

variable (s : State) (m : BitVec 32)

/-- An outcome with `m` put into MXCSR in the next state, where there is one. -/
def overMxcsr (m : BitVec 32) : Result → Result := mapNext fun t => { t with mxcsr := m }

@[simp] theorem overMxcsr_outcome (st : Stop) : overMxcsr m st.outcome = st.outcome := by cases st <;> rfl

/-- The checks before the operation do not ask for MXCSR. -/
theorem guarded_withMxcsr (vexLike ud : Bool) (len : Nat) (k : Result) :
    guarded { s with mxcsr := m } vexLike ud len (overMxcsr m k) = overMxcsr m (guarded s vexLike ud len k) := by
  have hfront : front { s with mxcsr := m } vexLike ud len = front s vexLike ud len := rfl
  rw [guarded, guarded, hfront]
  cases front s vexLike ud len with
  | none => rfl
  | some st => exact (overMxcsr_outcome m st).symm

theorem toReg_withMxcsr (len : Nat) (d : BitVec 5) (upd : Vec → Vec) (src : Except Stop Vec) :
    toReg { s with mxcsr := m } len d upd src = overMxcsr m (toReg s len d upd src) := by
  cases src with
  | ok x => rfl
  | error st => exact (overMxcsr_outcome m st).symm

/-- The checks of a store and what it writes do not depend on MXCSR, which it leaves as it is. -/
theorem toMem_store_withMxcsr (len : Nat) (r : MemRef) (en : Nat → Bool) (x : Vec) :
    toMem len (store { s with mxcsr := m } r en x) = overMxcsr m (toMem len (store s r en x)) := by
  have hstop : memStop { s with mxcsr := m } .write r en = memStop s .write r en := rfl
  have hoverlap : overlapsText { s with mxcsr := m } r en = overlapsText s r en := rfl
  rw [store, store, hstop, hoverlap]
  cases memStop s .write r en with
  | some st => exact (overMxcsr_outcome m st).symm
  | none => cases overlapsText s r en <;> rfl

/-! ## The two shapes of a meaning -/

theorem guarded_toReg_withMxcsr (vexLike ud : Bool) (len : Nat) (d : BitVec 5) (upd : Vec → Vec)
    (src : Except Stop Vec) :
    guarded { s with mxcsr := m } vexLike ud len (toReg { s with mxcsr := m } len d upd src) =
      overMxcsr m (guarded s vexLike ud len (toReg s len d upd src)) := by
  rw [toReg_withMxcsr, guarded_withMxcsr]

theorem guarded_store_withMxcsr (vexLike ud : Bool) (len : Nat) (r : MemRef) (en : Nat → Bool) (x : Vec) :
    guarded { s with mxcsr := m } vexLike ud len (toMem len (store { s with mxcsr := m } r en x)) =
      overMxcsr m (guarded s vexLike ud len (toMem len (store s r en x))) := by
  rw [toMem_store_withMxcsr, guarded_withMxcsr]

/-- Every instruction writes a register or stores; its operands, its mask and its address are not in MXCSR. -/
theorem exec_withMxcsr (i : Instr) : exec i { s with mxcsr := m } = overMxcsr m (exec i s) := by
  cases i with
  | movupdRegRm _ _ rm | movupdRegRmRex _ _ _ rm | vex2Mov128RegRm _ _ _ _ rm | vex3Mov128RegRm _ _ _ _ rm
  | vex2Mov256RegRm _ _ _ _ rm | vex3Mov256RegRm _ _ _ _ rm | evexMov128RegRm _ _ _ _ rm
  | evexMov256RegRm _ _ _ _ rm | evexMov512RegRm _ _ _ _ rm =>
    cases rm <;> exact guarded_toReg_withMxcsr ..
  | movupdRmReg _ _ rm | movupdRmRegRex _ _ _ rm | vex2Mov128RmReg _ _ _ _ rm | vex3Mov128RmReg _ _ _ _ rm
  | vex2Mov256RmReg _ _ _ _ rm | vex3Mov256RmReg _ _ _ _ rm | evexMov128RmReg _ _ _ _ rm
  | evexMov256RmReg _ _ _ _ rm | evexMov512RmReg _ _ _ _ rm =>
    cases rm with
    | reg n => exact guarded_toReg_withMxcsr ..
    | mem a => exact guarded_store_withMxcsr ..

theorem inSpan_withMxcsr (len : Nat) (k : Result) :
    inSpan { s with mxcsr := m } len (overMxcsr m k) = overMxcsr m (inSpan s len k) := by
  have hspan : ripSpanOk { s with mxcsr := m } len = ripSpanOk s len := rfl
  rw [inSpan, inSpan, hspan]
  split <;> rfl

theorem execReservedLength_withMxcsr (p : List LegacyPrefix) (rex : Option Rex) (rm : RmOperand) :
    execReservedLength p rex rm { s with mxcsr := m } = overMxcsr m (execReservedLength p rex rm s) :=
  guarded_withMxcsr s m true true _ (raise s .ud).outcome

theorem runDecoded_withMxcsr (d : Decoded) :
    runDecoded { s with mxcsr := m } d = overMxcsr m (runDecoded s d) := by
  cases d with
  | instr i => rw [runDecoded, exec_withMxcsr, inSpan_withMxcsr, runDecoded]
  | reservedLength p rex rm => rw [runDecoded, execReservedLength_withMxcsr, inSpan_withMxcsr, runDecoded]
  | refuse r => rfl

end OtherMxcsr

/-- Settles O28: the fetch reads the mode, rip, the text and memory; what it decoded runs the same. -/
theorem mxcsrHasNoEffect : Obligations.MxcsrHasNoEffect := by
  intro s m
  have hstop : fetchStop { s with mxcsr := m } = fetchStop s := rfl
  have hfetch : fetch { s with mxcsr := m } = fetch s := rfl
  change step { s with mxcsr := m } = overMxcsr m (step s)
  rw [step, step, hstop, hfetch]
  cases fetchStop s with
  | some st => exact (overMxcsr_outcome m st).symm
  | none => exact runDecoded_withMxcsr s m _

end Sys2Proof.Machine
end

section
/-! Proofs: the VEX forms complete (41_vmovupd_vex.md R120 to R125). -/

namespace Sys2Proof.Machine

variable {s : State} {c : Enc} {legal : Bool} {reg : BitVec 3} {vl : Nat}

/-- Ready and legal, a VEX form of at most 15 bytes is what follows its level-1 and level-2 checks. -/
theorem guarded_vex (hs : VexReady s) (hlegal : legal = true) (hlen : c.len ≤ 15) (k : Result) :
    guarded s true (!legal || !s.vexAvailable) c.len k = k := by
  rw [hlegal, hs.available]
  exact guarded_none (front_none hs.mode hlen hs.ts)

/-- With AVX every register has the bits of both VEX vector lengths (10_state.md R21). -/
theorem vexLength_le_maxvl (hvl : vl = 128 ∨ vl = 256) (hs : VexReady s) (hc : s.cfg.consistent = true) :
    vl ≤ s.cfg.maxvl.bits := by
  have hmaxvl : 256 ≤ s.cfg.maxvl.bits := maxvl_of_avx hc hs.avx
  omega

/-- Below `vl` the register holds the source's bits, which all exist; above it the written value is 0. -/
theorem lowBitsThenZero_setV (s : State) (d : BitVec 5) {x : Vec} {bit : Nat → Bool} (len : Nat)
    (hvl : vl ≤ s.cfg.maxvl.bits) (hx : ∀ j, j < vl → x.getLsbD j = bit j) :
    LowBitsThenZero ((s.setV d (zeroUpper vl x)).advance len) d vl bit := by
  have hvec : vl ≤ 512 := hvl.trans (maxvl_le _)
  refine ⟨fun j hj => ?_, fun j hj => ?_⟩
  · rw [advance_v, getLsbD_setV_v, getLsbD_zeroUpper hvec, hx j hj, decide_eq_true hj, Bool.and_true,
      decide_eq_true (by omega), Bool.and_true]
  · rw [advance_v, getLsbD_setV_v, getLsbD_zeroUpper hvec, decide_eq_false (by omega), Bool.and_false, Bool.false_and]

/-! ## Both directions and both lengths -/

theorem vexRegRm_completes {rm : RmOperand} (hvl : vl = 128 ∨ vl = 256) (hs : VexReady s)
    (hc : s.cfg.consistent = true) (hlegal : legal = true) (hlen : c.len ≤ 15)
    (hr : ReadableRm s c (vl / 8) everyElement rm) :
    ∃ t, vexRegRm vl c legal reg rm s = .next t ∧ WroteOnly s t c.len (c.ext.regNum reg) ∧
      LowBitsThenZero t (c.ext.regNum reg) vl (rmBit s c (vl / 8) rm) := by
  obtain ⟨x, hx, hbits⟩ := rmSource_ok (by omega) hr
  rw [vexRegRm, guarded_vex hs hlegal hlen, hx]
  exact ⟨_, rfl, wroteOnly_setV ..,
    lowBitsThenZero_setV _ _ _ (vexLength_le_maxvl hvl hs hc) fun j hj => hbits j (by omega) rfl⟩

theorem vexRmReg_copy_completes {d : BitVec 3} (hvl : vl = 128 ∨ vl = 256) (hs : VexReady s)
    (hc : s.cfg.consistent = true) (hlegal : legal = true) (hlen : c.len ≤ 15) :
    ∃ t, vexRmReg vl c legal reg (.reg d) s = .next t ∧ WroteOnly s t c.len (c.ext.rmNum d) ∧
      LowBitsThenZero t (c.ext.rmNum d) vl fun j => (s.v (c.ext.regNum reg)).getLsbD j := by
  rw [vexRmReg, guarded_vex hs hlegal hlen]
  exact ⟨_, rfl, wroteOnly_setV .., lowBitsThenZero_setV _ _ _ (vexLength_le_maxvl hvl hs hc) fun _ _ => rfl⟩

theorem vexRmReg_store_completes {a : AddrForm} (hs : VexReady s) (hlegal : legal = true) (hlen : c.len ≤ 15)
    (hst : Storable s (c.memRef s (vl / 8) a) everyElement) :
    ∃ t, vexRmReg vl c legal reg (.mem a) s = .next t ∧
      StoredOnly s t c.len (c.memRef s (vl / 8) a) everyElement (s.v (c.ext.regNum reg)) := by
  rw [vexRmReg, guarded_vex hs hlegal hlen]
  simp only [store_ok hst, toMem]
  exact ⟨_, rfl, storedOnly_store ..⟩

/-- Settles O17: each form is the opcode `10` direction over its own encoding and length. -/
theorem vexLoadOrCopyZeroesUpperBits : Obligations.VexLoadOrCopyZeroesUpperBits := by
  intro s p rex v w reg rm hs hc
  exact ⟨fun hlegal hlen =>
      ⟨vexRegRm_completes (c := Enc.vex2 p rex v rm) (.inl rfl) hs hc hlegal hlen,
        vexRegRm_completes (c := Enc.vex2 p rex v rm) (.inr rfl) hs hc hlegal hlen⟩,
    fun hlegal hlen =>
      ⟨vexRegRm_completes (c := Enc.vex3 p rex w rm) (.inl rfl) hs hc hlegal hlen,
        vexRegRm_completes (c := Enc.vex3 p rex w rm) (.inr rfl) hs hc hlegal hlen⟩⟩

/-- Settles O18: each form is the opcode `11` direction over its own encoding and length. -/
theorem vexCopyToRmZeroesUpperBits : Obligations.VexCopyToRmZeroesUpperBits := by
  intro s p rex v w reg d hs hc
  exact ⟨fun hlegal hlen =>
      ⟨vexRmReg_copy_completes (c := Enc.vex2 p rex v (.reg d)) (.inl rfl) hs hc hlegal hlen,
        vexRmReg_copy_completes (c := Enc.vex2 p rex v (.reg d)) (.inr rfl) hs hc hlegal hlen⟩,
    fun hlegal hlen =>
      ⟨vexRmReg_copy_completes (c := Enc.vex3 p rex w (.reg d)) (.inl rfl) hs hc hlegal hlen,
        vexRmReg_copy_completes (c := Enc.vex3 p rex w (.reg d)) (.inr rfl) hs hc hlegal hlen⟩⟩

/-- Settles O19: with either prefix and length the form is one store. -/
theorem vexStoreWritesTheVectorLength : Obligations.VexStoreWritesTheVectorLength := by
  intro s p rex v w reg a hs
  exact ⟨fun hlegal hlen =>
      ⟨vexRmReg_store_completes (c := Enc.vex2 p rex v (.mem a)) (vl := 128) hs hlegal hlen,
        vexRmReg_store_completes (c := Enc.vex2 p rex v (.mem a)) (vl := 256) hs hlegal hlen⟩,
    fun hlegal hlen =>
      ⟨vexRmReg_store_completes (c := Enc.vex3 p rex w (.mem a)) (vl := 128) hs hlegal hlen,
        vexRmReg_store_completes (c := Enc.vex3 p rex w (.mem a)) (vl := 256) hs hlegal hlen⟩⟩

end Sys2Proof.Machine
end

section
/-! Proofs: a register copied onto itself (41_vmovupd_vex.md R125). -/

namespace Sys2Proof.Machine

section SelfCopies

variable {s : State} {n : BitVec 3} {i j : Instr}

/-- Where ModRM.reg and ModRM.rm have the same extension bits, both opcodes are the one copy of V[n] onto itself. -/
theorem vex_selfCopies_complete (c : Enc) {vl : Nat} {legal : Bool} (hlen : c.len ≤ 15)
    (hself : c.ext.Exchanged c.ext) (hi : exec i s = vexRegRm vl c legal n (.reg n) s)
    (hj : exec j s = vexRmReg vl c legal n (.reg n) s) (hvl : vl = 128 ∨ vl = 256) (hs : VexReady s)
    (hc : s.cfg.consistent = true) (hlegal : legal = true) :
    ∀ k ∈ [i, j], ∃ t, exec k s = .next t ∧
      LowBitsThenZero t (c.ext.regNum n) vl fun b => (s.v (c.ext.regNum n)).getLsbD b := by
  obtain ⟨t, ht, _, hbits⟩ := vexRmReg_copy_completes (reg := n) (d := n) hvl hs hc hlegal hlen
  rw [hself.rmNum] at hbits
  have ht' := (vex_copy_exchanged n n s vl legal rfl hself).trans ht
  exact List.forall_mem_cons.2
    ⟨⟨t, hi.trans ht', hbits⟩, List.forall_mem_singleton.2 ⟨t, hj.trans ht, hbits⟩⟩

/-- Low bits replaced by the register's own ones leave every bit that exists as it was. -/
theorem WroteOnly.unchanged_of_own_bits {t : State} {len : Nat} {d : BitVec 5} (hw : WroteOnly s t len d)
    (hbits : LowBitsReplaced s t d 128 fun b => (s.v d).getLsbD b) (k : BitVec 5) (b : Nat)
    (hb : b < s.cfg.maxvl.bits) : (t.v k).getLsbD b = (s.v k).getLsbD b := by
  obtain ⟨hlow, hhigh⟩ := hbits
  by_cases hk : k = d
  · subst hk
    rcases Nat.lt_or_ge b 128 with h | h
    · exact hlow b h
    · exact hhigh b h hb
  · rw [hw.others k hk]

/-- Where ModRM.reg and ModRM.rm have the same extension bits, neither opcode changes a register. -/
theorem sse_selfCopies_complete (c : Enc) (hlen : c.len ≤ 15) (hself : c.ext.Exchanged c.ext)
    (hi : exec i s = sseRegRm c n (.reg n) s) (hj : exec j s = sseRmReg c n (.reg n) s) (hs : SseReady s)
    (hlegal : sseLegal c.p = true) :
    ∀ k ∈ [i, j], ∃ t, exec k s = .next t ∧
      ∀ m b, b < s.cfg.maxvl.bits → (t.v m).getLsbD b = (s.v m).getLsbD b := by
  obtain ⟨t, ht, hw, hbits⟩ := sseRmReg_copy_completes (reg := n) (d := n) hs hlegal hlen
  rw [← hself.rmNum] at hbits
  have ht' := (sse_copy_exchanged n n s rfl rfl hself).trans ht
  have hsame := hw.unchanged_of_own_bits hbits
  exact List.forall_mem_cons.2
    ⟨⟨t, hi.trans ht', hsame⟩, List.forall_mem_singleton.2 ⟨t, hj.trans ht, hsame⟩⟩

end SelfCopies

/-- Without an extension bit the 2-byte VEX prefix names the registers 0 to 7. -/
theorem ofVex2_regNum_low (vvvv : BitVec 4) (n : BitVec 3) : (Ext.ofVex2 ⟨false, vvvv⟩).regNum n = 0#2 ++ n :=
  congrArg (· ++ n) (by decide : BitVec.ofBool false ++ BitVec.ofBool false = 0#2)

/-- Settles O20: source and destination are one register, whichever opcode names it. -/
theorem vexSelfCopyClearsUpperBits : Obligations.VexSelfCopyClearsUpperBits := by
  intro s p w x n hp
  refine ⟨fun hs hc hlegal hw => ?_, fun hs hlegal hx => ?_⟩
  · have hlegal2 : vexLegal p none 15#4 = true := by
      simp only [vexLegal, Bool.and_eq_true] at hlegal ⊢
      exact ⟨hlegal.1, rfl⟩
    have hself2 : (Ext.ofVex2 ⟨false, 15⟩).Exchanged (Ext.ofVex2 ⟨false, 15⟩) := ⟨rfl, rfl, rfl, rfl⟩
    have hself3 : (Ext.ofVex3 w).Exchanged (Ext.ofVex3 w) := ⟨rfl, hw, rfl, hw.symm⟩
    have hlen2 : (Enc.vex2 p none ⟨false, 15⟩ (.reg n)).len ≤ 15 := by
      simp only [Enc.vex2, rexSize, RmOperand.size]
      omega
    have hlen3 : (Enc.vex3 p none w (.reg n)).len ≤ 15 := by
      simp only [Enc.vex3, rexSize, RmOperand.size]
      omega
    rw [← ofVex2_regNum_low 15 n]
    exact ⟨vex_selfCopies_complete (Enc.vex2 p none _ (.reg n)) hlen2 hself2 rfl rfl (.inl rfl) hs hc hlegal2,
      vex_selfCopies_complete (Enc.vex2 p none _ (.reg n)) hlen2 hself2 rfl rfl (.inr rfl) hs hc hlegal2,
      vex_selfCopies_complete (Enc.vex3 p none w (.reg n)) hlen3 hself3 rfl rfl (.inl rfl) hs hc hlegal,
      vex_selfCopies_complete (Enc.vex3 p none w (.reg n)) hlen3 hself3 rfl rfl (.inr rfl) hs hc hlegal⟩
  · have hself : Ext.none.Exchanged Ext.none := ⟨rfl, rfl, rfl, rfl⟩
    have hselfRex : (Ext.ofRex x).Exchanged (Ext.ofRex x) := ⟨rfl, hx, rfl, hx.symm⟩
    have hlen : (Enc.sse p (.reg n)).len ≤ 15 := by
      simp only [Enc.sse, RmOperand.size]
      omega
    have hlenRex : (Enc.sseRex p x (.reg n)).len ≤ 15 := by
      simp only [Enc.sseRex, RmOperand.size]
      omega
    exact List.forall_mem_append.2
      ⟨sse_selfCopies_complete (Enc.sse p (.reg n)) hlen hself rfl rfl hs hlegal,
        sse_selfCopies_complete (Enc.sseRex p x (.reg n)) hlenRex hselfRex rfl rfl hs hlegal⟩

end Sys2Proof.Machine
end

section
/-! Proofs: the EVEX forms complete, by the writemask (42_vmovupd_evex.md R131 to R140; 20_memory.md R48). -/

namespace Sys2Proof.Machine

/-! ## The writemask -/

theorem enabled_eq_true {s : State} {aaa : BitVec 3} {j : Nat} :
    s.enabled aaa j = true ↔ aaa = 0#3 ∨ (s.k aaa).getLsbD j = true := by
  rw [State.enabled, Bool.or_eq_true, beq_iff_eq]

/-- Settles O24: a read of K[aaa] is the stored register. -/
theorem writemaskEnablesElements : Obligations.WritemaskEnablesElements :=
  fun _ _ _ => enabled_eq_true

/-! ## The destination register -/

/-- Bit i of `EvexToReg`, for a vector length of whole elements. -/
theorem getLsbD_evexToReg {vl : Nat} (hdvd : 64 ∣ vl) (hle : vl ≤ 512) (e : Evex) (s : State) (d : BitVec 5)
    (src : Vec) (i : Nat) :
    (evexToReg vl e s d src).getLsbD i = (decide (i < vl) && maskedBit s d e src.getLsbD i) := by
  rw [evexToReg, getLsbD_evexMerge _ _ _ _ _ _ (by omega), Nat.mul_div_cancel' hdvd, maskedBit]

/-- A masked bit asks for the source where its element is enabled, and nowhere else. -/
theorem maskedBit_congr {s : State} {d : BitVec 5} {e : Evex} {bit bit' : Nat → Bool} {i : Nat}
    (h : s.enabled e.aaa (i / 64) = true → bit i = bit' i) : maskedBit s d e bit i = maskedBit s d e bit' i := by
  unfold maskedBit
  split
  · exact h ‹_›
  · rfl

section Completion

variable {s : State} {p : List LegacyPrefix} {rex : Option Rex} {e : Evex} {reg : BitVec 3} {vl : Nat}

@[simp] theorem enc_evex_len (rm : RmOperand) : (Enc.evex p rex e rm vl).len = evexLength p rex rm := rfl

@[simp] theorem enc_evex_ext (rm : RmOperand) : (Enc.evex p rex e rm vl).ext = Ext.ofEvex e := rfl

/-- Ready and legal, an EVEX form of at most 15 bytes is what follows its level-1 and level-2 checks. -/
theorem guarded_evex {legal : Bool} {len : Nat} (hs : EvexReady s vl) (hlegal : legal = true) (hlen : len ≤ 15)
    (k : Result) : guarded s true (!legal || !s.evexAvailable vl) len k = k := by
  rw [hlegal, hs.available]
  exact guarded_none (front_none hs.mode hlen hs.ts)

/-- With AVX512F every bit of the written value exists (10_state.md R21). -/
theorem lowBitsThenZero_evexToReg (hdvd : 64 ∣ vl) (hle : vl ≤ 512) (hs : EvexReady s vl)
    (hc : s.cfg.consistent = true) (d : BitVec 5) {x : Vec} {bit : Nat → Bool} (len : Nat)
    (hx : ∀ i, i < vl → s.enabled e.aaa (i / 64) = true → x.getLsbD i = bit i) :
    LowBitsThenZero ((s.setV d (evexToReg vl e s d x)).advance len) d vl (maskedBit s d e bit) := by
  have hmaxvl : s.cfg.maxvl.bits = 512 := maxvl_of_avx512f hc hs.avx512f
  refine ⟨fun i hi => ?_, fun i hi => ?_⟩
  · rw [advance_v, getLsbD_setV_v, getLsbD_evexToReg hdvd hle, decide_eq_true hi, decide_eq_true (by omega),
      Bool.true_and, Bool.and_true, maskedBit_congr (hx i hi)]
  · rw [advance_v, getLsbD_setV_v, getLsbD_evexToReg hdvd hle, decide_eq_false (by omega), Bool.false_and,
      Bool.false_and]

/-! ## Both directions, every length -/

theorem evexRegRm_completes {rm : RmOperand} (hdvd : 64 ∣ vl) (hle : vl ≤ 512) (hs : EvexReady s vl)
    (hc : s.cfg.consistent = true) (hlegal : evexLegal p rex e = true) (hlen : evexLength p rex rm ≤ 15)
    (hr : ReadableRm s (Enc.evex p rex e rm vl) (vl / 8) (s.enabled e.aaa) rm) :
    ∃ t, evexRegRm vl p rex e reg rm s = .next t ∧ WroteOnly s t (evexLength p rex rm) ((Ext.ofEvex e).regNum reg) ∧
      LowBitsThenZero t ((Ext.ofEvex e).regNum reg) vl
        (maskedBit s ((Ext.ofEvex e).regNum reg) e (rmBit s (Enc.evex p rex e rm vl) (vl / 8) rm)) := by
  obtain ⟨x, hx, hbits⟩ := rmSource_ok (by omega) hr
  rw [evexRegRm, enc_evex_len, guarded_evex hs hlegal hlen, hx]
  exact ⟨_, rfl, wroteOnly_setV .., lowBitsThenZero_evexToReg hdvd hle hs hc _ _ fun i hi => hbits i (by omega)⟩

theorem evexRmReg_copy_completes {d : BitVec 3} (hdvd : 64 ∣ vl) (hle : vl ≤ 512) (hs : EvexReady s vl)
    (hc : s.cfg.consistent = true) (hlegal : evexLegal p rex e = true) (hlen : evexLength p rex (.reg d) ≤ 15) :
    ∃ t, evexRmReg vl p rex e reg (.reg d) s = .next t ∧
      WroteOnly s t (evexLength p rex (.reg d)) ((Ext.ofEvex e).rmNum d) ∧
      LowBitsThenZero t ((Ext.ofEvex e).rmNum d) vl
        (maskedBit s ((Ext.ofEvex e).rmNum d) e fun i => (s.v ((Ext.ofEvex e).regNum reg)).getLsbD i) := by
  have hdest : (evexLegal p rex e && evexRmDestLegal e (.reg d)) = true := by rw [hlegal]; rfl
  rw [evexRmReg, ← Bool.not_and, enc_evex_len, guarded_evex hs hdest hlen]
  exact ⟨_, rfl, wroteOnly_setV .., lowBitsThenZero_evexToReg hdvd hle hs hc _ _ fun _ _ _ => rfl⟩

theorem evexRmReg_store_completes {a : AddrForm} (hs : EvexReady s vl) (hlegal : evexLegal p rex e = true)
    (hz : e.z = false) (hlen : evexLength p rex (.mem a) ≤ 15)
    (hst : Storable s ((Enc.evex p rex e (.mem a) vl).memRef s (vl / 8) a) (s.enabled e.aaa)) :
    ∃ t, evexRmReg vl p rex e reg (.mem a) s = .next t ∧
      StoredOnly s t (evexLength p rex (.mem a)) ((Enc.evex p rex e (.mem a) vl).memRef s (vl / 8) a)
        (s.enabled e.aaa) (s.v ((Ext.ofEvex e).regNum reg)) := by
  have hdest : (evexLegal p rex e && evexRmDestLegal e (.mem a)) = true := by rw [hlegal, evexRmDestLegal, hz]; rfl
  rw [evexRmReg, ← Bool.not_and, enc_evex_len, guarded_evex hs hdest hlen]
  simp only [store_ok hst, toMem]
  exact ⟨_, rfl, storedOnly_store ..⟩

end Completion

/-- Settles O21: each length is the opcode `10` direction over its own encoding. -/
theorem evexLoadOrCopyFollowsTheWritemask : Obligations.EvexLoadOrCopyFollowsTheWritemask := by
  intro s p rex e reg rm hc hlegal hlen
  exact ⟨fun hs => evexRegRm_completes (vl := 128) (by decide) (by decide) hs hc hlegal hlen,
    fun hs => evexRegRm_completes (vl := 256) (by decide) (by decide) hs hc hlegal hlen,
    fun hs => evexRegRm_completes (vl := 512) (by decide) (by decide) hs hc hlegal hlen⟩

/-- Settles O22: with a register destination either masking is legal, and each length is one copy. -/
theorem evexCopyToRmFollowsTheWritemask : Obligations.EvexCopyToRmFollowsTheWritemask := by
  intro s p rex e reg d hc hlegal hlen
  exact ⟨fun hs => evexRmReg_copy_completes (vl := 128) (by decide) (by decide) hs hc hlegal hlen,
    fun hs => evexRmReg_copy_completes (vl := 256) (by decide) (by decide) hs hc hlegal hlen,
    fun hs => evexRmReg_copy_completes (vl := 512) (by decide) (by decide) hs hc hlegal hlen⟩

/-- Settles O23: with z = 0 a memory destination is legal, and each length is one store. -/
theorem evexStoreWritesEnabledElements : Obligations.EvexStoreWritesEnabledElements := by
  intro s p rex e reg a hlegal hz hlen
  exact ⟨fun hs => evexRmReg_store_completes (vl := 128) hs hlegal hz hlen,
    fun hs => evexRmReg_store_completes (vl := 256) hs hlegal hz hlen,
    fun hs => evexRmReg_store_completes (vl := 512) hs hlegal hz hlen⟩

end Sys2Proof.Machine
end

section
/-! Proofs: without a writemask an EVEX form has the result of the VEX form (42_vmovupd_evex.md R134, R142 item 5;
20_memory.md R46). -/

namespace Sys2Proof.Machine

/-! ## No writemask -/

/-- aaa = 000 is "no writemask". -/
theorem enabled_zero (s : State) : s.enabled 0#3 = everyElement :=
  funext fun _ => enabled_eq_true.2 (.inl rfl)

/-- With every element enabled nothing is merged or zeroed below `vl`. -/
theorem evexToReg_unmasked {vl : Nat} (hdvd : 64 ∣ vl) (hle : vl ≤ 512) {e : Evex} (haaa : e.aaa = 0#3) (s : State)
    (d : BitVec 5) : evexToReg vl e s d = zeroUpper vl := by
  refine funext fun src => BitVec.eq_of_getLsbD_eq fun i _ => ?_
  rw [getLsbD_evexToReg hdvd hle, getLsbD_zeroUpper hle, maskedBit, haaa, if_pos (enabled_eq_true.2 (.inl rfl)),
    Bool.and_comm]

/-! ## Outcomes that agree -/

/-- The same vector registers and the same memory. -/
def SameVectorsAndMemory (t u : State) : Prop := (∀ n, t.v n = u.v n) ∧ t.mem = u.mem

section Agreement

variable {s t u : State} {len len' : Nat}

/-- Two forms that write the same register from the same source differ in their lengths alone. -/
theorem toReg_agrees {d : BitVec 5} {upd : Vec → Vec} {src : Except Stop Vec}
    (ht : toReg s len d upd src = .next t) (hu : toReg s len' d upd src = .next u) : SameVectorsAndMemory t u := by
  obtain ⟨x, hx, rfl⟩ := toReg_next ht
  obtain ⟨y, hy, rfl⟩ := toReg_next hu
  cases hx.symm.trans hy
  exact ⟨fun _ => rfl, rfl⟩

theorem toMem_agrees {w : Except Stop State} (ht : toMem len w = .next t) (hu : toMem len' w = .next u) :
    SameVectorsAndMemory t u := by
  obtain ⟨m, hm, rfl⟩ := toMem_next ht
  obtain ⟨n, hn, rfl⟩ := toMem_next hu
  cases hm.symm.trans hn
  exact ⟨fun _ => rfl, rfl⟩

/-! ## Operands that agree -/

/-- The extension bits of a VEX form: R and B, with no bit that names the registers 16 to 31 (30_encoding.md R84). -/
structure VexBits (x : Ext) (r b : Bool) : Prop where
  regHi : x.rHi = false
  reg : x.r = r
  rmHi : x.rmHi = false
  rm : x.b = b

/-- Two encodings have the same r/m operand of `size` bytes: one register, or one access. -/
inductive SameOperand (s : State) (size : Nat) (c d : Enc) : RmOperand → RmOperand → Prop where
  | register (n : BitVec 3) (h : c.ext.rmNum n = d.ext.rmNum n) : SameOperand s size c d (.reg n) (.reg n)
  | memory (a a' : AddrForm) (h : c.memRef s size a = d.memRef s size a') : SameOperand s size c d (.mem a) (.mem a')

theorem SameOperand.rmSource_eq {size : Nat} {c d : Enc} {rm rm' : RmOperand} (h : SameOperand s size c d rm rm')
    (en : Nat → Bool) : c.rmSource s size en rm = d.rmSource s size en rm' := by
  cases h with
  | register n h => rw [Enc.rmSource, Enc.rmSource, h]
  | memory a a' h => rw [Enc.rmSource, Enc.rmSource, h]

theorem VexBits.regNum_eq {x y : Ext} {r b : Bool} (hx : VexBits x r b) (hHi : y.rHi = false) (hr : y.r = r)
    (reg : BitVec 3) : y.regNum reg = x.regNum reg := by
  rw [Ext.regNum, Ext.regNum, hx.regHi, hx.reg, hHi, hr]

theorem VexBits.rmNum_eq {x y : Ext} {r b : Bool} (hx : VexBits x r b) (hHi : y.rmHi = false) (hb : y.b = b)
    (rm : BitVec 3) : y.rmNum rm = x.rmNum rm := by
  rw [Ext.rmNum, Ext.rmNum, hx.rmHi, hx.rm, hHi, hb]

/-! ## The two directions -/

variable {vl : Nat} {p : List LegacyPrefix} {rex : Option Rex} {e : Evex} {reg : BitVec 3} {rm rm' : RmOperand}
  {c : Enc} {legal : Bool}

theorem evexRegRm_agrees (hdvd : 64 ∣ vl) (hle : vl ≤ 512) (haaa : e.aaa = 0#3)
    (hreg : (Ext.ofEvex e).regNum reg = c.ext.regNum reg)
    (hrm : SameOperand s (vl / 8) (Enc.evex p rex e rm vl) c rm rm')
    (ht : evexRegRm vl p rex e reg rm s = .next t) (hu : vexRegRm vl c legal reg rm' s = .next u) :
    SameVectorsAndMemory t u := by
  obtain ⟨ht, _⟩ := guarded_next ht
  obtain ⟨hu, _⟩ := guarded_next hu
  rw [evexToReg_unmasked hdvd hle haaa, haaa, enabled_zero, hrm.rmSource_eq, enc_evex_ext, hreg] at ht
  exact toReg_agrees ht hu

theorem evexRmReg_agrees (hdvd : 64 ∣ vl) (hle : vl ≤ 512) (haaa : e.aaa = 0#3)
    (hreg : (Ext.ofEvex e).regNum reg = c.ext.regNum reg)
    (hrm : SameOperand s (vl / 8) (Enc.evex p rex e rm vl) c rm rm')
    (ht : evexRmReg vl p rex e reg rm s = .next t) (hu : vexRmReg vl c legal reg rm' s = .next u) :
    SameVectorsAndMemory t u := by
  obtain ⟨ht, _⟩ := guarded_next ht
  obtain ⟨hu, _⟩ := guarded_next hu
  cases hrm with
  | register n h =>
    rw [enc_evex_ext] at h
    simp only [evexToReg_unmasked hdvd hle haaa, h, enc_evex_ext, hreg] at ht
    exact toReg_agrees ht hu
  | memory a a' h =>
    simp only [haaa, enabled_zero, h, enc_evex_ext, hreg] at ht
    exact toMem_agrees ht hu

end Agreement

/-- Settles O25: the two forms write one register from one source, or make one store. -/
theorem unmaskedEvexAgreesWithVex : Obligations.UnmaskedEvexAgreesWithVex := by
  intro s t u p q rex rex' e w v reg rm rm' haaa hHi vl x y r b c hforms hr hoperand ht hu
  simp only [List.mem_cons, List.not_mem_nil, or_false] at hforms
  have hbits : VexBits c.ext r b := by
    rcases hforms with h | h | h | h | h | h | h | h <;> cases h <;> exact ⟨rfl, rfl, rfl, rfl⟩
  have hreg : (Ext.ofEvex e).regNum reg = c.ext.regNum reg := hbits.regNum_eq hHi hr reg
  have hrm : SameOperand s (vl / 8) (Enc.evex p rex e rm vl) c rm rm' := by
    rcases hoperand with ⟨n, rfl, rfl, hx, hb⟩ | ⟨a, a', rfl, rfl, h⟩
    · exact .register n (hbits.rmNum_eq hx hb n)
    · exact .memory a a' h
  rcases hforms with h | h | h | h | h | h | h | h <;> cases h
  case inl | inr.inl | inr.inr.inl | inr.inr.inr.inl =>
    exact evexRegRm_agrees (by decide) (by decide) haaa hreg hrm ht hu
  all_goals exact evexRmReg_agrees (by decide) (by decide) haaa hreg hrm ht hu

end Sys2Proof.Machine
end

section
/-! Proofs: the opmask bits above the elements have no effect (42_vmovupd_evex.md R131, R142 item 4). -/

namespace Sys2Proof.Machine

/-! ## Two masks that enable the same bytes -/

/-- Two masks enable the same ones of the elements 0 to n - 1. -/
def AgreeBelow (n : Nat) (en en' : Nat → Bool) : Prop := ∀ j, j < n → en' j = en j

section Masks

variable {n : Nat} {en en' : Nat → Bool} (h : AgreeBelow n en en')
include h

theorem AgreeBelow.not : AgreeBelow n (fun j => !en j) fun j => !en' j :=
  fun j hj => congrArg (!·) (h j hj)

/-- The element of a byte of n elements is one of them. -/
theorem AgreeBelow.ofByte {size k : Nat} (hsize : size ≤ 8 * n) (hk : k < size) : en' (k / 8) = en (k / 8) :=
  h _ (by omega)

theorem evexMerge_congr (old src : Vec) (z : Bool) : evexMerge old src en' z n = evexMerge old src en z n := by
  induction n with
  | zero => rfl
  | succ n ih =>
    rw [evexMerge, evexMerge, ih fun j hj => h j (by omega), maskedElement, maskedElement, h n (by omega)]

theorem loadBytes_congr_mask (m : Memory) (a : Nat) {size : Nat} (hsize : size ≤ 8 * n) :
    loadBytes m a en' size = loadBytes m a en size := by
  induction size with
  | zero => rfl
  | succ size ih => rw [loadBytes, loadBytes, ih (by omega), h.ofByte hsize (by omega)]

theorem storeBytes_congr_mask (m : Memory) (a : Nat) (x : Vec) {size : Nat} (hsize : size ≤ 8 * n) :
    storeBytes m a en' x size = storeBytes m a en x size := by
  induction size with
  | zero => rfl
  | succ size ih => rw [storeBytes, storeBytes, ih (by omega), h.ofByte hsize (by omega)]

variable (s : State) (kind : AccessKind) {r : MemRef} (hsize : r.size ≤ 8 * n)
include hsize

theorem failures_congr_mask : failures s kind r en' = failures s kind r en := by
  unfold failures
  exact congrArg _ (List.filter_congr fun k hk => h.ofByte hsize (List.mem_range.1 hk))

theorem memStop_congr_mask : memStop s kind r en' = memStop s kind r en := by
  rw [memStop, memStop, optionalFailures, optionalFailures, failures_congr_mask h s kind hsize,
    failures_congr_mask h.not s kind hsize]

theorem overlapsText_congr_mask : overlapsText s r en' = overlapsText s r en := by
  rw [Bool.eq_iff_iff, overlapsText, overlapsText, List.any_eq_true, List.any_eq_true]
  refine exists_congr fun k => and_congr_right fun hk => ?_
  rw [h.ofByte hsize (List.mem_range.1 hk)]

theorem load_congr_mask : load s r en' = load s r en := by
  rw [load, load, memStop_congr_mask h s .read hsize, loadBytes_congr_mask h _ _ hsize]

theorem store_congr_mask (x : Vec) : store s r en' x = store s r en x := by
  rw [store, store, memStop_congr_mask h s .write hsize, overlapsText_congr_mask h s hsize,
    storeBytes_congr_mask h _ _ _ hsize]

end Masks

/-! ## Another value in the opmask register -/

@[simp] theorem setK_k (s : State) (aaa : BitVec 3) (k : Word) : (s.setK aaa k).k aaa = k := by
  simp [State.setK, State.k]

/-- The elements whose mask bits are kept stay enabled or masked off as they were. -/
theorem enabled_setK_agreeBelow {s : State} {aaa : BitVec 3} {k : Word} {n : Nat}
    (h : ∀ j, j < n → k.getLsbD j = (s.k aaa).getLsbD j) :
    AgreeBelow n (s.enabled aaa) ((s.setK aaa k).enabled aaa) := by
  intro j hj
  rw [State.enabled, State.enabled, setK_k, h j hj]

section OtherMask

variable (s : State) (aaa : BitVec 3) (k : Word)

/-- An outcome with `k` put into K[aaa] in the next state, where there is one. -/
def overMask (aaa : BitVec 3) (k : Word) : Result → Result := mapNext fun t => t.setK aaa k

@[simp] theorem overMask_outcome (st : Stop) : overMask aaa k st.outcome = st.outcome := by cases st <;> rfl

/-- The checks before the operation do not ask for a mask. -/
theorem guarded_setK (vexLike ud : Bool) (len : Nat) (r : Result) :
    guarded (s.setK aaa k) vexLike ud len (overMask aaa k r) = overMask aaa k (guarded s vexLike ud len r) := by
  have hfront : front (s.setK aaa k) vexLike ud len = front s vexLike ud len := rfl
  rw [guarded, guarded, hfront]
  cases front s vexLike ud len with
  | none => rfl
  | some st => exact (overMask_outcome aaa k st).symm

theorem toReg_setK (len : Nat) (d : BitVec 5) (upd : Vec → Vec) (src : Except Stop Vec) :
    toReg (s.setK aaa k) len d upd src = overMask aaa k (toReg s len d upd src) := by
  cases src with
  | ok x => rfl
  | error st => exact (overMask_outcome aaa k st).symm

/-- Under one mask the checks of a store and what it writes do not depend on the register the mask came from. -/
theorem toMem_store_setK (len : Nat) (r : MemRef) (en : Nat → Bool) (x : Vec) :
    toMem len (store (s.setK aaa k) r en x) = overMask aaa k (toMem len (store s r en x)) := by
  have hstop : memStop (s.setK aaa k) .write r en = memStop s .write r en := rfl
  have hoverlap : overlapsText (s.setK aaa k) r en = overlapsText s r en := rfl
  rw [store, store, hstop, hoverlap]
  cases memStop s .write r en with
  | some st => exact (overMask_outcome aaa k st).symm
  | none => cases overlapsText s r en <;> rfl

end OtherMask

/-! ## The two directions -/

/-- A memory operand of a whole vector length has no more bytes than its elements. -/
theorem memRef_size_le {vl : Nat} (hdvd : 64 ∣ vl) (c : Enc) (s : State) (a : AddrForm) :
    (c.memRef s (vl / 8) a).size ≤ 8 * (vl / 64) := by
  have hsize : (c.memRef s (vl / 8) a).size = vl / 8 := rfl
  omega

section Forms

variable {s : State} {e : Evex} {k : Word} {vl : Nat}
  (h : ∀ j, j < vl / 64 → k.getLsbD j = (s.k e.aaa).getLsbD j)
include h

theorem evexToReg_setK (d : BitVec 5) : evexToReg vl e (s.setK e.aaa k) d = evexToReg vl e s d :=
  funext fun src => evexMerge_congr (enabled_setK_agreeBelow h) (s.v d) src e.z

variable (hdvd : 64 ∣ vl) (p : List LegacyPrefix) (rex : Option Rex) (reg : BitVec 3) (rm : RmOperand)
include hdvd

theorem rmSource_setK (c : Enc) :
    c.rmSource (s.setK e.aaa k) (vl / 8) ((s.setK e.aaa k).enabled e.aaa) rm =
      c.rmSource s (vl / 8) (s.enabled e.aaa) rm := by
  cases rm with
  | reg n => rfl
  | mem a => exact load_congr_mask (enabled_setK_agreeBelow h) s (memRef_size_le hdvd c s a)

theorem evexRegRm_setK :
    evexRegRm vl p rex e reg rm (s.setK e.aaa k) = overMask e.aaa k (evexRegRm vl p rex e reg rm s) := by
  rw [evexRegRm, evexRegRm, rmSource_setK h hdvd, evexToReg_setK h, toReg_setK, guarded_setK]
  rfl

theorem evexRmReg_setK :
    evexRmReg vl p rex e reg rm (s.setK e.aaa k) = overMask e.aaa k (evexRmReg vl p rex e reg rm s) := by
  cases rm with
  | reg d =>
    simp only [evexRmReg]
    rw [evexToReg_setK h, toReg_setK, guarded_setK]
    rfl
  | mem a =>
    simp only [evexRmReg]
    rw [store_congr_mask (enabled_setK_agreeBelow h) _ (memRef_size_le hdvd _ _ a), toMem_store_setK, guarded_setK]
    rfl

end Forms

/-- Settles O27: KL is VL / 64 for each length. -/
theorem opmaskBitsAboveTheElementsHaveNoEffect : Obligations.OpmaskBitsAboveTheElementsHaveNoEffect := by
  intro s p rex e reg rm k
  refine ⟨fun h => ?_, fun h => ?_, fun h => ?_⟩
  · exact List.forall_mem_cons.2 ⟨evexRegRm_setK (vl := 128) h (by decide) p rex reg rm,
      List.forall_mem_singleton.2 (evexRmReg_setK (vl := 128) h (by decide) p rex reg rm)⟩
  · exact List.forall_mem_cons.2 ⟨evexRegRm_setK (vl := 256) h (by decide) p rex reg rm,
      List.forall_mem_singleton.2 (evexRmReg_setK (vl := 256) h (by decide) p rex reg rm)⟩
  · exact List.forall_mem_cons.2 ⟨evexRegRm_setK (vl := 512) h (by decide) p rex reg rm,
      List.forall_mem_singleton.2 (evexRmReg_setK (vl := 512) h (by decide) p rex reg rm)⟩

end Sys2Proof.Machine
end

section
/-! Proofs: the vectors and error codes of the exceptions, the reach of the free choice, and #NM
(60_exceptions.md R150, R152, R161). -/

namespace Sys2Proof.Machine

/-! ## Vectors and error codes -/

/-- Settles O52: the two tables of the model, read at each exception. -/
theorem faultVectorsAndErrorCodes : Obligations.FaultVectorsAndErrorCodes :=
  fun _ _ _ => ⟨rfl, rfl, rfl, rfl, rfl, rfl⟩

/-! ## The reach of the choice -/

/-- Where a stop must happen, each listed stop is what some choice gives: the first as the default, the others as
alternatives to it. -/
theorem choose_cons_reaches {m st : Stop} {ms may : List Stop} (h : st ∈ m :: ms ∨ st ∈ may) :
    ∃ c, choose c (m :: ms) may = some st := by
  refine pickFrom_reaches ?_
  by_cases hst : st = m
  · exact .inl (congrArg some hst)
  · have hlisted : st ∈ ms ++ may := List.mem_append.2 (h.imp_left (List.mem_of_ne_of_mem hst))
    exact .inr ⟨st, mem_distinct.2 (List.mem_filter.2 ⟨hlisted, decide_eq_true hst⟩), rfl⟩

/-- Settles O46: what a choice gives is listed, and what is listed is reached, by going on only where no stop must happen. -/
theorem choiceAdmitsExactlyTheListedOutcomes : Obligations.ChoiceAdmitsExactlyTheListedOutcomes := by
  intro must may o
  constructor
  · rintro ⟨c, hc⟩
    cases o with
    | none => exact .inl ⟨choose_none hc, rfl⟩
    | some st => exact .inr ⟨st, choose_some hc, rfl⟩
  · rintro (⟨rfl, rfl⟩ | ⟨st, hst, rfl⟩)
    · exact choose_nil_reaches (.inl rfl)
    · cases must with
      | nil => exact choose_nil_reaches (.inr ⟨st, hst.resolve_left List.not_mem_nil, rfl⟩)
      | cons m ms => exact choose_cons_reaches hst

/-! ## #NM -/

section DeviceNotAvailable

variable {s : State} {i : Instr} {st : Stop} {r : Word}

/-- Levels 1 and 2 stop for #UD, #GP(0) or a mode out of scope; or, with CR0.TS = 1 only, for #NM. -/
theorem front_eq_some {vexLike ud : Bool} {len : Nat} (h : front s vexLike ud len = some st) :
    st = raise s .ud ∨ st = raise s .gp ∨ st = .refuse .modeOutOfScope ∨
      (s.cr0.getLsbD 3 = true ∧ st = raise s .nm) := by
  cases hmode : s.mode <;> simp only [front, hmode] at h
  case bits64 =>
    split at h
    case h_1 hlevel1 =>
      cases h
      have hlisted := (choose_some hlevel1).resolve_right List.not_mem_nil
      rcases List.mem_append.1 hlisted with hud | hgp
      · exact .inl (List.mem_singleton.1 (List.mem_ite_nil_right.1 hud).2)
      · exact .inr (.inl (List.mem_singleton.1 (List.mem_ite_nil_right.1 hgp).2))
    case h_2 =>
      obtain ⟨hts, hnm⟩ := Option.ite_none_right_eq_some.1 h
      exact .inr (.inr (.inr ⟨hts, (Option.some.inj hnm).symm⟩))
  case realAddress | virtual8086 => cases vexLike <;> cases h <;> simp
  case compatibility | legacyProtected => cases h; simp

/-- The failed check of one byte is #PF, a refusal, or #SS or #GP. -/
theorem accessStop_eq_some {kind : AccessKind} {stack : Bool} {a : Nat} (h : accessStop s kind stack a = some st) :
    (∃ code, st = raise s (.pf code (BitVec.ofNat 64 a))) ∨ (∃ why, st = .refuse why) ∨
      st = raise s (if stack then .ss else .gp) := by
  cases hc : canonical s.cfg.la a with
  | false =>
    rw [accessStop_noncanonical hc] at h
    exact .inr (.inr (Option.some.inj h).symm)
  | true =>
    rw [accessStop, if_pos hc] at h
    split at h <;> cases h
    · exact .inl ⟨_, rfl⟩
    · exact .inr (.inl ⟨_, rfl⟩)
    · exact .inr (.inl ⟨_, rfl⟩)

/-- The memory level does not raise #NM. -/
theorem memStop_ne_nm (s : State) (kind : AccessKind) (m : MemRef) (en : Nat → Bool) (r : Word) :
    memStop s kind m en ≠ some (.fault (.deviceNotAvailable r)) := by
  intro h
  rcases memStop_eq_some h with ⟨_, _, hac⟩ | ⟨k, _, hbyte⟩
  · cases hac
  · rcases accessStop_eq_some hbyte with ⟨_, hpf⟩ | ⟨_, hrefuse⟩ | hsegment
    · cases hpf
    · cases hrefuse
    · cases hs : m.stack <;> rw [hs] at hsegment <;> cases hsegment

/-- An instruction that raises #NM found CR0.TS = 1. -/
theorem ts_of_exec_nm (h : exec i s = .fault (.deviceNotAvailable r)) : s.cr0.getLsbD 3 = true := by
  rcases exec_fault h with ⟨_, hfront⟩ | ⟨_, _, hmem⟩
  · rcases front_eq_some hfront with hud | hgp | hmode | ⟨hts, _⟩
    · cases hud
    · cases hgp
    · cases hmode
    · exact hts
  · exact absurd hmem (memStop_ne_nm _ _ _ _ _)

/-- A legal and available instruction of at most 15 bytes raises #NM where CR0.TS = 1. -/
theorem exec_nm (hm : s.mode = .bits64) (hlen : instrLength i ≤ 15) (hlegal : i.legal = true)
    (havailable : available s i = true) (hts : s.cr0.getLsbD 3 = true) :
    exec i s = .fault (.deviceNotAvailable s.rip) := by
  obtain ⟨vexLike, k, hexec, _⟩ := exec_body i s
  rw [hexec, hlegal, havailable]
  exact guarded_some (front_nm hm hlen hts)

end DeviceNotAvailable

/-- Settles O43: #NM is the one stop of level 2, and no other level raises it. -/
theorem taskSwitchedRaisesDeviceNotAvailable : Obligations.TaskSwitchedRaisesDeviceNotAvailable := by
  refine fun i s => ⟨fun hm hlen hlegal havailable hts => ⟨exec_nm hm hlen hlegal havailable hts, rfl⟩,
    fun hts r hnm => ?_⟩
  rw [ts_of_exec_nm hnm] at hts
  cases hts

end Sys2Proof.Machine
end

section
/-! Proofs: where rip stands after a step, and that no step is made at the end of the text (10_state.md R25;
70_reset_and_hazards.md R184, R188). -/

namespace Sys2Proof.Machine

/-! ## The span of an instruction's bytes -/

theorem ripSpanOk_iff {s : State} {len : Nat} :
    ripSpanOk s len = true ↔ s.rip.toNat + len ≤ 2 ^ (s.cfg.la.bits - 1) ∨
      2 ^ 64 - 2 ^ (s.cfg.la.bits - 1) ≤ s.rip.toNat ∧ s.rip.toNat + len < 2 ^ 64 := by
  simp [ripSpanOk]

/-- Either half of the address space ends before 2^64. -/
theorem lt_of_ripSpanOk {s : State} {len : Nat} (h : ripSpanOk s len = true) : s.rip.toNat + len < 2 ^ 64 := by
  rcases ripSpanOk_iff.1 h with hlower | ⟨_, hupper⟩
  · refine Nat.lt_of_le_of_lt hlower ?_
    cases s.cfg.la <;> decide
  · exact hupper

/-- A span inside one that lies in one half of the address space lies in that half. -/
theorem ripSpanOk_of_within {s t : State} {m n : Nat} (h : ripSpanOk s m = true) (hcfg : t.cfg = s.cfg)
    (hbegin : s.rip.toNat ≤ t.rip.toNat) (hend : t.rip.toNat + n ≤ s.rip.toNat + m) : ripSpanOk t n = true := by
  rw [ripSpanOk_iff] at h ⊢
  rw [hcfg]
  exact h.imp (Nat.le_trans hend) fun ⟨hlow, hhigh⟩ =>
    ⟨Nat.le_trans hlow hbegin, Nat.lt_of_le_of_lt hend hhigh⟩

/-! ## rip after a step -/

/-- Where the bytes of an instruction lie as 10_state.md R25 asks, rip moves past them without wrapping. -/
theorem exec_rip_toNat {i : Instr} {s t : State} (h : exec i s = .next t) (hspan : ripSpanOk s (instrLength i) = true) :
    t.rip.toNat = s.rip.toNat + instrLength i := by
  obtain ⟨completed, _⟩ := onlyTheDestinationAndRipChange i s t h
  have hlt := lt_of_ripSpanOk hspan
  rw [completed.rip, BitVec.toNat_add, BitVec.toNat_ofNat, Nat.add_mod_mod, Nat.mod_eq_of_lt hlt]

/-- Settles O12: the step asked for the span, which rules out wrapping, before it ran the instruction. -/
theorem stepAdvancesRipByTheLength : Obligations.StepAdvancesRipByTheLength := by
  intro s t hstep
  obtain ⟨i, _, _, hdecode, hspan, hexec⟩ := step_next hstep
  exact ⟨i, hdecode, hexec, exec_rip_toNat hexec hspan⟩

/-! ## The end of the text -/

/-- The end of the text is the first address outside it. -/
theorem has_eq_false_of_finished {s : State} (h : s.finished) : s.text.has s.rip.toNat = false := by
  unfold State.finished at h
  simp [TextRange.has, h]

theorem fetchStop_of_finished {s : State} (hmode : s.mode = .bits64) (h : s.finished) :
    fetchStop s = some (.refuse .endOfText) := by
  rw [fetchStop, if_neg (not_not.2 hmode), has_eq_false_of_finished h]
  exact if_pos h

/-- Settles O13: the fetch stops at the end of the text, and the step answers that stop. -/
theorem noStepAtTheEndOfTheText : Obligations.NoStepAtTheEndOfTheText :=
  fun _ hmode hfinished => step_of_fetchStop_eq_some (fetchStop_of_finished hmode hfinished)

end Sys2Proof.Machine
end

section
/-! Proofs: what a whole run keeps (40_movupd_sse.md R114; 20_memory.md R62). -/

namespace Sys2Proof.Machine

theorem SameControl.refl (s : State) : SameControl s s := by constructor <;> rfl

theorem SameControl.trans {s t u : State} (h : SameControl s t) (h' : SameControl t u) : SameControl s u where
  kregs := h'.kregs.trans h.kregs
  gprs := h'.gprs.trans h.gprs
  rflags := h'.rflags.trans h.rflags
  mxcsr := h'.mxcsr.trans h.mxcsr
  cr0 := h'.cr0.trans h.cr0
  cr2 := h'.cr2.trans h.cr2
  cr4 := h'.cr4.trans h.cr4
  xcr0 := h'.xcr0.trans h.xcr0
  cpl := h'.cpl.trans h.cpl
  mode := h'.mode.trans h.mode
  cs := h'.cs.trans h.cs
  ds := h'.ds.trans h.ds
  es := h'.es.trans h.es
  ss := h'.ss.trans h.ss
  fs := h'.fs.trans h.fs
  gs := h'.gs.trans h.gs
  fsBase := h'.fsBase.trans h.fsBase
  gsBase := h'.gsBase.trans h.gsBase
  text := h'.text.trans h.text
  cfg := h'.cfg.trans h.cfg

theorem step_sameControl {s t : State} (h : step s = .next t) : SameControl s t := by
  obtain ⟨i, _, _, _, _, hexec⟩ := step_next h
  exact (onlyTheDestinationAndRipChange i s t hexec).1.control

/-- No run changes what no instruction changes. -/
theorem runSteps_sameControl {s t : State} {n : Nat} (h : runSteps n s = .next t) : SameControl s t := by
  induction n generalizing t with
  | zero =>
    cases h
    exact .refl s
  | succ n ih =>
    obtain ⟨u, hrun, hstep⟩ := runSteps_next h
    exact (ih hrun).trans (step_sameControl hstep)

/-- No run changes a byte of the program text. -/
theorem runSteps_keeps_text {s t : State} {n : Nat} (h : runSteps n s = .next t) {a : Nat}
    (ha : s.text.has a = true) : t.mem.read a = s.mem.read a := by
  induction n generalizing t with
  | zero =>
    cases h
    rfl
  | succ n ih =>
    obtain ⟨u, hrun, hstep⟩ := runSteps_next h
    have hu : u.text.has a = true := (runSteps_sameControl hrun).text ▸ ha
    exact (stepKeepsTheProgramText u t hstep a hu).trans (ih hrun)

end Sys2Proof.Machine
end

section
/-! Proofs: a run takes one step for each instruction of its program (70_reset_and_hazards.md R184, R188). -/

namespace Sys2Proof.Machine

section Program

variable {s t : State} {is : List Instr} {i : Instr} {n : Nat}

/-! ## Where an instruction stands in its program -/

/-- The number of bytes before instruction n of a program. -/
def offsetOf (is : List Instr) (n : Nat) : Nat := (programBytes (is.take n)).length

/-- Before and after an instruction stand the bytes of the instructions before and after it. -/
theorem programBytes_eq_append (hi : is[n]? = some i) :
    programBytes is = programBytes (is.take n) ++ (encode i ++ programBytes (is.drop (n + 1))) := by
  obtain ⟨hn, rfl⟩ := List.getElem?_eq_some_iff.1 hi
  have hsplit : is = is.take n ++ is[n] :: is.drop (n + 1) := by
    rw [← List.drop_eq_getElem_cons hn, List.take_append_drop]
  refine (congrArg programBytes hsplit).trans ?_
  simp only [programBytes, List.flatMap_append, List.flatMap_cons]

@[simp] theorem offsetOf_zero (is : List Instr) : offsetOf is 0 = 0 := rfl

@[simp] theorem offsetOf_length (is : List Instr) : offsetOf is is.length = (programBytes is).length := by
  rw [offsetOf, List.take_length]

theorem offsetOf_succ (hi : is[n]? = some i) : offsetOf is (n + 1) = offsetOf is n + instrLength i := by
  simp [offsetOf, programBytes, List.take_add_one, hi, length_encode]

theorem offsetOf_add_le (hi : is[n]? = some i) : offsetOf is n + (encode i).length ≤ (programBytes is).length := by
  rw [programBytes_eq_append hi, List.length_append, List.length_append, offsetOf]
  omega

/-- The bytes of instruction n of a program, from its offset on. -/
theorem getElem_programBytes (hi : is[n]? = some i) {k : Nat} (hk : k < (encode i).length)
    (hlt : offsetOf is n + k < (programBytes is).length) : (programBytes is)[offsetOf is n + k] = (encode i)[k] := by
  have hle : (programBytes (is.take n)).length ≤ offsetOf is n + k := Nat.le_add_right ..
  have hsub : offsetOf is n + k - (programBytes (is.take n)).length = k := Nat.add_sub_cancel_left ..
  rw [List.getElem_of_eq (programBytes_eq_append hi), List.getElem_append_right hle]
  simp only [hsub]
  exact List.getElem_append_left hk

/-- Every instruction has a byte, so that only the whole program has all of the bytes. -/
theorem offsetOf_eq_length_iff (hshaped : ∀ i ∈ is, i.shaped = true) (hn : n ≤ is.length) :
    offsetOf is n = (programBytes is).length ↔ n = is.length := by
  refine ⟨fun heq => ?_, fun h => h ▸ offsetOf_length is⟩
  by_contra hne
  have hi : is[n]? = some is[n] := List.getElem?_eq_getElem (by omega)
  obtain ⟨_, hmin, _⟩ := encodingLengthBounds is[n] (hshaped _ (List.getElem_mem _))
  have := offsetOf_add_le hi
  omega

/-! ## Each step of the run -/

variable (hmode : s.mode = .bits64) (hshaped : ∀ i ∈ is, i.shaped = true) (htext : ProgramText s is)

include htext in
theorem ProgramText.has {k : Nat} (hk : k < (programBytes is).length) : s.text.has (s.rip.toNat + k) = true := by
  simp [TextRange.has, htext.start, htext.size, hk]

include htext in
/-- At the offset of an instruction its bytes lie in one half of the address space. -/
theorem ProgramText.ripSpanOk_at (hrun : runSteps n s = .next t) (hrip : t.rip.toNat = s.rip.toNat + offsetOf is n)
    (hi : is[n]? = some i) : ripSpanOk t (encode i).length = true := by
  have hle := offsetOf_add_le hi
  exact ripSpanOk_of_within htext.canonical (runSteps_sameControl hrun).cfg (by omega) (by omega)

include hmode hshaped htext in
/-- A step at the offset of an instruction is that instruction's meaning: its bytes still stand there. -/
theorem step_at_offset (hrun : runSteps n s = .next t) (hrip : t.rip.toNat = s.rip.toNat + offsetOf is n)
    (hi : is[n]? = some i) : step t = exec i t := by
  have hsame := runSteps_sameControl hrun
  have hle := offsetOf_add_le hi
  have hbase : t.text.base.toNat = s.rip.toNat := by rw [hsame.text, htext.start]
  have hsize : t.text.size = (programBytes is).length := by rw [hsame.text, htext.size]
  refine instructionStandingInTextRuns t i (hsame.mode.trans hmode) (hshaped i (List.mem_of_getElem? hi))
    (fun k hk => ?_) (by omega) (by omega) (htext.ripSpanOk_at hrun hrip hi)
  have hlt : offsetOf is n + k < (programBytes is).length := by omega
  rw [hrip, Nat.add_assoc, runSteps_keeps_text hrun (htext.has hlt), htext.stands _ hlt, getElem_programBytes hi hk]

include hmode hshaped htext in
/-- After n steps rip stands at instruction n. -/
theorem rip_after_steps (hn : n ≤ is.length) (hrun : runSteps n s = .next t) :
    t.rip.toNat = s.rip.toNat + offsetOf is n := by
  induction n generalizing t with
  | zero =>
    cases hrun
    simp
  | succ n ih =>
    obtain ⟨u, hrun, hstep⟩ := runSteps_next hrun
    have hrip := ih (by omega) hrun
    have hi : is[n]? = some is[n] := List.getElem?_eq_getElem hn
    have hspan := htext.ripSpanOk_at hrun hrip hi
    rw [step_at_offset hmode hshaped htext hrun hrip hi] at hstep
    rw [exec_rip_toNat hstep (length_encode _ ▸ hspan), hrip, offsetOf_succ hi, Nat.add_assoc]

end Program

/-- Settles O55: by induction on the steps, rip stands at the offset of the next instruction, whose bytes no step has
changed; and that offset is the size of the text after the last instruction only. -/
theorem runTakesOneStepForEachInstruction : Obligations.RunTakesOneStepForEachInstruction := by
  intro s is hmode hshaped htext
  refine ⟨fun n t i hrun hi => ?_, fun n t hn hrun => ?_⟩
  · have hn := (List.getElem?_eq_some_iff.1 hi).1
    exact step_at_offset hmode hshaped htext hrun (rip_after_steps hmode hshaped htext (Nat.le_of_lt hn) hrun) hi
  · have hrip := rip_after_steps hmode hshaped htext hn hrun
    rw [State.finished, (runSteps_sameControl hrun).text, htext.start, htext.size, hrip, Nat.add_left_cancel_iff,
      offsetOf_eq_length_iff hshaped hn]

end Sys2Proof.Machine
end

section
/-! Proofs: what can stop an instruction, and a run, under the launch premises (70_reset_and_hazards.md R182, R184;
20_memory.md R49, R58). -/

namespace Sys2Proof.Machine

/-! ## The launch state -/

theorem programText_reset : ProgramText State.reset [] where
  start := rfl
  size := rfl
  stands _ h := absurd h (Nat.not_lt_zero _)
  canonical := by decide

theorem ready_reset (f : Family) : f.Ready State.reset := by
  cases f
  case sse => exact (by constructor <;> decide : SseReady State.reset)
  case vex => exact (by constructor <;> decide : VexReady State.reset)
  case evexVl | evex512 => constructor <;> decide

/-- Settles O1: every field holds its enabling value, and the empty program has no instruction that could store. -/
theorem resetMeetsLaunchPremises : Obligations.ResetMeetsLaunchPremises where
  left :=
    { mode := rfl
      consistent := by decide
      ready := fun _ _ => ready_reset _
      acOff := by decide
      text := { programText_reset with disjoint := fun _ _ _ _ hi => by cases hi } }
  right := ready_reset

/-! ## The stops of a memory operand -/

/-- The stops of a memory operand without an alignment check: #SS, #GP, #PF, or a refusal by `Access` (20_memory.md R49,
R55, R58). -/
inductive OperandStop (s : State) : Stop → Prop where
  | stackSegment : OperandStop s (raise s .ss)
  | generalProtection : OperandStop s (raise s .gp)
  | pageFault (code : Nat) (address : Word) : OperandStop s (raise s (.pf code address))
  | notOrdinary : OperandStop s (.refuse .notOrdinaryMemory)
  | aliased : OperandStop s (.refuse .aliasedAddress)

section Operand

variable {s : State} {i : Instr} {st : Stop}

theorem operandStop_of_accessStop {kind : AccessKind} {stack : Bool} {a : Nat}
    (h : accessStop s kind stack a = some st) : OperandStop s st := by
  unfold accessStop at h
  split at h
  · split at h <;> cases h
    · exact .pageFault _ _
    · exact .notOrdinary
    · exact .aliased
  · cases stack <;> cases h
    · exact .generalProtection
    · exact .stackSegment

theorem operandStop_of_memStop {kind : AccessKind} {r : MemRef} {en : Nat → Bool} (hac : s.acEnabled = false)
    (h : memStop s kind r en = some st) : OperandStop s st := by
  obtain ⟨_, _, hbyte⟩ := memStop_eq_some_of_aligned (.inl hac) h
  exact operandStop_of_accessStop hbyte

theorem OperandStop.fault_cases {f : Fault} (h : OperandStop s (.fault f)) :
    f = .stackSegment s.rip ∨ f = .generalProtection s.rip ∨ ∃ code a, f = .pageFault code a s.rip := by
  generalize hst : Stop.fault f = st at h
  cases h <;> cases hst
  · exact .inl rfl
  · exact .inr (.inl rfl)
  · exact .inr (.inr ⟨_, _, rfl⟩)

/-! ## The stops of an instruction -/

theorem exec_completes_of_memAccess_none (hr : ReachesOperation s i) (ha : memAccess s i = none) :
    ∃ t, exec i s = .next t := by
  have hb := exec_reaches hr
  generalize exec i s = k at hb ⊢
  cases hb with
  | register t _ => exact ⟨t, rfl⟩
  | load acc d upd h _ =>
    rw [h] at ha
    cases ha
  | store acc x h _ =>
    rw [h] at ha
    cases ha

theorem memStop_of_exec_fault {f : Fault} (hr : ReachesOperation s i) (h : exec i s = .fault f) :
    ∃ acc, memAccess s i = some acc ∧ memStop s acc.kind acc.ref acc.en = some (.fault f) :=
  body_fault (h ▸ exec_reaches hr)

/-- Past levels 1 and 2, an instruction that does not store into the text completes or stops at its operand. -/
theorem exec_completes_or_operandStop (hr : ReachesOperation s i) (hac : s.acEnabled = false)
    (htext : storeTouchesText s i = false) :
    (∃ t, exec i s = .next t) ∨ ∃ st, OperandStop s st ∧ exec i s = st.outcome := by
  cases ha : memAccess s i with
  | none => exact .inl (exec_completes_of_memAccess_none hr ha)
  | some acc =>
    rcases exec_access hr ha with ⟨st, hst, hexec⟩ | ⟨_, hnext | ⟨hwrite, hoverlap, _⟩⟩
    · exact .inr ⟨st, operandStop_of_memStop hac hst, hexec⟩
    · exact .inl hnext
    · simp [storeTouchesText, ha, hwrite, hoverlap] at htext

end Operand

/-- Settles O44: the launch premises take the instruction past levels 1 and 2, and only the memory level is left. -/
theorem launchPremisesLeaveOnlyMemoryFaults : Obligations.LaunchPremisesLeaveOnlyMemoryFaults := by
  intro i s hready hac hlegal hlen
  have hr := hready.reaches hlegal hlen
  refine ⟨fun f hf => ?_, exec_completes_of_memAccess_none hr⟩
  obtain ⟨acc, hacc, hstop⟩ := memStop_of_exec_fault hr hf
  exact ⟨by simp [hacc], (operandStop_of_memStop hac hstop).fault_cases⟩

/-! ## The stops of a run -/

section SameControl

variable {s t : State} (hsame : SameControl s t)

include hsame in
theorem SseReady.of_sameControl (h : SseReady s) : SseReady t where
  mode := hsame.mode.trans h.mode
  sse2 := hsame.cfg ▸ h.sse2
  em := hsame.cr0 ▸ h.em
  osfxsr := hsame.cr4 ▸ h.osfxsr
  ts := hsame.cr0 ▸ h.ts

include hsame in
theorem VexReady.of_sameControl (h : VexReady s) : VexReady t where
  mode := hsame.mode.trans h.mode
  avx := hsame.cfg ▸ h.avx
  osxsave := hsame.cr4 ▸ h.osxsave
  xcr0Sse := hsame.xcr0 ▸ h.xcr0Sse
  xcr0Avx := hsame.xcr0 ▸ h.xcr0Avx
  ts := hsame.cr0 ▸ h.ts

include hsame in
theorem EvexReady.of_sameControl {vl : Nat} (h : EvexReady s vl) : EvexReady t vl where
  mode := hsame.mode.trans h.mode
  avx512f := hsame.cfg ▸ h.avx512f
  avx512vl := hsame.cfg ▸ h.avx512vl
  osxsave := hsame.cr4 ▸ h.osxsave
  xcr0Sse := hsame.xcr0 ▸ h.xcr0Sse
  xcr0Avx := hsame.xcr0 ▸ h.xcr0Avx
  xcr0Opmask := hsame.xcr0 ▸ h.xcr0Opmask
  xcr0ZmmHi256 := hsame.xcr0 ▸ h.xcr0ZmmHi256
  xcr0Hi16Zmm := hsame.xcr0 ▸ h.xcr0Hi16Zmm
  ts := hsame.cr0 ▸ h.ts

include hsame in
/-- What the instructions of a row need is kept. -/
theorem Family.Ready.of_sameControl {f : Family} (h : f.Ready s) : f.Ready t := by
  cases f with
  | sse => exact SseReady.of_sameControl hsame h
  | vex => exact VexReady.of_sameControl hsame h
  | evexVl | evex512 => exact EvexReady.of_sameControl hsame h

include hsame in
theorem SameControl.acEnabled_eq : t.acEnabled = s.acEnabled := by
  simp only [State.acEnabled, State.cr0Am, State.rflagsAc, hsame.cr0, hsame.rflags, hsame.cpl]

end SameControl

/-- A well-formed instruction is never too long. -/
theorem Family.Ready.reaches_of_wellFormed {s : State} {i : Instr} (h : (familyOf i).Ready s)
    (hwf : i.wellFormed = true) : ReachesOperation s i := by
  obtain ⟨hshaped, hlegal⟩ := Bool.and_eq_true_iff.1 hwf
  obtain ⟨hlength, _, _, hmax, _⟩ := encodingLengthBounds i hshaped
  exact h.reaches hlegal (by have := hmax hlegal; omega)

section Launched

variable {s : State} {is : List Instr} (hlaunch : LaunchPremises s is) (hwf : ∀ i ∈ is, i.wellFormed = true)

include hwf in
theorem shaped_of_wellFormed : ∀ i ∈ is, i.shaped = true :=
  fun i hi => (Bool.and_eq_true_iff.1 (hwf i hi)).1

include hlaunch hwf in
/-- The launch premises hold those of O55 for a well-formed program. -/
theorem launched_takesOneStepForEachInstruction :
    (∀ n t i, runSteps n s = .next t → is[n]? = some i → step t = exec i t) ∧
    ∀ n t, n ≤ is.length → runSteps n s = .next t → (t.finished ↔ n = is.length) :=
  runTakesOneStepForEachInstruction s is hlaunch.mode (shaped_of_wellFormed hwf) hlaunch.text.toProgramText

include hlaunch hwf in
/-- The step after n steps completes or stops at the operand of instruction n. -/
theorem launched_step {n : Nat} {t : State} {i : Instr} (hrun : runSteps n s = .next t) (hi : is[n]? = some i) :
    (∃ u, step t = .next u) ∨ ∃ st, OperandStop t st ∧ step t = st.outcome := by
  have hmem := List.mem_of_getElem? hi
  have hsame := runSteps_sameControl hrun
  have hready := (hlaunch.ready i hmem).of_sameControl hsame
  obtain ⟨hsteps, _⟩ := launched_takesOneStepForEachInstruction hlaunch hwf
  rw [hsteps n t i hrun hi]
  exact exec_completes_or_operandStop (hready.reaches_of_wellFormed (hwf i hmem))
    (hsame.acEnabled_eq.trans hlaunch.acOff) (hlaunch.text.disjoint n t i hrun hi)

include hlaunch hwf in
/-- A run of at most as many steps as instructions goes on, or one of them stopped at an operand. -/
theorem launched_run {n : Nat} (hn : n ≤ is.length) :
    (∃ t, runSteps n s = .next t) ∨ ∃ t st, OperandStop t st ∧ runSteps n s = st.outcome := by
  induction n with
  | zero => exact .inl ⟨s, rfl⟩
  | succ n ih =>
    rw [runSteps_last]
    rcases ih (by omega) with ⟨t, hrun⟩ | ⟨t, st, hstop, hrun⟩
    · rw [hrun]
      exact (launched_step hlaunch hwf hrun (List.getElem?_eq_getElem hn)).imp id fun h => ⟨t, h⟩
    · refine .inr ⟨t, st, hstop, ?_⟩
      rw [hrun]
      cases st <;> rfl

end Launched

/-- Settles O56: by induction on the steps, each completes or stops at an operand; after the last the run is at the end
of the text. -/
theorem launchedRunEndsOrStopsAtAnOperand : Obligations.LaunchedRunEndsOrStopsAtAnOperand := by
  intro s is hlaunch hwf
  rcases launched_run hlaunch hwf (Nat.le_refl _) with ⟨t, hrun⟩ | ⟨t, st, hstop, hrun⟩
  · obtain ⟨_, hend⟩ := launched_takesOneStepForEachInstruction hlaunch hwf
    exact .inl ⟨t, hrun, (hend _ t (Nat.le_refl _) hrun).2 rfl⟩
  · rw [hrun]
    cases hstop with
    | stackSegment | generalProtection | pageFault => exact .inr (.inl ⟨_, rfl, by simp [Fault.vector]⟩)
    | notOrdinary => exact .inr (.inr (.inl rfl))
    | aliased => exact .inr (.inr (.inr rfl))

end Sys2Proof.Machine
end

section
/-! Proofs: the words of 95_test_vectors.md, decoded (30_encoding.md R74 to R85). -/

namespace Sys2Proof

/-- Bytes that are the encoding of a shaped instruction decode to it, with nothing after them. -/
theorem decode_eq_of_encode_eq {bs : List Byte} {i : Instr} (hshaped : i.shaped = true) (hbytes : encode i = bs) :
    decode bs = .instr i := by
  rw [← hbytes, ← List.append_nil (encode i)]
  exact decodeOfEncodeIsTheInstruction i [] hshaped

/-- Settles O6: each byte string is what the encoder writes for the instruction of its row. -/
theorem specWordsDecodeToTheirInstructions : Obligations.SpecWordsDecodeToTheirInstructions :=
  ⟨decode_eq_of_encode_eq rfl rfl, -- T1
   decode_eq_of_encode_eq rfl rfl, -- T4
   decode_eq_of_encode_eq rfl rfl, -- T12, the 2-byte prefix
   decode_eq_of_encode_eq rfl rfl, -- T12, the 3-byte prefix
   decode_eq_of_encode_eq rfl rfl, -- T15
   decode_eq_of_encode_eq rfl rfl, -- T20
   decode_eq_of_encode_eq rfl rfl⟩ -- T22

end Sys2Proof
end
